-- ==== Sys2Proof/Word.lean ====
section
/-! DEFINITION. The words of the block and the two ports. Bit 0 is the least significant bit of every value and
every value is unsigned (spec/00_scope.md R9). -/

namespace Sys2Proof

/-- A queue, sample or stream byte (R9, R33). -/
abbrev Byte := BitVec 8

/-- A command word, 32 bits: `op[31:24]`, `imm[23:0]` (spec/30_encoding.md R118). -/
abbrev Word := BitVec 32

/-- The operand field `imm` of a command word (R118). -/
abbrev Imm := BitVec 24

/-- A response word, 16 bits (R119). -/
abbrev RespWord := BitVec 16

/-- A compressor code in its 16-bit register (spec/42_compressor.md R191). -/
abbrev Code := BitVec 16

/-- A key of the compressor's hash table, 32 bits (R194). -/
abbrev Key := BitVec 32

/-- The two command ports, one for each agent: the producer's and the consumer's (spec/00_scope.md R5, R6). -/
inductive Port where
  | p
  | c
deriving DecidableEq, Repr

/-- The bit field `v[lo + 7 : lo]` of a number (R9), as a byte. -/
def byteAt {w : Nat} (v : BitVec w) (lo : Nat) : Byte := v.extractLsb' lo 8

end Sys2Proof
end

