-- ==== Sys2Proof/Config.lean ====
section
/-! DEFINITION. What a build of the block fixes: the parameters of spec/00_scope.md R7, their constraints R8, and the
reference set, which is this hardware. Every shared operation of the machine takes the parameter record, so that a
claim can quantify over it; `exec` runs at `reference` (log entry 12). There is no free value: no command of this
block leaves a result undefined. -/

namespace Sys2Proof

/-- The parameters of R7 that are chosen; the derived ones (`MAX_CODE`, `EOS_CODE`, `CMP_INIT_OK`) are functions of
them below. -/
structure Params where
  /-- `QSIZE`, queue capacity in bytes. -/
  qsize : Nat
  /-- `CH_MIN`, `CH_MAX`, the legal `channel_count`. -/
  chMin : Nat
  chMax : Nat
  /-- `RATE_MIN`, `RATE_MAX`, the legal `sample_rate_hz`. -/
  rateMin : Nat
  rateMax : Nat
  /-- `DUR_MIN`, `DUR_MAX`, the legal `session_duration_ms`. -/
  durMin : Nat
  durMax : Nat
  /-- `STACK_LIMIT`, the largest `channel_count` that is bit-stacked. -/
  stackLimit : Nat
  /-- `ROLLOVER_PERIOD`, interrupts between rollover records. -/
  rolloverPeriod : Nat
  /-- `IC_WIDTH`, width of `interrupt_count` in bits (at most the 32 of its register). -/
  icWidth : Nat
  /-- `MARK_SAMPLE`, `MARK_ROLLOVER`, the marker bytes of the two records. -/
  markSample : Byte
  markRollover : Byte
  /-- `NBITS`, the compressor's code width. -/
  nbits : Nat
  /-- `CLEAR_CODE` and `FIRST_FREE`. -/
  clearCode : Nat
  firstFree : Nat
  /-- `HASH_SIZE` and `HSHIFT`. -/
  hashSize : Nat
  hshift : Nat
  /-- `EMPTY`, the value of an empty `hash_table` slot. -/
  empty : Key
deriving DecidableEq, Repr

/-- `MAX_CODE` = 2^`NBITS` − 1 (R7). -/
def Params.maxCode (P : Params) : Nat := 2 ^ P.nbits - 1

/-- `EOS_CODE`, "all bits of width `NBITS` set" = `MAX_CODE` (R7). -/
def Params.eosCode (P : Params) : Nat := P.maxCode

/-- No divisor of `n` from `d` on up to its square root, looking at most `fuel` further. -/
def noDivisorFrom (n : Nat) : Nat → Nat → Bool
  | 0, _ => true
  | fuel + 1, d => if d * d > n then true else if n % d = 0 then false else noDivisorFrom n fuel (d + 1)

/-- `n` is prime, by trial division. -/
def isPrime (n : Nat) : Bool := decide (2 ≤ n) && noDivisorFrom n n 2

/-- R8 (a): 9 ≤ `NBITS` ≤ 15. -/
def Params.widthOk (P : Params) : Bool := decide (9 ≤ P.nbits) && decide (P.nbits ≤ 15)

/-- R8 (b): the reserved codes are distinct, lie above the literals and below the first learned code. -/
def Params.reservedOk (P : Params) : Bool :=
  decide (P.clearCode ≠ P.eosCode) && decide (256 ≤ P.clearCode) && decide (256 ≤ P.eosCode)
    && decide (P.clearCode < P.firstFree)

/-- R8 (c): `HASH_SIZE` is prime and exceeds the largest number of phrases ever stored. -/
def Params.tableOk (P : Params) : Bool := isPrime P.hashSize && decide (P.maxCode - P.firstFree < P.hashSize)

/-- R8 (d): the hash index is always a slot number. -/
def Params.indexOk (P : Params) : Bool := decide (2 ^ max (8 + P.hshift) P.nbits ≤ P.hashSize)

/-- R8 (e): `EMPTY` has a 1 in bits 15:8 or in bit 31, so it is no key. -/
def Params.emptyOk (P : Params) : Bool := decide (P.empty.extractLsb' 8 8 ≠ 0) || P.empty.getLsbD 31

/-- All of R8. -/
def Params.meetsR8 (P : Params) : Bool := P.widthOk && P.reservedOk && P.tableOk && P.indexOk && P.emptyOk

/-- `CMP_INIT_OK`: "the truth of those constraints, a constant of the build" (R7, R8, spec/42_compressor.md R192). -/
def Params.cmpInitOk (P : Params) : Bool := P.meetsR8

/-- The reference set of R7: this hardware. -/
def reference : Params where
  qsize := 4096
  chMin := 1
  chMax := 8
  rateMin := 10
  rateMax := 10000000
  durMin := 10
  durMax := 100000
  stackLimit := 4
  rolloverPeriod := 65536
  icWidth := 32
  markSample := 0xBD
  markRollover := 0xBE
  nbits := 13
  clearCode := 256
  firstFree := 257
  hashSize := 9001
  hshift := 5
  empty := 0xFFFFFFFF

end Sys2Proof
end

