-- ==== Sys2Proof/Syntax.lean ====
section
/-! DEFINITION. The twenty commands of spec/30_encoding.md R120, one constructor for each row of
spec/opcode_table.json. -/

namespace Sys2Proof

/-- A command. A byte operand is `imm[7:0]`, a `val` operand the whole of `imm` (R118). Seventeen commands are legal
at one port only; the three queue predicates are legal at both (R120) and carry the port they are issued at. -/
inductive Instr where
  /-- `P:ENQ v` (R145) -/
  | enq (v : Byte)
  /-- `P:PUSH raw` (R166) -/
  | push (raw : Byte)
  /-- `P:FINAL` (R170) -/
  | final
  /-- `C:DEQ` (R146) -/
  | deq
  /-- `QEMPTY` (R142) -/
  | qempty (port : Port)
  /-- `QFULL` (R143) -/
  | qfull (port : Port)
  /-- `QOVF` (R144) -/
  | qovf (port : Port)
  /-- `C:QCLEAR` (R141) -/
  | qclear
  /-- `C:CINIT` (R192) -/
  | cinit
  /-- `C:CBYTE b` (R196) -/
  | cbyte (b : Byte)
  /-- `C:CFLUSH` (R198) -/
  | cflush
  /-- `C:CFGCH n` (R231) -/
  | cfgch (n : Imm)
  /-- `C:CFGRATE n` (R237) -/
  | cfgrate (n : Imm)
  /-- `C:CFGDUR n` (R238) -/
  | cfgdur (n : Imm)
  /-- `C:CFGMODE m` (R239) -/
  | cfgmode (n : Imm)
  /-- `C:CFGCMP e` (R240) -/
  | cfgcmp (n : Imm)
  /-- `C:START` (R232) -/
  | start
  /-- `C:STOP` (R233) -/
  | stop
  /-- `C:POP` (R235) -/
  | pop
  /-- `C:SSTAT` (R236) -/
  | sstat
deriving DecidableEq, Repr

end Sys2Proof
end

