-- ==== Sys2Proof/WellFormed.lean ====
section
/-! DEFINITION. The commands that pass every step of the command decoder (spec/30_encoding.md R121). Steps 1 to 3
concern the word and cannot fail for a term of `Instr`; step 4 is the range check of the five `CFG*` operands (R122). -/

namespace Sys2Proof

/-- The operand of a configuration command is in the range of R122; every other command is well-formed. -/
def Instr.wellFormed (P : Params) : Instr → Bool
  | .cfgch n => decide (P.chMin ≤ n.toNat) && decide (n.toNat ≤ P.chMax)
  | .cfgrate n => decide (P.rateMin ≤ n.toNat) && decide (n.toNat ≤ P.rateMax)
  | .cfgdur n => decide (P.durMin ≤ n.toNat) && decide (n.toNat ≤ P.durMax)
  | .cfgmode n => decide (n.toNat ≤ 1)
  | .cfgcmp n => decide (n.toNat ≤ 1)
  | .enq _ => true
  | .push _ => true
  | .final => true
  | .deq => true
  | .qempty _ => true
  | .qfull _ => true
  | .qovf _ => true
  | .qclear => true
  | .cinit => true
  | .cbyte _ => true
  | .cflush => true
  | .start => true
  | .stop => true
  | .pop => true
  | .sstat => true

end Sys2Proof
end

