-- ==== Sys2Proof/Decode.lean ====
section
/-! DEFINITION. The command decoder (spec/30_encoding.md R118, R120, R121), total on every word at either port, the
encoder, and the pseudo-instructions of R131. -/

namespace Sys2Proof

/-- The field `op` of a command word (R118). -/
def opField (w : Word) : Byte := w.extractLsb' 24 8

/-- The field `imm` of a command word (R118). -/
def immField (w : Word) : Imm := w.extractLsb' 0 24

/-- The command word with the given fields: `(op << 24) | imm` (R118, R130). -/
def commandWord (op : Byte) (imm : Imm) : Word := op ++ imm

/-- The operand classes of R118. -/
inductive OperandClass where
  | none
  | byte
  | val
deriving DecidableEq, Repr

/-- The legal shape of `imm` for an operand class: `none` wants 0, `byte` wants `imm[23:8]` = 0 (R118). -/
def OperandClass.accepts : OperandClass → Imm → Bool
  | .none, imm => imm == 0
  | .byte, imm => imm.extractLsb' 8 16 == 0
  | .val, _ => true

/-- Why a word is no command at a port (R121 steps 1 to 3, in order). All three answer `ILLEGAL_COMMAND`. -/
inductive DecodeError where
  | unknownOpcode
  | wrongPort
  | reservedOperandBits
deriving DecidableEq, Repr

/-- One row of the command table of R120. -/
structure OpRow where
  mnemonic : String
  op : Byte
  atP : Bool
  atC : Bool
  operand : OperandClass
  build : Port → Imm → Instr

/-- The command is legal at the port (R120, column "ports"). -/
def OpRow.legalAt (r : OpRow) : Port → Bool
  | .p => r.atP
  | .c => r.atC

/-- The producer's commands, 0x1x (R120). -/
def producerRows : List OpRow :=
  [⟨"ENQ", 0x10, true, false, .byte, fun _ n => .enq (byteAt n 0)⟩,
   ⟨"PUSH", 0x11, true, false, .byte, fun _ n => .push (byteAt n 0)⟩,
   ⟨"FINAL", 0x12, true, false, .none, fun _ _ => .final⟩]

/-- The queue commands, 0x2x (R120). -/
def queueRows : List OpRow :=
  [⟨"DEQ", 0x20, false, true, .none, fun _ _ => .deq⟩,
   ⟨"QEMPTY", 0x21, true, true, .none, fun port _ => .qempty port⟩,
   ⟨"QFULL", 0x22, true, true, .none, fun port _ => .qfull port⟩,
   ⟨"QOVF", 0x23, true, true, .none, fun port _ => .qovf port⟩,
   ⟨"QCLEAR", 0x24, false, true, .none, fun _ _ => .qclear⟩]

/-- The compressor commands, 0x3x (R120). -/
def compressorRows : List OpRow :=
  [⟨"CINIT", 0x30, false, true, .none, fun _ _ => .cinit⟩,
   ⟨"CBYTE", 0x31, false, true, .byte, fun _ n => .cbyte (byteAt n 0)⟩,
   ⟨"CFLUSH", 0x32, false, true, .none, fun _ _ => .cflush⟩]

/-- The configuration and session commands, 0x4x (R120). -/
def sessionRows : List OpRow :=
  [⟨"CFGCH", 0x40, false, true, .val, fun _ n => .cfgch n⟩,
   ⟨"CFGRATE", 0x41, false, true, .val, fun _ n => .cfgrate n⟩,
   ⟨"CFGDUR", 0x42, false, true, .val, fun _ n => .cfgdur n⟩,
   ⟨"CFGMODE", 0x43, false, true, .val, fun _ n => .cfgmode n⟩,
   ⟨"CFGCMP", 0x44, false, true, .val, fun _ n => .cfgcmp n⟩,
   ⟨"START", 0x48, false, true, .none, fun _ _ => .start⟩,
   ⟨"STOP", 0x49, false, true, .none, fun _ _ => .stop⟩,
   ⟨"POP", 0x4A, false, true, .none, fun _ _ => .pop⟩,
   ⟨"SSTAT", 0x4B, false, true, .none, fun _ _ => .sstat⟩]

/-- The command table of R120. -/
def opcodeRows : List OpRow := producerRows ++ queueRows ++ compressorRows ++ sessionRows

/-- The row of an opcode, if it is one of the twenty. -/
def rowOf (op : Byte) : Option OpRow := opcodeRows.find? (fun r => r.op == op)

/-- Steps 1 to 3 of R121 at a port. Step 4, the range check of the `CFG*` operands, answers
`INVALID_CONFIGURATION` from within those commands (log entry 13). -/
def decode (port : Port) (w : Word) : Except DecodeError Instr :=
  match rowOf (opField w) with
  | none => .error .unknownOpcode
  | some r =>
    if r.legalAt port = false then .error .wrongPort
    else if r.operand.accepts (immField w) = false then .error .reservedOperandBits
    else .ok (r.build port (immField w))

/-- The opcode of a command (R120). -/
def Instr.opcode : Instr → Byte
  | .enq _ => 0x10
  | .push _ => 0x11
  | .final => 0x12
  | .deq => 0x20
  | .qempty _ => 0x21
  | .qfull _ => 0x22
  | .qovf _ => 0x23
  | .qclear => 0x24
  | .cinit => 0x30
  | .cbyte _ => 0x31
  | .cflush => 0x32
  | .cfgch _ => 0x40
  | .cfgrate _ => 0x41
  | .cfgdur _ => 0x42
  | .cfgmode _ => 0x43
  | .cfgcmp _ => 0x44
  | .start => 0x48
  | .stop => 0x49
  | .pop => 0x4A
  | .sstat => 0x4B

/-- The operand field of a command: 0, the byte zero-extended, or the value itself (R118). -/
def Instr.operand : Instr → Imm
  | .enq v => v.zeroExtend 24
  | .push v => v.zeroExtend 24
  | .cbyte v => v.zeroExtend 24
  | .cfgch n => n
  | .cfgrate n => n
  | .cfgdur n => n
  | .cfgmode n => n
  | .cfgcmp n => n
  | .final => 0
  | .deq => 0
  | .qempty _ => 0
  | .qfull _ => 0
  | .qovf _ => 0
  | .qclear => 0
  | .cinit => 0
  | .cflush => 0
  | .start => 0
  | .stop => 0
  | .pop => 0
  | .sstat => 0

/-- The port a command is issued at (R120). -/
def Instr.port : Instr → Port
  | .enq _ => .p
  | .push _ => .p
  | .final => .p
  | .qempty port => port
  | .qfull port => port
  | .qovf port => port
  | .deq => .c
  | .qclear => .c
  | .cinit => .c
  | .cbyte _ => .c
  | .cflush => .c
  | .cfgch _ => .c
  | .cfgrate _ => .c
  | .cfgdur _ => .c
  | .cfgmode _ => .c
  | .cfgcmp _ => .c
  | .start => .c
  | .stop => .c
  | .pop => .c
  | .sstat => .c

/-- The command word of a command: `(op << 24) | operand` (R118, R130). -/
def encode (i : Instr) : Word := commandWord i.opcode i.operand

/-- The port a lone word is presented at when nothing else says: P for the commands legal at P only, C otherwise
("for `QEMPTY`, `QFULL`, `QOVF` it defaults to `C`", R130; an unassigned opcode is illegal at both). -/
def defaultPort (w : Word) : Port :=
  match rowOf (opField w) with
  | some r => if r.atC then .c else .p
  | none => .c

/-- The low `nbits` bits of a number as a command word; every bit above them is 0. -/
def tableWord (nbits w : Nat) : Word := BitVec.ofNat 32 (w % 2 ^ nbits)

/-- What the decoder reads from a table word at its default port; `none` where it refuses. -/
def decodeTableWord (nbits w : Nat) : Option Instr :=
  match decode (defaultPort (tableWord nbits w)) (tableWord nbits w) with
  | .ok i => some i
  | .error _ => none

/-! ### Pseudo-instructions (R131) -/

/-- The pseudo-instructions of R131. -/
inductive Pseudo where
  | configure (cc rate dur mode cmp : Imm)
  | isOverflowed
  | pushSample (v : Byte)
  | popOutputByte
  | startSession
  | stopSession
deriving DecidableEq, Repr

/-- The expansion of a pseudo-instruction (R131). -/
def Pseudo.expand : Pseudo → List Instr
  | .configure cc rate dur mode cmp => [.cfgch cc, .cfgrate rate, .cfgdur dur, .cfgmode mode, .cfgcmp cmp]
  | .isOverflowed => [.qovf .c]
  | .pushSample v => [.push v]
  | .popOutputByte => [.pop]
  | .startSession => [.start]
  | .stopSession => [.stop]

end Sys2Proof
end

