-- ==== Sys2Proof/Machine/State.lean ====
section
/-! DEFINITION. The state of the block (spec/10_state.md R59), the model's own bookkeeping of the two agents, the
reasons a step can stop, and the power-on state (spec/70_reset_and_hazards.md R290). -/

namespace Sys2Proof.Machine

/-- The `cfg_mode` register: 0 = Continuous, 1 = TransitionOnly (R32). -/
inductive Mode where
  | continuous
  | transitionOnly
deriving DecidableEq, Repr

/-- The `session` register: Idle 0, Active 1, Draining 2; value 3 is never produced (R55). -/
inductive Session where
  | idle
  | active
  | draining
deriving DecidableEq, Repr

/-- The statuses of a response word (spec/60_exceptions.md R260). -/
inductive Status where
  | ok
  | queueOverflow
  | compressorInitFailure
  | invalidConfiguration
  | refused
  | illegalCommand
deriving DecidableEq, Repr

/-- A private memory of the block (spec/20_memory.md R70): elements of `w` bits by element index, strictly rising, no
entry equal to what an unlisted element reads as. At `w = 8` its entries are `Host.Cell`s. -/
abbrev Memory (w : Nat) := List (Nat × BitVec w)

/-- What an unlisted element of `buf` reads as (R33 leaves power-on contents unspecified: DESIGN CHOICE, unsafe, log
entry 5). -/
def bufUnlisted : Byte := 0

/-- What an unlisted element of `code_table` reads as (R48 leaves power-on contents unspecified: DESIGN CHOICE,
unsafe, log entry 6). An unlisted element of `hash_table` reads as `EMPTY` of the parameters. -/
def codeUnlisted : Code := 0

/-- The state: the registers and memories of R59 under the spec's names, then the model's own bookkeeping. -/
structure State where
  -- configuration registers (R32)
  cfgChannelCount : BitVec 4
  cfgSampleRateHz : BitVec 24
  cfgSessionDurationMs : BitVec 17
  cfgCompressionEnabled : Bool
  cfgMode : Mode
  -- Sample Queue (R33 to R37)
  buf : Memory 8
  head : BitVec 12
  tail : BitVec 12
  count : BitVec 13
  overflow : Bool
  -- Sample Encoder (R40 to R45)
  stackedBits : BitVec 8
  stackFill : BitVec 4
  stackMask : BitVec 8
  firstSample : Bool
  previousSample : BitVec 8
  interruptCount : BitVec 32
  -- Stream Compressor (R47 to R54)
  hashTable : Memory 32
  codeTable : Memory 16
  freeEntry : BitVec 16
  currentPhraseCode : BitVec 16
  outByte : BitVec 8
  outBits : BitVec 3
  firstByte : Bool
  cmpReady : Bool
  -- session glue (R55, R58)
  session : Session
  sink : List Byte
  -- the model's own: bytes of the P command in progress still to be enqueued (R81, log entry 3)
  pPending : List Byte
  -- the model's own: command words each agent has still to issue, in program order (R6, R31, log entry 1)
  pCmds : List Word
  cCmds : List Word
  -- the model's own: response words returned at each port, oldest first (R119, log entry 1)
  pResponses : List RespWord
  cResponses : List RespWord
  -- the model's own: whose agent moves next, then next after that, and so on (R80, log entry 2)
  turns : List Port
  -- the model's own: a producer-quiescent command met a P command in progress (R300, log entry 7)
  producerRaced : Bool
deriving DecidableEq, Repr

/-- The conditions in which the block has no next state. Both are faults of the model, not statuses of the block;
neither can occur in a state that meets the compressor's invariants, for parameters that meet R8. -/
inductive Fault where
  /-- Raised by the probe of `CBYTE` and `POP` when every slot has been seen without a hit or an empty slot (spec/42_compressor.md
  R195, R204; spec/60_exceptions.md R266). Safe: the spec itself asks for this stop. -/
  | probeExhausted
  /-- Raised by the probe of `CBYTE` and `POP` when the first index lies outside the table, an element that does not exist
  (spec/20_memory.md R72 says no index leaves its range; log entry 10). Safe: no next state. -/
  | tableIndexOutOfRange
deriving DecidableEq, Repr

/-- The reasons to refuse an instruction: only that it has no meaning in this model yet. -/
inductive Refusal where
  /-- Raised by an arm of `exec` for an instruction without a meaning; no arm does so in this model. Safe. -/
  | notModelled (mnemonic : String)
deriving DecidableEq, Repr

/-- Power-on reset (R290). The registers R290 gives a value hold it; those it leaves unspecified hold the values of
log entries 4 to 6 (DESIGN CHOICE, unsafe: `PowerOn` of Safety.lean leaves them free instead). No command is waiting
at either port (log entry 14). -/
def State.reset : State where
  cfgChannelCount := 0
  cfgSampleRateHz := 0
  cfgSessionDurationMs := 0
  cfgCompressionEnabled := false
  cfgMode := .continuous
  buf := []
  head := 0
  tail := 0
  count := 0
  overflow := false
  stackedBits := 0
  stackFill := 0
  stackMask := 0
  firstSample := true
  previousSample := 0
  interruptCount := 0
  hashTable := []
  codeTable := []
  freeEntry := 0
  currentPhraseCode := 0
  outByte := 0
  outBits := 0
  firstByte := false
  cmpReady := false
  session := .idle
  sink := []
  pPending := []
  pCmds := []
  cCmds := []
  pResponses := []
  cResponses := []
  turns := []
  producerRaced := false

end Sys2Proof.Machine
end

