-- ==== Sys2Proof/Machine/Flags.lean ====
section
/-! DEFINITION. Statuses and response words (spec/30_encoding.md R119), the occupancy predicates, which are computed
from `count` and are no stored flags (spec/10_state.md R56), and the stacking mask (R42). -/

namespace Sys2Proof.Machine

/-- The number of a status (R119, R260). -/
def Status.code : Status → BitVec 4
  | .ok => 0
  | .queueOverflow => 1
  | .compressorInitFailure => 2
  | .invalidConfiguration => 3
  | .refused => 4
  | .illegalCommand => 15

/-- The response word: `status[15:12]`, zeros in 11:9, `some[8]`, `data[7:0]`, and `data` = 0 when `some` = 0 (R119). -/
def responseWord (st : Status) : Option Byte → RespWord
  | none => st.code ++ (0 : BitVec 12)
  | some v => st.code ++ (0 : BitVec 3) ++ (1 : BitVec 1) ++ v

/-- `Ok` = 0x0000 (R119). -/
def respOk : RespWord := responseWord .ok none

/-- `None` = 0x0000 (R119). -/
def respNone : RespWord := responseWord .ok none

/-- `Some(v)` = 0x0100 | `v` (R119). -/
def respSome (v : Byte) : RespWord := responseWord .ok (some v)

/-- `true` = 0x0101, `false` = 0x0100 (R119). -/
def respBool (b : Bool) : RespWord := respSome (if b then 1 else 0)

/-- An error alone: its code in bits 15:12 (R119). -/
def respError (st : Status) : RespWord := responseWord st none

/-- The number of a session state (R55, R236). -/
def Session.code : Session → Byte
  | .idle => 0
  | .active => 1
  | .draining => 2

/-- `is_empty()`: `count` = 0 (spec/40_queue.md R142). -/
def isEmpty (s : State) : Bool := s.count == 0

/-- `is_full()`: `count` = `QSIZE` (R143). -/
def isFull (P : Params) (s : State) : Bool := s.count.toNat == P.qsize

/-- The stacking mask of a channel count: `(1 << cc) - 1` up to the stacking limit, else the full byte (R42, R141). -/
def stackMaskOf (P : Params) (cc : BitVec 4) : Byte :=
  if cc.toNat ≤ P.stackLimit then (1 : Byte) <<< cc.toNat - 1 else 0xFF

end Sys2Proof.Machine
end

