-- ==== Sys2Proof/Machine/Operands.lean ====
section
/-! DEFINITION. The operand forms: the ranges of the configuration operands (spec/30_encoding.md R122) and their
register values (spec/43_session.md R230), the records of the sample stream (R104, R105), and the compressor's codes,
keys and hash indices (spec/42_compressor.md R194). -/

namespace Sys2Proof.Machine

/-- An operand in the closed range `lo`..`hi`. -/
def inRange (lo hi : Nat) (n : Imm) : Bool := decide (lo ≤ n.toNat) && decide (n.toNat ≤ hi)

/-- Legal operands of `CFGCH` (R122, R231). -/
def channelCountLegal (P : Params) (n : Imm) : Bool := inRange P.chMin P.chMax n

/-- Legal operands of `CFGRATE` (R122, R237). -/
def sampleRateLegal (P : Params) (n : Imm) : Bool := inRange P.rateMin P.rateMax n

/-- Legal operands of `CFGDUR` (R122, R238). -/
def durationLegal (P : Params) (n : Imm) : Bool := inRange P.durMin P.durMax n

/-- Legal operands of `CFGMODE` and `CFGCMP`: 0 or 1 (R122, R239, R240). -/
def oneBitLegal (n : Imm) : Bool := inRange 0 1 n

/-- The value `CFGMODE` writes: 0 = Continuous, 1 = TransitionOnly (R32, R239). -/
def modeOf (n : Imm) : Mode := if n.getLsbD 0 then .transitionOnly else .continuous

/-- The value `CFGCMP` writes: 0 = off, 1 = on (R240). -/
def enableOf (n : Imm) : Bool := n.getLsbD 0

/-- The sample record, little-endian (R104, R73): marker, `interrupt_count[7:0]`, `interrupt_count[15:8]`, sample. -/
def sampleRecord (P : Params) (ic : BitVec 32) (raw : Byte) : List Byte :=
  [P.markSample, byteAt ic 0, byteAt ic 8, raw]

/-- The rollover record (R105, R73): marker, `interrupt_count[23:16]`, `interrupt_count[31:24]`, zero pad. -/
def rolloverRecord (P : Params) (ic : BitVec 32) : List Byte :=
  [P.markRollover, byteAt ic 16, byteAt ic 24, 0]

/-- The literal code of a byte, `zext_16(b)` (spec/42_compressor.md R191, R196). -/
def literalCode (b : Byte) : Code := b.zeroExtend 16

/-- `Key(code, b)` = `(zext_32(code) << 16) | zext_32(b)` (R194, R110). -/
def phraseKey (code : Code) (b : Byte) : Key := (code.zeroExtend 32 <<< 16) ||| b.zeroExtend 32

/-- `Hash(code, b)` = `(zext_16(b) << HSHIFT) ^ code` (R194, R110). -/
def phraseHash (P : Params) (code : Code) (b : Byte) : Nat :=
  ((b.zeroExtend 16 <<< P.hshift) ^^^ code : BitVec 16).toNat

/-- The displacement of the probe, computed once from the first index (R195). -/
def probeStride (P : Params) (index : Nat) : Nat := if index = 0 then 1 else P.hashSize - index

/-- `(index − d) mod HASH_SIZE` (spec/20_memory.md R72). -/
def probeBack (P : Params) (index d : Nat) : Nat := (index + P.hashSize - d) % P.hashSize

end Sys2Proof.Machine
end

