-- ==== Sys2Proof/Machine/Ops.lean ====
section
/-! DEFINITION. The shared operations: the memories, responses and errors, `Enq`, `Deq`, `Emit`, and the bookkeeping
of the two ports. -/

namespace Sys2Proof.Machine

/-! ### Memories (spec/00_scope.md R10, spec/20_memory.md R70) -/

/-- `MemRead`: the element at an index; an unlisted element reads as `d`. -/
def Memory.read {w : Nat} (d : BitVec w) : Memory w → Nat → BitVec w
  | [], _ => d
  | (k, x) :: m, a => if a = k then x else Memory.read d m a

/-- Take every entry at an index out of the list. -/
def Memory.erase {w : Nat} (m : Memory w) (a : Nat) : Memory w := m.filter (fun c => c.1 != a)

/-- Put an entry at its place in the rising order, over an older one at that index. -/
def Memory.insert {w : Nat} : Memory w → Nat → BitVec w → Memory w
  | [], a, v => [(a, v)]
  | (k, x) :: m, a, v =>
    if a < k then (a, v) :: (k, x) :: m
    else if a = k then (a, v) :: m
    else (k, x) :: Memory.insert m a v

/-- `MemWrite`: writing what an unlisted element reads as takes the entry out of the list. -/
def Memory.write {w : Nat} (d : BitVec w) (m : Memory w) (a : Nat) (v : BitVec w) : Memory w :=
  if v = d then Memory.erase m a else Memory.insert m a v

/-- The canonical form: indices strictly rising and below the size, no entry equal to what an unlisted element reads as. -/
abbrev Memory.wf {w : Nat} (d : BitVec w) (size : Nat) (m : Memory w) : Prop :=
  (m.map Prod.fst).Pairwise (· < ·) ∧ ∀ c ∈ m, c.1 < size ∧ c.2 ≠ d

/-! ### Responses and errors -/

/-- Return a response word at a port (R119). -/
def respond (port : Port) (r : RespWord) (s : State) : State :=
  match port with
  | .p => { s with pResponses := s.pResponses ++ [r] }
  | .c => { s with cResponses := s.cResponses ++ [r] }

/-- `raise E`: no trap, the command ends with the status of the error as its response (R11, spec/60_exceptions.md R271). -/
def raiseError (port : Port) (e : Status) (s : State) : State := respond port (respError e) s

/-- Every decoding error is answered `ILLEGAL_COMMAND` (spec/30_encoding.md R121). -/
def decodeErrorStatus : DecodeError → Status
  | .unknownOpcode => .illegalCommand
  | .wrongPort => .illegalCommand
  | .reservedOperandBits => .illegalCommand

/-- Run a step on the state another one leaves; a fault or a refusal ends it. -/
def andThen (o : Host.Outcome State Fault Refusal) (f : State → Host.Outcome State Fault Refusal) :
    Host.Outcome State Fault Refusal :=
  match o with
  | .next s => f s
  | .fault r => .fault r
  | .refused r => .refused r

/-! ### The Sample Queue (spec/40_queue.md) -/

/-- `(x + 1) mod QSIZE`, the advance of `head` and `tail` (R72). -/
def advance (P : Params) (x : BitVec 12) : BitVec 12 := BitVec.ofNat 12 ((x.toNat + 1) % P.qsize)

/-- `Enq(v)`, one atomic step (R145): its result and the state it leaves. -/
def enq (P : Params) (v : Byte) (s : State) : Status × State :=
  if isFull P s then (.queueOverflow, { s with overflow := true })
  else (.ok, { s with
    buf := s.buf.write bufUnlisted s.tail.toNat v
    tail := advance P s.tail
    count := s.count + 1 })

/-- `Enq` of each byte in order, every result ignored (spec/41_encoder.md R166, R167). -/
def enqAll (P : Params) : List Byte → State → State
  | [], s => s
  | v :: vs, s => enqAll P vs (enq P v s).2

/-- `Deq()`, one atomic step (R146): its result and the state it leaves. -/
def deq (P : Params) (s : State) : Option Byte × State :=
  if isEmpty s then (none, s)
  else (some (s.buf.read bufUnlisted s.head.toNat), { s with
    head := advance P s.head
    count := s.count - 1 })

/-- The steps of `QCLEAR`, the session-start reset (R141, spec/70_reset_and_hazards.md R291). -/
def clearQueue (P : Params) (s : State) : State :=
  { s with
    head := 0
    tail := 0
    count := 0
    overflow := false
    stackedBits := 0
    stackFill := 0
    firstSample := true
    previousSample := 0
    interruptCount := 0
    stackMask := stackMaskOf P s.cfgChannelCount }

/-- `Emit(v)`: append to the `sink` (R11, R58). -/
def emit (v : Byte) (s : State) : State := { s with sink := s.sink ++ [v] }

/-! ### The ports' bookkeeping -/

/-- Begin the `Enq` steps of a composite P command: with no byte the command has returned `Ok`, else the bytes wait
for the producer's next steps (spec/20_memory.md R81). -/
def beginEnqueues (out : List Byte) (s : State) : State :=
  match out with
  | [] => respond .p respOk s
  | v :: vs => { s with pPending := v :: vs }

/-- One `Enq` step of the composite P command in progress, `v` its next byte and `vs` those after it: the result is
ignored, and the command returns `Ok` after the last byte (R81, spec/41_encoder.md R166). -/
def continueProducer (P : Params) (v : Byte) (vs : List Byte) (s : State) : State :=
  let t := { (enq P v s).2 with pPending := vs }
  if vs.isEmpty then respond .p respOk t else t

/-- The commands that need the producer quiescent (spec/70_reset_and_hazards.md R300). -/
def needsQuiescentProducer : Instr → Bool
  | .qclear => true
  | .start => true
  | .stop => true
  | .cfgch _ => true
  | .cfgrate _ => true
  | .cfgdur _ => true
  | .cfgmode _ => true
  | .cfgcmp _ => true
  | .enq _ => false
  | .push _ => false
  | .final => false
  | .deq => false
  | .qempty _ => false
  | .qfull _ => false
  | .qovf _ => false
  | .cinit => false
  | .cbyte _ => false
  | .cflush => false
  | .pop => false
  | .sstat => false

/-- Note that a command which needs the producer quiescent is issued while a P command is in progress: the run is then
no run of the block (R300, spec/93_implementation_defined.md U2; log entry 7). -/
def noteIssue (i : Instr) (s : State) : State :=
  if needsQuiescentProducer i && !s.pPending.isEmpty then { s with producerRaced := true } else s

end Sys2Proof.Machine
end

