-- ==== Sys2Proof/Machine/Compressor.lean ====
section
/-! DEFINITION. The Stream Compressor and its three commands (spec/42_compressor.md). -/

namespace Sys2Proof.Machine

/-- `TableReset()` (R193): every slot `EMPTY`, `free_entry` = `FIRST_FREE`; `code_table` is not written. -/
def tableReset (P : Params) (s : State) : State :=
  { s with hashTable := [], freeEntry := BitVec.ofNat 16 P.firstFree }

/-- The answer of the probe (R195). -/
inductive LookupResult where
  | hit (c : Code)
  | miss (slot : Nat)
  | fault (f : Fault)
deriving DecidableEq, Repr

/-- Look at one slot: the key is a hit with the slot's code, `EMPTY` is a miss, any other key is no answer yet (R195). -/
def checkSlot (P : Params) (s : State) (key : Key) (index : Nat) : Option LookupResult :=
  if s.hashTable.read P.empty index = key then some (.hit (s.codeTable.read codeUnlisted index))
  else if s.hashTable.read P.empty index = P.empty then some (.miss index)
  else none

/-- The probe loop of R195 with a fixed displacement `d`: step back and look, at most `fuel` times. -/
def probe (P : Params) (s : State) (key : Key) (d : Nat) : Nat → Nat → LookupResult
  | 0, _ => .fault .probeExhausted
  | fuel + 1, index =>
    match checkSlot P s key (probeBack P index d) with
    | some r => r
    | none => probe P s key d fuel (probeBack P index d)

/-- `Lookup(code, b)` (R195): the slot of the hash index, then the probe over the other `HASH_SIZE` − 1 slots. -/
def lookup (P : Params) (s : State) (code : Code) (b : Byte) : LookupResult :=
  if P.hashSize ≤ phraseHash P code b then .fault .tableIndexOutOfRange
  else
    match checkSlot P s (phraseKey code b) (phraseHash P code b) with
    | some r => r
    | none =>
      probe P s (phraseKey code b) (probeStride P (phraseHash P code b)) (P.hashSize - 1) (phraseHash P code b)

/-- One bit into the packer, highest free bit first; a full byte is emitted (R197). -/
def putBit (bit : Bool) (s : State) : State :=
  let o := s.outByte ||| ((if bit then (1 : Byte) else 0) <<< (7 - s.outBits.toNat))
  if s.outBits.toNat + 1 = 8 then emit o { s with outByte := 0, outBits := 0 }
  else { s with outByte := o, outBits := s.outBits + 1 }

/-- The low `n` bits of a code, most significant first (R197). -/
def putBits (c : Code) : Nat → State → State
  | 0, s => s
  | n + 1, s => putBits c n (putBit (c.getLsbD n) s)

/-- `PutCode(c)` (R197): the `NBITS` bits of the code. -/
def putCode (P : Params) (c : Code) (s : State) : State := putBits c P.nbits s

/-- The steps of a successful `CINIT` (R192). -/
def initCompressor (P : Params) (s : State) : State :=
  { tableReset P s with
    currentPhraseCode := 0
    outByte := 0
    outBits := 0
    firstByte := true
    cmpReady := true }

/-- Learn the phrase (`old`, `b`) at an empty slot with the next free code (R196). -/
def learnPhrase (P : Params) (old : Code) (b : Byte) (slot : Nat) (s : State) : State :=
  { s with
    hashTable := s.hashTable.write P.empty slot (phraseKey old b)
    codeTable := s.codeTable.write codeUnlisted slot s.freeEntry
    freeEntry := s.freeEntry + 1 }

/-- Source step 5, a miss (R196): emit the pending code and restart from `b`; learn the phrase, or with the code space
exhausted emit `CLEAR_CODE` and reset the table. -/
def missPhrase (P : Params) (b : Byte) (slot : Nat) (s : State) : State :=
  let t := { putCode P s.currentPhraseCode s with currentPhraseCode := literalCode b }
  if t.freeEntry.toNat < P.maxCode then learnPhrase P s.currentPhraseCode b slot t
  else tableReset P (putCode P (BitVec.ofNat 16 P.clearCode) t)

/-- The steps of `CBYTE b` on an initialised compressor (R196). -/
def compressByte (P : Params) (b : Byte) (s : State) : Host.Outcome State Fault Refusal :=
  if s.firstByte then .next { s with currentPhraseCode := literalCode b, firstByte := false }
  else
    match lookup P s s.currentPhraseCode b with
    | .hit c => .next { s with currentPhraseCode := c }
    | .miss slot => .next (missPhrase P b slot s)
    | .fault f => .fault f

/-- Complete a partial byte with zero padding (R198). -/
def padByte (s : State) : State :=
  if s.outBits = 0 then s else emit s.outByte { s with outByte := 0, outBits := 0 }

/-- The steps of `CFLUSH` on an initialised compressor (R198). -/
def flushCompressor (P : Params) (s : State) : State :=
  let t := if s.firstByte then s else putCode P s.currentPhraseCode s
  { padByte (putCode P (BitVec.ofNat 16 P.eosCode) t) with cmpReady := false }

/-- `CINIT` (R192). -/
def runCinit (P : Params) (s : State) : Host.Outcome State Fault Refusal :=
  if P.cmpInitOk then .next (respond .c respOk (initCompressor P s))
  else .next (raiseError .c .compressorInitFailure { s with cmpReady := false })

def execCinit (s : State) : Host.Outcome State Fault Refusal := runCinit reference s

/-- `CBYTE b` (R196). -/
def runCbyte (P : Params) (b : Byte) (s : State) : Host.Outcome State Fault Refusal :=
  if s.cmpReady then andThen (compressByte P b s) (fun t => .next (respond .c respOk t))
  else .next (raiseError .c .refused s)

def execCbyte (b : Byte) (s : State) : Host.Outcome State Fault Refusal := runCbyte reference b s

/-- `CFLUSH` (R198). -/
def runCflush (P : Params) (s : State) : Host.Outcome State Fault Refusal :=
  if s.cmpReady then .next (respond .c respOk (flushCompressor P s))
  else .next (raiseError .c .refused s)

def execCflush (s : State) : Host.Outcome State Fault Refusal := runCflush reference s

end Sys2Proof.Machine
end

