-- ==== Sys2Proof/Machine/Encoder.lean ====
section
/-! DEFINITION. The Sample Encoder and its two commands (spec/41_encoder.md). -/

namespace Sys2Proof.Machine

/-- `Stack(raw)` (R163): OR the masked sample into the accumulator at the fill offset; at 8 or more, emit and zero. -/
def stackSample (raw : Byte) (s : State) : List Byte × State :=
  let bits := s.stackedBits ||| ((raw &&& s.stackMask) <<< s.stackFill.toNat)
  let fill := s.stackFill + s.cfgChannelCount
  if 8 ≤ fill.toNat then ([bits], { s with stackedBits := 0, stackFill := 0 })
  else ([], { s with stackedBits := bits, stackFill := fill })

/-- A rollover is due: the low 16 bits of `interrupt_count` are 0, that is, it is a multiple of `ROLLOVER_PERIOD` (R165). -/
def rolloverDue (P : Params) (s : State) : Bool := s.interruptCount.toNat % P.rolloverPeriod == 0

/-- The sample must be recorded: it is the first, or differs from the last recorded one (R165). -/
def sampleDue (raw : Byte) (s : State) : Bool := s.firstSample || raw != s.previousSample

/-- `Transition(raw)` (R165): the rollover record first and whether or not the sample is suppressed, then the sample
record if one is due. -/
def transitionSample (P : Params) (raw : Byte) (s : State) : List Byte × State :=
  let rollover := if rolloverDue P s then rolloverRecord P s.interruptCount else []
  if sampleDue raw s then
    (rollover ++ sampleRecord P s.interruptCount raw, { s with previousSample := raw, firstSample := false })
  else (rollover, s)

/-- `interrupt_count + 1` modulo 2^`IC_WIDTH` (R162, R45). -/
def countInterrupt (P : Params) (s : State) : State :=
  { s with interruptCount := BitVec.ofNat 32 ((s.interruptCount.toNat + 1) % 2 ^ P.icWidth) }

/-- `EncStep(raw)` (R162): count the interrupt, then the rule of the current mode; the bytes to enqueue and the state
left, the queue untouched. -/
def encStep (P : Params) (raw : Byte) (s : State) : List Byte × State :=
  let t := countInterrupt P s
  match t.cfgMode with
  | .continuous => if t.cfgChannelCount.toNat ≤ P.stackLimit then stackSample raw t else ([raw], t)
  | .transitionOnly => transitionSample P raw t

/-- `PUSH raw` (R166): one `EncStep`; its `Enq` steps are the producer's next steps. -/
def runPush (P : Params) (raw : Byte) (s : State) : Host.Outcome State Fault Refusal :=
  .next (beginEnqueues (encStep P raw s).1 (encStep P raw s).2)

def execPush (raw : Byte) (s : State) : Host.Outcome State Fault Refusal := runPush reference raw s

/-- The synthetic final sample: 0xFF after an all-zero last sample, 0x00 after anything else, unmasked (R170). -/
def finalSample (s : State) : Byte := if s.previousSample = 0 then 0xFF else 0

/-- The encoder's part of `FINAL` (R170): it acts in transition-only mode alone. -/
def finalStep (P : Params) (s : State) : List Byte × State :=
  match s.cfgMode with
  | .continuous => ([], s)
  | .transitionOnly => encStep P (finalSample s) s

/-- `FINAL` at port P (R170): its `Enq` steps are the producer's next steps. -/
def runFinal (P : Params) (s : State) : Host.Outcome State Fault Refusal :=
  .next (beginEnqueues (finalStep P s).1 (finalStep P s).2)

def execFinal (s : State) : Host.Outcome State Fault Refusal := runFinal reference s

end Sys2Proof.Machine
end

