-- ==== Sys2Proof/Machine/Queue.lean ====
section
/-! DEFINITION. The six queue commands (spec/40_queue.md). -/

namespace Sys2Proof.Machine

/-- `ENQ v` (R145): the `Enq` step, answering `Ok` or `QUEUE_OVERFLOW`. -/
def runEnq (P : Params) (v : Byte) (s : State) : Host.Outcome State Fault Refusal :=
  match enq P v s with
  | (.ok, t) => .next (respond .p respOk t)
  | (e, t) => .next (raiseError .p e t)

def execEnq (v : Byte) (s : State) : Host.Outcome State Fault Refusal := runEnq reference v s

/-- `DEQ` (R146): the `Deq` step, answering `Some(v)` or `None`. -/
def runDeq (P : Params) (s : State) : Host.Outcome State Fault Refusal :=
  match deq P s with
  | (some v, t) => .next (respond .c (respSome v) t)
  | (none, t) => .next (respond .c respNone t)

def execDeq (s : State) : Host.Outcome State Fault Refusal := runDeq reference s

/-- `QEMPTY` (R142): `return (count == 0)` at the port it is issued at. -/
def execQempty (port : Port) (s : State) : Host.Outcome State Fault Refusal :=
  .next (respond port (respBool (isEmpty s)) s)

/-- `QFULL` (R143): `return (count == QSIZE)`. -/
def execQfull (port : Port) (s : State) : Host.Outcome State Fault Refusal :=
  .next (respond port (respBool (isFull reference s)) s)

/-- `QOVF` (R144): `return (overflow == 1)`; reading does not clear the flag. -/
def execQovf (port : Port) (s : State) : Host.Outcome State Fault Refusal :=
  .next (respond port (respBool s.overflow) s)

/-- `QCLEAR` (R141). -/
def runQclear (P : Params) (s : State) : Host.Outcome State Fault Refusal :=
  .next (respond .c respOk (clearQueue P s))

def execQclear (s : State) : Host.Outcome State Fault Refusal := runQclear reference s

end Sys2Proof.Machine
end

