-- ==== Sys2Proof/Machine/Session.lean ====
section
/-! DEFINITION. The configuration and session commands (spec/43_session.md). -/

namespace Sys2Proof.Machine

/-- The common behaviour of the five `CFG*` commands (R230): `INVALID_CONFIGURATION` before `REFUSED`
(spec/60_exceptions.md R262), neither changing any state; else the register write `t`. -/
def configure (legal : Bool) (t s : State) : Host.Outcome State Fault Refusal :=
  if legal = false then .next (raiseError .c .invalidConfiguration s)
  else if s.session = .idle then .next (respond .c respOk t)
  else .next (raiseError .c .refused s)

/-- `CFGCH n` (R231). -/
def execCfgch (n : Imm) (s : State) : Host.Outcome State Fault Refusal :=
  configure (channelCountLegal reference n) { s with cfgChannelCount := n.setWidth 4 } s

/-- `CFGRATE n` (R237). -/
def execCfgrate (n : Imm) (s : State) : Host.Outcome State Fault Refusal :=
  configure (sampleRateLegal reference n) { s with cfgSampleRateHz := n } s

/-- `CFGDUR n` (R238). -/
def execCfgdur (n : Imm) (s : State) : Host.Outcome State Fault Refusal :=
  configure (durationLegal reference n) { s with cfgSessionDurationMs := n.setWidth 17 } s

/-- `CFGMODE m` (R239). -/
def execCfgmode (n : Imm) (s : State) : Host.Outcome State Fault Refusal :=
  configure (oneBitLegal n) { s with cfgMode := modeOf n } s

/-- `CFGCMP e` (R240). -/
def execCfgcmp (n : Imm) (s : State) : Host.Outcome State Fault Refusal :=
  configure (oneBitLegal n) { s with cfgCompressionEnabled := enableOf n } s

/-- The steps of `START` in `Idle` (R232): all of `QCLEAR`, `sink` emptied, and with compression on all of `CINIT`,
whose failure leaves the session `Idle`. -/
def startSession (P : Params) (s : State) : State :=
  let t := { clearQueue P s with sink := [] }
  if s.cfgCompressionEnabled then
    if P.cmpInitOk then respond .c respOk { initCompressor P t with session := .active }
    else raiseError .c .compressorInitFailure { t with cmpReady := false }
  else respond .c respOk { t with cmpReady := false, session := .active }

/-- `START` (R232). -/
def runStart (P : Params) (s : State) : Host.Outcome State Fault Refusal :=
  if s.session = .idle then .next (startSession P s) else .next (raiseError .c .refused s)

def execStart (s : State) : Host.Outcome State Fault Refusal := runStart reference s

/-- `STOP` (R233): `Draining`, then all the steps of `FINAL` within this one step; the results of its `Enq`s are ignored. -/
def runStop (P : Params) (s : State) : Host.Outcome State Fault Refusal :=
  if s.session = .active then
    let f := finalStep P { s with session := .draining }
    .next (respond .c respOk (enqAll P f.1 f.2))
  else .next (raiseError .c .refused s)

def execStop (s : State) : Host.Outcome State Fault Refusal := runStop reference s

/-- `POP` with compression off (R235): the queue is the output; an empty queue closes a draining session. -/
def popQueue (P : Params) (s : State) : State :=
  match deq P s with
  | (some v, t) => respond .c (respSome v) t
  | (none, t) => respond .c respNone (if t.session = .draining then { t with session := .idle } else t)

/-- The refill of `POP` with compression on (R235): an empty `sink` of a running compressor takes one queue byte
through the steps of `CBYTE`, or, with the queue empty and sampling over, the steps of `CFLUSH`. -/
def refillSink (P : Params) (s : State) : Host.Outcome State Fault Refusal :=
  if s.sink.isEmpty && s.cmpReady then
    match deq P s with
    | (some v, t) => compressByte P v t
    | (none, t) => .next (if t.session = .draining then flushCompressor P t else t)
  else .next s

/-- The delivery of `POP` with compression on (R235): the front of `sink`, or `None`, which closes a draining session
whose compressor has been flushed. -/
def deliverSink (s : State) : State :=
  match s.sink with
  | v :: rest => respond .c (respSome v) { s with sink := rest }
  | [] =>
    respond .c respNone
      (if s.session = .draining ∧ s.cmpReady = false then { s with session := .idle } else s)

/-- `POP` (R235). -/
def runPop (P : Params) (s : State) : Host.Outcome State Fault Refusal :=
  if s.cfgCompressionEnabled then andThen (refillSink P s) (fun t => .next (deliverSink t))
  else .next (popQueue P s)

def execPop (s : State) : Host.Outcome State Fault Refusal := runPop reference s

/-- `SSTAT` (R236): `return Some(session)`. -/
def execSstat (s : State) : Host.Outcome State Fault Refusal :=
  .next (respond .c (respSome s.session.code) s)

end Sys2Proof.Machine
end

