-- ==== Sys2Proof/Machine/Dispatch.lean ====
section
/-! DEFINITION. One arm for each command of spec/30_encoding.md R120. -/

namespace Sys2Proof.Machine

def exec (i : Instr) (s : State) : Host.Outcome State Fault Refusal :=
  match i with
  | .enq v => Sys2Proof.Machine.execEnq v s
  | .push raw => Sys2Proof.Machine.execPush raw s
  | .final => Sys2Proof.Machine.execFinal s
  | .deq => Sys2Proof.Machine.execDeq s
  | .qempty port => Sys2Proof.Machine.execQempty port s
  | .qfull port => Sys2Proof.Machine.execQfull port s
  | .qovf port => Sys2Proof.Machine.execQovf port s
  | .qclear => Sys2Proof.Machine.execQclear s
  | .cinit => Sys2Proof.Machine.execCinit s
  | .cbyte b => Sys2Proof.Machine.execCbyte b s
  | .cflush => Sys2Proof.Machine.execCflush s
  | .cfgch n => Sys2Proof.Machine.execCfgch n s
  | .cfgrate n => Sys2Proof.Machine.execCfgrate n s
  | .cfgdur n => Sys2Proof.Machine.execCfgdur n s
  | .cfgmode n => Sys2Proof.Machine.execCfgmode n s
  | .cfgcmp n => Sys2Proof.Machine.execCfgcmp n s
  | .start => Sys2Proof.Machine.execStart s
  | .stop => Sys2Proof.Machine.execStop s
  | .pop => Sys2Proof.Machine.execPop s
  | .sstat => Sys2Proof.Machine.execSstat s

end Sys2Proof.Machine
end

