-- ==== Sys2Proof/Machine/Step.lean ====
section
/-! DEFINITION. One step of the machine: the agent whose turn it is makes its next atomic step (spec/20_memory.md R80). -/

namespace Sys2Proof.Machine

/-- A command word arrives at a port (spec/30_encoding.md R121): it is decoded and executed, or answered with its
error and nothing else changes. -/
def issue (port : Port) (w : Word) (s : State) : Host.Outcome State Fault Refusal :=
  match decode port w with
  | .ok i => exec i (noteIssue i s)
  | .error e => .next (raiseError port (decodeErrorStatus e) s)

/-- The consumer's step: its next command, one atomic step (R80 (d)); with none waiting the block holds its state
(spec/60_exceptions.md R280). -/
def stepC (s : State) : Host.Outcome State Fault Refusal :=
  match s.cCmds with
  | [] => .next s
  | w :: ws => issue .c w { s with cCmds := ws }

/-- The producer's step: the next `Enq` of its command in progress (R81), else its next command. -/
def stepP (s : State) : Host.Outcome State Fault Refusal :=
  match s.pPending with
  | v :: vs => .next (continueProducer reference v vs s)
  | [] =>
    match s.pCmds with
    | [] => .next s
    | w :: ws => issue .p w { s with pCmds := ws }

/-- The step of the agent whose turn it is. -/
def stepAt : Port → State → Host.Outcome State Fault Refusal
  | .p, s => stepP s
  | .c, s => stepC s

/-- One step: the first of `turns` moves; with no turn left the block holds its state (R280). -/
def step (s : State) : Host.Outcome State Fault Refusal :=
  match s.turns with
  | [] => .next s
  | port :: rest => stepAt port { s with turns := rest }

/-- Present a command word so that the very next step runs it: it is the next word of its port's agent, that agent
has the next turn, and a word at port P finds no P command in progress (log entry 14). -/
def State.withFetchWord (s : State) (nbits w : Nat) : State :=
  match defaultPort (tableWord nbits w) with
  | .p => { s with pCmds := tableWord nbits w :: s.pCmds, turns := .p :: s.turns, pPending := [] }
  | .c => { s with cCmds := tableWord nbits w :: s.cCmds, turns := .c :: s.turns }

end Sys2Proof.Machine
end

