-- ==== Sys2Proof/Machine/Assembler.lean ====
section
/-! DEFINITION. The assembler syntax of spec/30_encoding.md R130 and the pseudo-instructions of R131 as text: a
listing becomes the command words of each port, in order. Nothing of the block depends on it (log entry 16). -/

namespace Sys2Proof.Machine

/-- A line of text. -/
abbrev Chars := List Char

/-- The value of a digit in base 10 or 16. -/
def digitValue (base : Nat) (c : Char) : Option Nat :=
  let v := if '0' ≤ c ∧ c ≤ '9' then c.toNat - '0'.toNat
    else if 'a' ≤ c ∧ c ≤ 'f' then c.toNat - 'a'.toNat + 10
    else if 'A' ≤ c ∧ c ≤ 'F' then c.toNat - 'A'.toNat + 10
    else 16
  if v < base then some v else none

/-- The number a run of digits stands for. -/
def readDigits (base : Nat) : Nat → Chars → Option Nat
  | acc, [] => some acc
  | acc, c :: cs =>
    match digitValue base c with
    | some v => readDigits base (acc * base + v) cs
    | none => none

/-- A decimal or `0x` hexadecimal number (R130). -/
def readNumber : Chars → Option Nat
  | '0' :: 'x' :: c :: cs => readDigits 16 0 (c :: cs)
  | c :: cs => readDigits 10 0 (c :: cs)
  | [] => none

/-- A number, or `\i`, the repeat index within `.rept` (R130). -/
def readValue (index : Option Nat) (tok : Chars) : Option Nat :=
  if tok = "\\i".toList then index else readNumber tok

/-- An operand: a value, or `value & value` as the listings of spec/95_test_vectors.md T10 use it. -/
def readOperand (index : Option Nat) : List Chars → Option Nat
  | [a] => readValue index a
  | [a, op, b] =>
    match readValue index a, readValue index b with
    | some x, some y => if op = ['&'] then some (x &&& y) else none
    | _, _ => none
  | _ => none

/-- A number that fits the operand field. -/
def asImm (n : Nat) : Option Imm := if n < 2 ^ 24 then some (BitVec.ofNat 24 n) else none

/-- The part of a line before its comment (R130). -/
def dropComment (l : Chars) : Chars := l.takeWhile (· ≠ ';')

/-- The words of a line, parted by blanks and commas. -/
def wordsOf (l : Chars) : List Chars :=
  (l.splitOnP (fun c => c = ' ' ∨ c = '\t' ∨ c = ',')).filter (· ≠ [])

/-- The port prefix of a line, if it has one, and the words after it; `none` for a prefix that is no port (R130). -/
def splitPort (l : Chars) : Option (Option Port × List Chars) :=
  match (dropComment l).splitOnP (· = ':') with
  | [body] => some (none, wordsOf body)
  | [before, body] =>
    match wordsOf before with
    | [['P']] => some (some .p, wordsOf body)
    | [['C']] => some (some .c, wordsOf body)
    | _ => none
  | _ => none

/-- The mode operand of `CONFIGURE`: `CONT`, `TRANS` or a number (R131). -/
def readMode (index : Option Nat) (tok : Chars) : Option Nat :=
  if tok = "CONT".toList then some 0 else if tok = "TRANS".toList then some 1 else readValue index tok

/-- A value that fits the operand field. -/
def readImm (index : Option Nat) (tok : Chars) : Option Imm := (readValue index tok).bind asImm

/-- A pseudo-instruction of R131, if the words are one. R131 gives the operand of `PUSH_SAMPLE` no range: the model's
choice (DESIGN CHOICE, log entry 16) is that a value above 0xFF has no words, while the line `P:PUSH` with that value has. -/
def readPseudo (index : Option Nat) (m : Chars) (args : List Chars) : Option Pseudo :=
  if m = "CONFIGURE".toList then
    match args with
    | [cc, rate, dur, mode, cmpr] =>
      match readImm index cc, readImm index rate, readImm index dur, (readMode index mode).bind asImm, readImm index cmpr with
      | some a, some b, some c, some d, some e => some (.configure a b c d e)
      | _, _, _, _, _ => none
    | _ => none
  else if m = "PUSH_SAMPLE".toList then
    match readOperand index args with
    | some v => if v < 256 then some (.pushSample (BitVec.ofNat 8 v)) else none
    | none => none
  else if args ≠ [] then none
  else if m = "IS_OVERFLOWED".toList then some .isOverflowed
  else if m = "POP_OUTPUT_BYTE".toList then some .popOutputByte
  else if m = "START_SESSION".toList then some .startSession
  else if m = "STOP_SESSION".toList then some .stopSession
  else none

/-- The operand field of a command line: given, or 0 for a command without operand (R130). -/
def readField (index : Option Nat) (r : OpRow) (args : List Chars) : Option Imm :=
  if args = [] then (if r.operand = .none then some 0 else none) else (readOperand index args).bind asImm

/-- The words of one line: a command at its port, `(op << 24) | operand`, or the expansion of a pseudo-instruction. R130
gives a port prefix to the mnemonics of R120 alone and R131 is silent: the model's choice (DESIGN CHOICE, log entry 16)
is that a pseudo-instruction may carry either prefix, which is ignored, its commands going to the ports of R131. -/
def assembleLine (index : Option Nat) (l : Chars) : Option (List (Port × Word)) :=
  match splitPort l with
  | none => none
  | some (_, []) => some []
  | some (prt, m :: args) =>
    match opcodeRows.find? (fun r => r.mnemonic = String.ofList m) with
    | some r =>
      match readField index r args with
      | some imm => some [(prt.getD (if r.atC then .c else .p), commandWord r.op imm)]
      | none => none
    | none =>
      match readPseudo index m args with
      | some x => some (x.expand.map (fun i => (i.port, encode i)))
      | none => none

/-- The words of several lines. -/
def assembleLines (index : Option Nat) : List Chars → Option (List (Port × Word))
  | [] => some []
  | l :: ls =>
    match assembleLine index l, assembleLines index ls with
    | some a, some b => some (a ++ b)
    | _, _ => none

/-- The lines of a `.rept` block, once for each of the `n` indices from `k` on (R130). -/
def assembleRepeat (body : List Chars) : Nat → Nat → Option (List (Port × Word))
  | 0, _ => some []
  | n + 1, k =>
    match assembleLines (some k) body, assembleRepeat body n (k + 1) with
    | some a, some b => some (a ++ b)
    | _, _ => none

/-- What a line is to the listing: the opening or the end of a repetition, or code. -/
inductive LineKind where
  | rept (n : Nat)
  | endr
  | code
  | malformed
deriving DecidableEq, Repr

/-- Tell the two directives of R130 from code. -/
def lineKind (l : Chars) : LineKind :=
  match splitPort l with
  | none => .malformed
  | some (_, toks) =>
    match toks with
    | [d, n] =>
      if d = ".rept".toList then
        match readNumber n with
        | some k => .rept k
        | none => .malformed
      else .code
    | [d] => if d = ".endr".toList then .endr else .code
    | _ => .code

/-- A listing, with the repetition that is open, if one is: its count and its lines so far. -/
def assembleFrom : Option (Nat × List Chars) → List Chars → Option (List (Port × Word))
  | none, [] => some []
  | some _, [] => none
  | none, l :: ls =>
    match lineKind l with
    | .rept n => assembleFrom (some (n, [])) ls
    | .code =>
      match assembleLine none l, assembleFrom none ls with
      | some a, some b => some (a ++ b)
      | _, _ => none
    | _ => none
  | some (n, body), l :: ls =>
    match lineKind l with
    | .endr =>
      match assembleRepeat body n 0, assembleFrom none ls with
      | some a, some b => some (a ++ b)
      | _, _ => none
    | .code => assembleFrom (some (n, body ++ [l])) ls
    | _ => none

/-- The command words of a listing, each with its port, in order; `none` where a line has not the form of R130, R131. -/
def assemble (lines : List String) : Option (List (Port × Word)) := assembleFrom none (lines.map String.toList)

/-- The command words of a listing that go to one port, in program order. -/
def wordsAt (port : Port) (ws : List (Port × Word)) : List Word :=
  (ws.filter (fun x => x.1 = port)).map (fun x => x.2)

end Sys2Proof.Machine
end

