-- ==== Sys2Proof/Safety.lean ====
section
/-! DEFINITION. The terms claims use: the launch states of power-on, the invariants of the queue, the encoder and the
compressor, what the queue and the packer hold, command sequences at one port, the abstract coder of
spec/42_compressor.md R199 and the decoder of R202. Nothing here is part of the machine. -/

namespace Sys2Proof.Machine

/-! ### Launch states (spec/70_reset_and_hazards.md R290) -/

/-- A power-on state: the registers R290 gives a value hold it; every register and memory it leaves unspecified is
free; no command has been issued. `State.reset` is one of them. -/
abbrev PowerOn (P : Params) (s : State) : Prop :=
  s.head = 0 ∧ s.tail = 0 ∧ s.count = 0 ∧ s.overflow = false ∧
  s.stackedBits = 0 ∧ s.stackFill = 0 ∧ s.previousSample = 0 ∧ s.interruptCount = 0 ∧
  s.firstSample = true ∧ s.cmpReady = false ∧ s.session = .idle ∧ s.sink = [] ∧
  Memory.wf bufUnlisted P.qsize s.buf ∧ Memory.wf P.empty P.hashSize s.hashTable ∧
  Memory.wf codeUnlisted P.hashSize s.codeTable ∧
  s.pPending = [] ∧ s.pResponses = [] ∧ s.cResponses = [] ∧ s.producerRaced = false

/-! ### The queue (spec/40_queue.md R140) -/

/-- The bytes in the queue, oldest first: `buf[head]`, `buf[(head+1) mod QSIZE]`, …, `count` of them (R140). -/
def queueBytes (P : Params) (s : State) : List Byte :=
  (List.range s.count.toNat).map (fun k => s.buf.read bufUnlisted ((s.head.toNat + k) % P.qsize))

/-- The queue's invariants (R140, R36): `count` in 0..`QSIZE`, `head` and `tail` below it, `count` ≡ `tail` − `head`. -/
abbrev QueueInv (P : Params) (s : State) : Prop :=
  s.count.toNat ≤ P.qsize ∧ s.head.toNat < P.qsize ∧ (s.head.toNat + s.count.toNat) % P.qsize = s.tail.toNat

/-- The three memories keep their canonical form. -/
abbrev MemoryInv (P : Params) (s : State) : Prop :=
  Memory.wf bufUnlisted P.qsize s.buf ∧ Memory.wf P.empty P.hashSize s.hashTable ∧
  Memory.wf codeUnlisted P.hashSize s.codeTable

/-- Between steps the fill offset is at most 7 (spec/10_state.md R41) and a P command in progress has at most 8 bytes
left (spec/41_encoder.md R172). -/
abbrev EncoderInv (s : State) : Prop := s.stackFill.toNat ≤ 7 ∧ s.pPending.length ≤ 8

/-! ### The compressor (spec/42_compressor.md R200) -/

/-- The code and the byte of a key (R194). -/
def keyCode (k : Key) : Code := k.extractLsb' 16 16
def keyByte (k : Key) : Byte := byteAt k 0

/-- The codes of the occupied slots, in slot order. -/
def slotCodes (s : State) : List Nat := s.hashTable.map (fun e => (s.codeTable.read codeUnlisted e.1).toNat)

/-- R200 (a), (b): the range of `free_entry`, which counts the occupied slots. -/
abbrev FreeEntryInv (P : Params) (s : State) : Prop :=
  P.firstFree ≤ s.freeEntry.toNat ∧ s.freeEntry.toNat ≤ P.maxCode ∧
  s.hashTable.length = s.freeEntry.toNat - P.firstFree

/-- R200 (c): the codes stored are `FIRST_FREE` .. `free_entry` − 1, each once, and no two slots hold the same key. -/
abbrev CodesInv (P : Params) (s : State) : Prop :=
  (slotCodes s).Perm (List.range' P.firstFree (s.freeEntry.toNat - P.firstFree)) ∧
  (s.hashTable.map Prod.snd).Nodup

/-- R200 (d): each stored key is a phrase whose code is below its own and not the clear code. -/
abbrev KeysInv (P : Params) (s : State) : Prop :=
  ∀ e ∈ s.hashTable, e.2 = phraseKey (keyCode e.2) (keyByte e.2) ∧
    (keyCode e.2).toNat < (s.codeTable.read codeUnlisted e.1).toNat ∧ (keyCode e.2).toNat ≠ P.clearCode

/-- R200 (e): every occupied slot is reached by the lookup of its own key. -/
abbrev ReachInv (P : Params) (s : State) : Prop :=
  ∀ e ∈ s.hashTable, lookup P s (keyCode e.2) (keyByte e.2) = .hit (s.codeTable.read codeUnlisted e.1)

/-- R200 (f): the bits of `out_byte` that hold nothing are 0. -/
abbrev PackerInv (s : State) : Prop := s.outByte.toNat % 2 ^ (8 - s.outBits.toNat) = 0

/-- R200 (g): after the first byte the pending code is a literal or a learned code. -/
abbrev PhraseInv (P : Params) (s : State) : Prop :=
  s.firstByte = false →
    s.currentPhraseCode.toNat < 256 ∨
      (P.firstFree ≤ s.currentPhraseCode.toNat ∧ s.currentPhraseCode.toNat < s.freeEntry.toNat)

/-- The invariants of R200, which hold while `cmp_ready` = 1. -/
abbrev CompressorInv (P : Params) (s : State) : Prop :=
  s.cmpReady = true →
    FreeEntryInv P s ∧ CodesInv P s ∧ KeysInv P s ∧ ReachInv P s ∧ PackerInv s ∧ PhraseInv P s

/-- The invariant of the block: every step keeps it. -/
abbrev Inv (P : Params) (s : State) : Prop :=
  QueueInv P s ∧ MemoryInv P s ∧ EncoderInv s ∧ CompressorInv P s

/-! ### Command sequences at one port -/

/-- Commands executed one after the other, stopping at a fault or a refusal. -/
def runCommands : List Instr → State → Host.Outcome State Fault Refusal
  | [], s => .next s
  | i :: is, s => andThen (exec i s) (runCommands is)

/-- The rest of the P command in progress, with no step of C in between: its `Enq` steps in order and its response. -/
def finishProducer (P : Params) : List Byte → State → State
  | [], s => s
  | v :: vs, s => finishProducer P vs (continueProducer P v vs s)

/-! ### The packed stream (spec/20_memory.md R75) -/

/-- The low `n` bits of a number, most significant first. -/
def bitsMsb {w : Nat} (n : Nat) (v : BitVec w) : List Bool := (List.range n).map (fun k => v.getLsbD (n - 1 - k))

/-- The bits packed so far: those of the emitted bytes, then the held ones. -/
def packedBits (s : State) : List Bool := s.sink.flatMap (bitsMsb 8) ++ (bitsMsb 8 s.outByte).take s.outBits.toNat

/-- Bits completed with zeros to whole bytes. -/
def padBits (bs : List Bool) : List Bool := bs ++ List.replicate ((8 - bs.length % 8) % 8) false

/-! ### The abstract coder (R199) -/

/-- The abstract coder: the phrases learned, the next code, and the pending code (none before the first byte). -/
structure Coder where
  dict : List ((Code × Byte) × Code)
  free : Nat
  cur : Option Code
deriving DecidableEq, Repr

/-- The coder before its first byte. -/
def Coder.initial (P : Params) : Coder := ⟨[], P.firstFree, none⟩

/-- The code of a phrase, if it is learned. -/
def Coder.find (k : Coder) (x : Code × Byte) : Option Code := (k.dict.find? (fun e => e.1 == x)).map Prod.snd

/-- One byte through the abstract coder: the codes it emits and the coder it leaves. -/
def Coder.feed (P : Params) (b : Byte) (k : Coder) : List Code × Coder :=
  match k.cur with
  | none => ([], { k with cur := some (literalCode b) })
  | some c =>
    match k.find (c, b) with
    | some d => ([], { k with cur := some d })
    | none =>
      if k.free < P.maxCode then
        ([c], ⟨((c, b), BitVec.ofNat 16 k.free) :: k.dict, k.free + 1, some (literalCode b)⟩)
      else ([c, BitVec.ofNat 16 P.clearCode], ⟨[], P.firstFree, some (literalCode b)⟩)

/-- The codes of a byte string and of the flush after it. -/
def Coder.codes (P : Params) : List Byte → Coder → List Code
  | [], k => k.cur.toList ++ [BitVec.ofNat 16 P.eosCode]
  | b :: bs, k => (k.feed P b).1 ++ Coder.codes P bs (k.feed P b).2

/-- The dictionary the hashed table represents: the code of a phrase found by a search of all slots (R199). -/
def tableFind (s : State) (code : Code) (b : Byte) : Option Code :=
  (s.hashTable.find? (fun e => e.2 == phraseKey code b)).map (fun e => s.codeTable.read codeUnlisted e.1)

/-! ### The decoder of R202, a check of the stream and no part of the block -/

/-- The decoder's table (strings of the learned codes from `FIRST_FREE` on) and the string of the previous code. -/
structure Expander where
  table : List (List Byte)
  prev : Option (List Byte)
deriving DecidableEq, Repr

/-- The string a code stands for: a literal, a learned code, or the next code to be assigned, which is the previous
string with its own first byte (R202). -/
def Expander.string (P : Params) (x : Expander) (prev : List Byte) (c : Code) : Option (List Byte) :=
  if c.toNat < 256 then some [c.setWidth 8]
  else if c.toNat < P.firstFree then none
  else
    match x.table[c.toNat - P.firstFree]? with
    | some t => some t
    | none => if c.toNat = P.firstFree + x.table.length then some (prev ++ prev.take 1) else none

/-- The bytes a code sequence stands for, up to its end-of-stream code (R202). -/
def expandCodes (P : Params) : List Code → Expander → Option (List Byte)
  | [], _ => none
  | c :: cs, x =>
    if c.toNat = P.eosCode then some []
    else if c.toNat = P.clearCode then expandCodes P cs ⟨[], none⟩
    else
      match x.prev with
      | none =>
        if c.toNat < 256 then
          (expandCodes P cs { x with prev := some [c.setWidth 8] }).map (fun r => c.setWidth 8 :: r)
        else none
      | some prev =>
        match x.string P prev c with
        | none => none
        | some t =>
          (expandCodes P cs
            ⟨if P.firstFree + x.table.length < P.maxCode then x.table ++ [prev ++ t.take 1] else x.table, some t⟩).map
            (fun r => t ++ r)

/-- The number a run of bits stands for, most significant first. -/
def bitsValue (bs : List Bool) : Nat := bs.foldl (fun a b => 2 * a + b.toNat) 0

/-- The codes of `n` bits in a bit string, at most `fuel` of them. -/
def readCodes (n : Nat) : Nat → List Bool → List Code
  | 0, _ => []
  | fuel + 1, bs =>
    if bs.length < n then [] else BitVec.ofNat 16 (bitsValue (bs.take n)) :: readCodes n fuel (bs.drop n)

/-- The bytes a compressed stream stands for. -/
def expandStream (P : Params) (stream : List Byte) : Option (List Byte) :=
  expandCodes P (readCodes P.nbits (8 * stream.length) (stream.flatMap (bitsMsb 8))) ⟨[], none⟩

end Sys2Proof.Machine
end

