-- ==== Sys2Proof/Certificates/Slice0/Obligations.lean ====
section
/-! DEFINITION. The statements for the provers, from the numbered rules of spec/. Numbers of the rules (4096, 0x1000,
8191, …) are written out, so that a wrong parameter or status code of the model makes a statement false. Every
statement is about all states unless its hypotheses say otherwise. -/

namespace Sys2Proof.Claims

open Sys2Proof.Machine

/-! ### Words the statements use -/

/-- The opcodes legal at a port, and those of the operand classes none and byte (R120). -/
def opcodesAt : Port → List Nat
  | .p => [0x10, 0x11, 0x12, 0x21, 0x22, 0x23]
  | .c => [0x20, 0x21, 0x22, 0x23, 0x24, 0x30, 0x31, 0x32, 0x40, 0x41, 0x42, 0x43, 0x44, 0x48, 0x49, 0x4A, 0x4B]

def opcodesWithoutOperand : List Nat :=
  [0x12, 0x20, 0x21, 0x22, 0x23, 0x24, 0x30, 0x32, 0x48, 0x49, 0x4A, 0x4B]

def opcodesWithByte : List Nat := [0x10, 0x11, 0x31]

/-- A word that passes steps 1 to 3 of R121 at a port. -/
def legalWord (port : Port) (w : Word) : Prop :=
  w.toNat / 2 ^ 24 ∈ opcodesAt port ∧
  (w.toNat / 2 ^ 24 ∈ opcodesWithoutOperand → w.toNat % 2 ^ 24 = 0) ∧
  (w.toNat / 2 ^ 24 ∈ opcodesWithByte → w.toNat % 2 ^ 24 < 256)

/-- The stacking mask of R141, R42: 2^cc − 1 for a channel count up to 4, else 0xFF. -/
def maskOfChannels (cc : Nat) : Byte := if cc ≤ 4 then BitVec.ofNat 8 (2 ^ cc - 1) else 0xFF

/-- The states in which P has `ENQ v` to issue and C has `DEQ`, with the given two turns. -/
def racing (first second : Port) (v : Byte) (s : State) : Prop :=
  s.turns = [first, second] ∧ s.pPending = [] ∧ s.pCmds = [0x10000000 ||| v.zeroExtend 32] ∧ s.cCmds = [0x20000000]

/-- The state a composite P command leaves when its encoder step has produced `out`: the bytes wait for the producer's
next steps, or with none the command has answered `Ok` (R81; log entry 3). -/
def withProduced (out : List Byte) (s : State) : State :=
  if out = [] then { s with pResponses := s.pResponses ++ [0x0000] } else { s with pPending := out }

/-- The records of one transition-only sample at the counted interrupt `ic` (R104, R105, R165). -/
def transitionBytes (ic : BitVec 32) (recorded : Bool) (raw : Byte) : List Byte :=
  (if ic.extractLsb' 0 16 = 0 then [0xBE, ic.extractLsb' 16 8, ic.extractLsb' 24 8, 0x00] else []) ++
  (if recorded then [0xBD, ic.extractLsb' 0 8, ic.extractLsb' 8 8, raw] else [])

/-- The effect of one transition-only sample on the encoder (R162, R165). -/
def transitionEffect (raw : Byte) (s : State) : State :=
  if s.firstSample = true ∨ raw ≠ s.previousSample then
    { s with interruptCount := s.interruptCount + 1, previousSample := raw, firstSample := false }
  else { s with interruptCount := s.interruptCount + 1 }

/-- The word is the encoding of the command, at the one port where the command is legal (R118, R120). -/
def encodedAt (port : Port) (w : Word) (i : Instr) : Prop := ∀ prt : Port, decode prt w = .ok i ↔ prt = port

/-- The word of an opcode and a byte operand `imm[7:0]` (R118). -/
def byteWord (op : BitVec 8) (v : Byte) : Word := op ++ (0 : BitVec 16) ++ v

/-- A configuration command, encoded with its opcode and the value in `imm[23:0]`: 0x3000 outside its range, 0x4000
outside `Idle`, else the register write (R230, R121). -/
def configures (op : BitVec 8) (i : Imm → Instr) (lo hi : Nat) (write : Imm → State → State) : Prop :=
  ∀ (n : Imm) (s : State), encodedAt .c (op ++ n) (i n) ∧
    (¬ (lo ≤ n.toNat ∧ n.toNat ≤ hi) → exec (i n) s = .next { s with cResponses := s.cResponses ++ [0x3000] }) ∧
    (lo ≤ n.toNat ∧ n.toNat ≤ hi → s.session ≠ .idle →
      exec (i n) s = .next { s with cResponses := s.cResponses ++ [0x4000] }) ∧
    (lo ≤ n.toNat ∧ n.toNat ≤ hi → s.session = .idle →
      exec (i n) s = .next { write n s with cResponses := s.cResponses ++ [0x0000] })

/-- What `POP` with compression on delivers from a refilled state (R235): the front of `sink`, or `None`, which closes a
draining session whose compressor has been flushed. -/
def delivered (t : State) : State :=
  match t.sink with
  | v :: rest => { t with sink := rest, cResponses := t.cResponses ++ [0x0100 ||| v.zeroExtend 16] }
  | [] => { t with
      session := if t.session = .draining ∧ t.cmpReady = false then .idle else t.session
      cResponses := t.cResponses ++ [0x0000] }

/-- The shape of a response word (R119): a status of R260, zeros in 11:9, and no data without `some`. -/
def responseShape (r : RespWord) : Prop :=
  r.toNat / 2 ^ 12 ∈ [0, 1, 2, 3, 4, 15] ∧ r.toNat / 2 ^ 9 % 8 = 0 ∧ (r.toNat / 2 ^ 8 % 2 = 0 → r.toNat % 2 ^ 8 = 0)

end Sys2Proof.Claims

open Sys2Proof Sys2Proof.Machine Sys2Proof.Claims

/-! ### Encodings and the step -/

/-- R118, R120, R121: at each port exactly the encodings of the commands legal there decode, each to its own command;
every operand bit is kept. -/
def Obligations.DecodeInvertsEncode : Prop :=
  ∀ (port : Port) (w : Word) (i : Instr), decode port w = .ok i ↔ encode i = w ∧ i.port = port

/-- R123, R121 steps 1 to 3: a legal word decodes; any other is answered 0xF000 at its port and changes nothing else. -/
def Obligations.IllegalWordsAreAnsweredAndChangeNothing : Prop :=
  (∀ (port : Port) (w : Word), legalWord port w → ∃ i, decode port w = .ok i) ∧
  (∀ (s : State) (w : Word) (ws : List Word) (rest : List Port),
    s.turns = .c :: rest → s.cCmds = w :: ws → ¬ legalWord .c w →
    step s = .next { s with turns := rest, cCmds := ws, cResponses := s.cResponses ++ [0xF000] }) ∧
  (∀ (s : State) (w : Word) (ws : List Word) (rest : List Port),
    s.turns = .p :: rest → s.pPending = [] → s.pCmds = w :: ws → ¬ legalWord .p w →
    step s = .next { s with turns := rest, pCmds := ws, pResponses := s.pResponses ++ [0xF000] })

/-- Words written out from R118 and R120 (the words of spec/95_test_vectors.md T19 and Part 3). -/
def Obligations.WordsOfTheVectorsDecode : Prop :=
  decode .p 0x10000077 = .ok (.enq 0x77) ∧ decode .p 0x110000AA = .ok (.push 0xAA) ∧
  decode .c 0x4A000000 = .ok .pop ∧ decode .p 0x21000000 = .ok (.qempty .p) ∧
  decode .c 0x31000041 = .ok (.cbyte 0x41) ∧ decode .c 0x41989680 = .ok (.cfgrate 10000000) ∧
  decode .c 0x420186A0 = .ok (.cfgdur 100000) ∧ decode .c 0x10000077 = .error .wrongPort ∧
  decode .c 0x20000001 = .error .reservedOperandBits ∧ decode .p 0x11000100 = .error .reservedOperandBits ∧
  decode .c 0x4C000000 = .error .unknownOpcode

/-- R121 step 5, R81: a step runs the decoded command of the port whose turn it is. The model's own part: the turn and
the word are used up (log entries 1, 2), the hazard of R300 is noted (log entry 7), and a P command waits until the one
before it has returned. -/
def Obligations.StepExecutesDecodedCommand : Prop :=
  (∀ (s : State) (w : Word) (ws : List Word) (rest : List Port) (i : Instr),
    s.turns = .c :: rest → s.cCmds = w :: ws → decode .c w = .ok i →
    step s = exec i { s with
      turns := rest
      cCmds := ws
      producerRaced := s.producerRaced || (needsQuiescentProducer i && !s.pPending.isEmpty) }) ∧
  (∀ (s : State) (w : Word) (ws : List Word) (rest : List Port) (i : Instr),
    s.turns = .p :: rest → s.pPending = [] → s.pCmds = w :: ws → decode .p w = .ok i →
    step s = exec i { s with turns := rest, pCmds := ws })

/-- R81, R166, R145: with a P command in progress the producer's step is the `Enq` of its next byte, stored or dropped,
and the command answers `Ok` after its last byte. -/
def Obligations.ProducerStepEnqueuesNextByte : Prop :=
  ∀ (s : State) (v : Byte) (vs : List Byte) (rest : List Port), s.turns = .p :: rest → s.pPending = v :: vs →
    step s = .next (
      let t := { s with
        turns := rest
        pPending := vs
        pResponses := if vs = [] then s.pResponses ++ [0x0000] else s.pResponses }
      if s.count.toNat = 4096 then { t with overflow := true }
      else { t with buf := s.buf.write 0 s.tail.toNat v, tail := s.tail + 1, count := s.count + 1 })

/-- R280: with no turn to take, or no work at the port whose turn it is, the block holds its state. The use of a turn is
the model's own bookkeeping (log entry 2). -/
def Obligations.IdleBlockHoldsItsState : Prop :=
  (∀ s : State, s.turns = [] → step s = .next s) ∧
  (∀ (s : State) (rest : List Port), s.turns = .c :: rest → s.cCmds = [] → step s = .next { s with turns := rest }) ∧
  (∀ (s : State) (rest : List Port), s.turns = .p :: rest → s.pPending = [] → s.pCmds = [] →
    step s = .next { s with turns := rest })

/-! ### The Sample Queue -/

/-- R145: the encoding of `ENQ`; it stores at `tail`, or with the queue full sets `overflow` and drops the byte; nothing
else changes. -/
def Obligations.EnqStoresOrOverflows : Prop :=
  ∀ (v : Byte) (s : State), encodedAt .p (byteWord 0x10 v) (.enq v) ∧
    (s.count.toNat ≠ 4096 → exec (.enq v) s = .next { s with
      buf := s.buf.write 0 s.tail.toNat v
      tail := s.tail + 1
      count := s.count + 1
      pResponses := s.pResponses ++ [0x0000] }) ∧
    (s.count.toNat = 4096 → exec (.enq v) s = .next { s with
      overflow := true
      pResponses := s.pResponses ++ [0x1000] })

/-- R146: the encoding of `DEQ`; it takes from `head`, or with the queue empty answers `None` and changes nothing. -/
def Obligations.DeqTakesOldestByte : Prop :=
  ∀ s : State, encodedAt .c 0x20000000 .deq ∧
    (s.count ≠ 0 → exec .deq s = .next { s with
      head := s.head + 1
      count := s.count - 1
      cResponses := s.cResponses ++ [0x0100 ||| (s.buf.read 0 s.head.toNat).zeroExtend 16] }) ∧
    (s.count = 0 → exec .deq s = .next { s with cResponses := s.cResponses ++ [0x0000] })

/-- R142, R143, R144: the three status reads, with their encodings at both ports, answer true (0x0101) or false (0x0100) at
the port they are issued at and write nothing else. -/
def Obligations.QueuePredicatesReadOnly : Prop :=
  (∀ port : Port, decode port 0x21000000 = .ok (.qempty port) ∧ decode port 0x22000000 = .ok (.qfull port) ∧
    decode port 0x23000000 = .ok (.qovf port)) ∧
  ∀ s : State,
    (let e : RespWord := if s.count = 0 then 0x0101 else 0x0100
     exec (.qempty .p) s = .next { s with pResponses := s.pResponses ++ [e] } ∧
     exec (.qempty .c) s = .next { s with cResponses := s.cResponses ++ [e] }) ∧
    (let f : RespWord := if s.count.toNat = 4096 then 0x0101 else 0x0100
     exec (.qfull .p) s = .next { s with pResponses := s.pResponses ++ [f] } ∧
     exec (.qfull .c) s = .next { s with cResponses := s.cResponses ++ [f] }) ∧
    (let o : RespWord := if s.overflow = true then 0x0101 else 0x0100
     exec (.qovf .p) s = .next { s with pResponses := s.pResponses ++ [o] } ∧
     exec (.qovf .c) s = .next { s with cResponses := s.cResponses ++ [o] })

/-- R141: the encoding of `QCLEAR`, what it resets, and that it writes nothing else. -/
def Obligations.QclearResetsQueueAndEncoder : Prop :=
  ∀ s : State, encodedAt .c 0x24000000 .qclear ∧ exec .qclear s = .next { s with
    head := 0
    tail := 0
    count := 0
    overflow := false
    stackedBits := 0
    stackFill := 0
    firstSample := true
    previousSample := 0
    interruptCount := 0
    stackMask := maskOfChannels s.cfgChannelCount.toNat
    cResponses := s.cResponses ++ [0x0000] }

/-- R140, R145, R146, R82: the ring buffer is a first-in-first-out sequence of at most 4096 bytes. -/
def Obligations.QueueIsFirstInFirstOut : Prop :=
  ∀ s : State, QueueInv reference s →
    (∀ v, s.count.toNat < 4096 →
      ∃ t, exec (.enq v) s = .next t ∧ queueBytes reference t = queueBytes reference s ++ [v]) ∧
    (∀ v, s.count.toNat = 4096 → ∃ t, exec (.enq v) s = .next t ∧ queueBytes reference t = queueBytes reference s) ∧
    (∀ v vs, queueBytes reference s = v :: vs →
      ∃ t, exec .deq s = .next t ∧ queueBytes reference t = vs ∧
        t.cResponses = s.cResponses ++ [0x0100 ||| v.zeroExtend 16]) ∧
    (queueBytes reference s = [] → ∃ t, exec .deq s = .next t ∧ queueBytes reference t = [] ∧
      t.cResponses = s.cResponses ++ [0x0000])

/-- R147, R149: enqueuing a byte string keeps the longest part of it that fits and sets `overflow` exactly when not all
of it does; without overflow nothing is lost. -/
def Obligations.EnqueuedStringIsKeptUpToCapacity : Prop :=
  ∀ (s : State) (vs : List Byte), QueueInv reference s →
    ∃ t, runCommands (vs.map .enq) s = .next t ∧ QueueInv reference t ∧ t.head = s.head ∧
      queueBytes reference t = (queueBytes reference s ++ vs).take 4096 ∧
      (t.overflow = true ↔ s.overflow = true ∨ 4096 < s.count.toNat + vs.length)

/-- R85, T11: at a full and at an empty queue the total order of the two steps decides, and both outcomes are legal. -/
def Obligations.RacingEnqAndDeq : Prop :=
  ∀ (s : State) (v : Byte),
    (racing .p .c v s → s.count.toNat = 4096 → ∃ t, Host.Core.run core 2 s = .next t ∧
      t.overflow = true ∧ t.count.toNat = 4095 ∧ t.tail = s.tail ∧ t.buf = s.buf ∧ t.head = s.head + 1 ∧
      t.pResponses = s.pResponses ++ [0x1000] ∧
      t.cResponses = s.cResponses ++ [0x0100 ||| (s.buf.read 0 s.head.toNat).zeroExtend 16]) ∧
    (racing .c .p v s → s.count.toNat = 4096 → ∃ t, Host.Core.run core 2 s = .next t ∧
      t.overflow = s.overflow ∧ t.count.toNat = 4096 ∧ t.tail = s.tail + 1 ∧ t.head = s.head + 1 ∧
      t.pResponses = s.pResponses ++ [0x0000] ∧
      t.cResponses = s.cResponses ++ [0x0100 ||| (s.buf.read 0 s.head.toNat).zeroExtend 16]) ∧
    (racing .p .c v s → s.count = 0 → s.head = s.tail → ∃ t, Host.Core.run core 2 s = .next t ∧
      t.count = 0 ∧ t.pResponses = s.pResponses ++ [0x0000] ∧
      t.cResponses = s.cResponses ++ [0x0100 ||| v.zeroExtend 16]) ∧
    (racing .c .p v s → s.count = 0 → ∃ t, Host.Core.run core 2 s = .next t ∧
      t.count = 1 ∧ t.pResponses = s.pResponses ++ [0x0000] ∧ t.cResponses = s.cResponses ++ [0x0000])

/-- R84: no step of P empties the queue, and no step of C that issues none of `QCLEAR`, `START`, `STOP` fills it. -/
def Obligations.OccupancyObservationsAreStable : Prop :=
  (∀ (s t : State) (rest : List Port), s.turns = .p :: rest → s.count.toNat ≤ 4096 → step s = .next t →
    s.count.toNat ≤ t.count.toNat ∧ t.count.toNat ≤ 4096) ∧
  (∀ (s t : State) (rest : List Port), s.turns = .c :: rest →
    (∀ w ∈ s.cCmds.head?, w ≠ 0x24000000 ∧ w ≠ 0x48000000 ∧ w ≠ 0x49000000) → step s = .next t →
    t.count.toNat ≤ s.count.toNat)

/-- R148, R37: once set, `overflow` stays set through every step but one in which C issues `QCLEAR` or `START`. -/
def Obligations.OverflowIsSticky : Prop :=
  ∀ s t : State, step s = .next t → s.overflow = true → t.overflow = false →
    ∃ rest, s.turns = .c :: rest ∧ (s.cCmds.head? = some 0x24000000 ∨ s.cCmds.head? = some 0x48000000)

/-! ### The Sample Encoder -/

/-- R163, R162: `PUSH` in continuous mode with at most 4 channels. -/
def Obligations.PushStacksNarrowSamples : Prop :=
  ∀ (raw : Byte) (s : State), s.cfgMode = .continuous → s.cfgChannelCount.toNat ≤ 4 →
    exec (.push raw) s = .next (
      let bits : Byte := s.stackedBits ||| ((raw &&& s.stackMask) <<< s.stackFill.toNat)
      let fill : BitVec 4 := s.stackFill + s.cfgChannelCount
      if 8 ≤ fill.toNat then
        withProduced [bits] { s with interruptCount := s.interruptCount + 1, stackedBits := 0, stackFill := 0 }
      else
        withProduced [] { s with interruptCount := s.interruptCount + 1, stackedBits := bits, stackFill := fill })

/-- R164, R162: `PUSH` in continuous mode with 5 channels or more produces the raw byte. -/
def Obligations.PushPassesWideSamples : Prop :=
  ∀ (raw : Byte) (s : State), s.cfgMode = .continuous → 4 < s.cfgChannelCount.toNat →
    exec (.push raw) s = .next (withProduced [raw] { s with interruptCount := s.interruptCount + 1 })

/-- R165, R162, R104, R105: `PUSH` in transition-only mode. -/
def Obligations.PushRecordsTransitions : Prop :=
  ∀ (raw : Byte) (s : State), s.cfgMode = .transitionOnly →
    exec (.push raw) s = .next (withProduced
      (transitionBytes (s.interruptCount + 1) (s.firstSample || raw != s.previousSample) raw)
      (transitionEffect raw s))

/-- R170: `FINAL` does nothing but answer in continuous mode; in transition-only mode it is a `PUSH` of 0xFF after an
all-zero last sample and of 0x00 after anything else, and always records. -/
def Obligations.FinalInjectsSyntheticSample : Prop :=
  ∀ s : State,
    (s.cfgMode = .continuous → exec .final s = .next { s with pResponses := s.pResponses ++ [0x0000] }) ∧
    (s.cfgMode = .transitionOnly →
      let v : Byte := if s.previousSample = 0x00 then 0xFF else 0x00
      exec .final s = .next { s with
        interruptCount := s.interruptCount + 1
        previousSample := v
        firstSample := false
        pPending := transitionBytes (s.interruptCount + 1) true v })

/-- R166, R167, R81: run to its end with no step of C in between, a P command in progress enqueues its bytes in order,
each tried on its own whatever happened to the others, then answers `Ok`; the encoder is not touched. -/
def Obligations.ProducerFinishesItsCommand : Prop :=
  ∀ (s : State) (rest : List Port), s.pPending ≠ [] → s.turns = List.replicate s.pPending.length .p ++ rest →
    QueueInv reference s →
    ∃ t, Host.Core.run core s.pPending.length s = .next t ∧
      t.pPending = [] ∧ t.turns = rest ∧ t.pResponses = s.pResponses ++ [0x0000] ∧
      queueBytes reference t = (queueBytes reference s ++ s.pPending).take 4096 ∧
      (t.overflow = true ↔ s.overflow = true ∨ 4096 < s.count.toNat + s.pPending.length) ∧
      t.interruptCount = s.interruptCount ∧ t.previousSample = s.previousSample ∧ t.firstSample = s.firstSample ∧
      t.stackedBits = s.stackedBits ∧ t.stackFill = s.stackFill ∧ t.stackMask = s.stackMask ∧
      t.head = s.head ∧ t.cResponses = s.cResponses

/-- R172: the number of bytes one `PUSH` produces. -/
def Obligations.BytesProducedPerPush : Prop :=
  ∀ (raw : Byte) (s t : State), s.pPending = [] → s.stackFill.toNat ≤ 7 → exec (.push raw) s = .next t →
    t.pPending.length =
      match s.cfgMode with
      | .continuous =>
        if s.cfgChannelCount.toNat ≤ 4 then
          if s.stackFill.toNat + s.cfgChannelCount.toNat < 8 then 0 else 1
        else 1
      | .transitionOnly =>
        (if (s.interruptCount.toNat + 1) % 65536 = 0 then 4 else 0) +
        (if s.firstSample = true ∨ raw ≠ s.previousSample then 4 else 0)

/-- R101, R74: with 1 to 4 channels, ⌈8/cc⌉ consecutive samples from an empty accumulator make one byte whose bit `j` is
line `j mod cc` of sample `j / cc`; the accumulator is empty again. -/
def Obligations.StackedByteLayout : Prop :=
  ∀ (s : State) (cc : Nat) (samples : List Byte), 1 ≤ cc → cc ≤ 4 → s.cfgMode = .continuous →
    s.cfgChannelCount.toNat = cc → s.stackMask = maskOfChannels cc → s.stackedBits = 0 → s.stackFill = 0 →
    s.pPending = [] → samples.length = (8 + cc - 1) / cc →
    ∃ t byte, runCommands (samples.map .push) s = .next t ∧ t.pPending = [byte] ∧
      t.stackedBits = 0 ∧ t.stackFill = 0 ∧
      ∀ j, j < 8 → byte.getLsbD j = (samples.getD (j / cc) 0).getLsbD (j % cc)

/-! ### The Stream Compressor -/

/-- R192: the encoding of `CINIT`; on this hardware it always succeeds; for a parameter set that breaks R8 it
fails (0x2000) and clears `cmp_ready` alone. -/
def Obligations.CinitResetsCompressor : Prop :=
  encodedAt .c 0x30000000 .cinit ∧
  (∀ s : State, exec .cinit s = .next { s with
    hashTable := []
    freeEntry := 257
    currentPhraseCode := 0
    outByte := 0
    outBits := 0
    firstByte := true
    cmpReady := true
    cResponses := s.cResponses ++ [0x0000] }) ∧
  (∀ (P : Params) (s : State), P.meetsR8 = false →
    runCinit P s = .next { s with cmpReady := false, cResponses := s.cResponses ++ [0x2000] })

/-- R193, R47: after `CINIT` every slot of `hash_table` reads `EMPTY`, and no slot of `code_table` has changed. -/
def Obligations.CinitEmptiesEverySlot : Prop :=
  ∀ s : State, ∃ t, exec .cinit s = .next t ∧
    ∀ slot, t.hashTable.read 0xFFFFFFFF slot = 0xFFFFFFFF ∧
      t.codeTable.read 0 slot = s.codeTable.read 0 slot

/-- R263, R232: the initialisation of the compressor fails exactly for a parameter set that breaks R8: then every `CINIT`
and every `START` with compression on fails; the session does not start, the queue stays cleared, and an uncompressed
session can still start. -/
def Obligations.InitialisationFailsExactlyForBadParameters : Prop :=
  ∀ (P : Params) (s : State),
    (P.meetsR8 = true → ∃ t, runCinit P s = .next t ∧ t.cmpReady = true ∧ t.cResponses = s.cResponses ++ [0x0000]) ∧
    (P.meetsR8 = false → ∃ t, runCinit P s = .next t ∧ t.cmpReady = false ∧ t.cResponses = s.cResponses ++ [0x2000]) ∧
    (P.meetsR8 = true → s.session = .idle → ∃ t, runStart P s = .next t ∧ t.session = .active ∧
      t.cResponses = s.cResponses ++ [0x0000]) ∧
    (P.meetsR8 = false → s.session = .idle → s.cfgCompressionEnabled = true → ∃ t, runStart P s = .next t ∧
      t.session = .idle ∧ t.cmpReady = false ∧ t.count = 0 ∧ t.overflow = false ∧ t.firstSample = true ∧
      t.sink = [] ∧ t.cResponses = s.cResponses ++ [0x2000]) ∧
    (P.meetsR8 = false → s.session = .idle → s.cfgCompressionEnabled = false → ∃ t, runStart P s = .next t ∧
      t.session = .active ∧ t.cResponses = s.cResponses ++ [0x0000])

/-- R54, R308: while `cmp_ready` = 0, `CBYTE` and `CFLUSH` are refused (0x4000) and change nothing. -/
def Obligations.CompressorRefusesUntilInitialised : Prop :=
  ∀ (s : State) (b : Byte), s.cmpReady = false →
    exec (.cbyte b) s = .next { s with cResponses := s.cResponses ++ [0x4000] } ∧
    exec .cflush s = .next { s with cResponses := s.cResponses ++ [0x4000] }

/-- R196, source step 1: the first byte of the stream is only remembered. -/
def Obligations.CbyteRemembersFirstByte : Prop :=
  ∀ (s : State) (b : Byte), s.cmpReady = true → s.firstByte = true →
    exec (.cbyte b) s = .next { s with
      currentPhraseCode := b.zeroExtend 16
      firstByte := false
      cResponses := s.cResponses ++ [0x0000] }

/-- R196, source step 3: a known phrase extends the match and emits nothing. -/
def Obligations.CbyteExtendsKnownPhrase : Prop :=
  ∀ (s : State) (b : Byte) (c : Code), CompressorInv reference s → s.hashTable.wf 0xFFFFFFFF 9001 →
    s.cmpReady = true → s.firstByte = false → tableFind s s.currentPhraseCode b = some c →
    exec (.cbyte b) s = .next { s with currentPhraseCode := c, cResponses := s.cResponses ++ [0x0000] }

/-- R196, R201, source step 5: a new phrase emits the pending code and restarts from the byte; it is learned at an empty
slot with the next free code, or, with `free_entry` = 8191, the clear code follows and the table is emptied. -/
def Obligations.CbyteEmitsOnNewPhrase : Prop :=
  ∀ (s : State) (b : Byte), CompressorInv reference s → s.hashTable.wf 0xFFFFFFFF 9001 →
    s.cmpReady = true → s.firstByte = false → tableFind s s.currentPhraseCode b = none →
    (s.freeEntry.toNat < 8191 → ∃ slot, slot < 9001 ∧ s.hashTable.read 0xFFFFFFFF slot = 0xFFFFFFFF ∧
      exec (.cbyte b) s = .next { putCode reference s.currentPhraseCode s with
        currentPhraseCode := b.zeroExtend 16
        hashTable := s.hashTable.write 0xFFFFFFFF slot (s.currentPhraseCode ++ (0 : BitVec 8) ++ b)
        codeTable := s.codeTable.write 0 slot s.freeEntry
        freeEntry := s.freeEntry + 1
        cResponses := s.cResponses ++ [0x0000] }) ∧
    (s.freeEntry.toNat = 8191 →
      exec (.cbyte b) s = .next { putCode reference 256 (putCode reference s.currentPhraseCode s) with
        currentPhraseCode := b.zeroExtend 16
        hashTable := []
        freeEntry := 257
        cResponses := s.cResponses ++ [0x0000] })

/-- R197, R75: `PutCode` appends the 13 bits of the code to the packed stream, most significant first, and touches the
packer and `sink` alone. -/
def Obligations.PutCodePacksMostSignificantFirst : Prop :=
  ∀ (s : State) (c : Code), PackerInv s → ∃ t, putCode reference c s = t ∧
    packedBits t = packedBits s ++ bitsMsb 13 c ∧ PackerInv t ∧ s.sink <+: t.sink ∧
    t = { s with sink := t.sink, outByte := t.outByte, outBits := t.outBits }

/-- R198: the encoding of `CFLUSH`; it emits the pending phrase, if any byte was seen, then the end-of-stream code 8191,
completes the last byte with zeros and tears the compressor down; nothing else changes. Without a preceding `CINIT` it is
refused. -/
def Obligations.CflushEmitsPendingAndEndOfStream : Prop :=
  encodedAt .c 0x32000000 .cflush ∧
  (∀ s : State, s.cmpReady = false → exec .cflush s = .next { s with cResponses := s.cResponses ++ [0x4000] }) ∧
  (∀ s : State, s.cmpReady = true → PackerInv s → ∃ t, exec .cflush s = .next t ∧
    t.sink.flatMap (bitsMsb 8) =
      padBits (packedBits s ++ (if s.firstByte then [] else bitsMsb 13 s.currentPhraseCode) ++ List.replicate 13 true) ∧
    s.sink <+: t.sink ∧
    t = { s with
      sink := t.sink
      outByte := 0
      outBits := 0
      cmpReady := false
      cResponses := s.cResponses ++ [0x0000] })

/-- R199, R195: for every parameter set that meets R8, the hashed lookup of a code below 2^`NBITS` answers exactly what
the table holds: a hit with the phrase's code, or a miss at an empty slot of the table. -/
def Obligations.LookupFindsExactlyLearnedPhrases : Prop :=
  ∀ (P : Params) (s : State) (code : Code) (b : Byte), P.meetsR8 = true → s.cmpReady = true → CompressorInv P s →
    Memory.wf P.empty P.hashSize s.hashTable → code.toNat < 2 ^ P.nbits →
    (∀ c, tableFind s code b = some c → lookup P s code b = .hit c) ∧
    (tableFind s code b = none → ∃ slot, slot < P.hashSize ∧ s.hashTable.read P.empty slot = P.empty ∧
      lookup P s code b = .miss slot)

/-- R205: the bytes each compressor command emits, with `a` bits held on entry. -/
def Obligations.BytesEmittedPerCommand : Prop :=
  ∀ (s t : State) (b : Byte),
    (exec .cinit s = .next t → t.sink.length = s.sink.length) ∧
    (s.cmpReady = true → exec .cflush s = .next t →
      t.sink.length = s.sink.length + (s.outBits.toNat + (if s.firstByte then 1 else 2) * 13 + 7) / 8) ∧
    (s.cmpReady = true → s.firstByte = true → exec (.cbyte b) s = .next t → t.sink.length = s.sink.length) ∧
    (s.cmpReady = true → s.firstByte = false → exec (.cbyte b) s = .next t →
      (∃ c, lookup reference s s.currentPhraseCode b = .hit c ∧ t.sink.length = s.sink.length) ∨
      (∃ slot, lookup reference s s.currentPhraseCode b = .miss slot ∧
        t.sink.length = s.sink.length +
          (if s.freeEntry.toNat < 8191 then (s.outBits.toNat + 13) / 8 else (s.outBits.toNat + 26) / 8)))

/-- R196, R197, R198, R199: the bytes a `CINIT`, `CBYTE` …, `CFLUSH` bracket adds to `sink` are the codes of the abstract
coder for those bytes, 13 bits each, most significant bit first, zero-padded; from every state. -/
def Obligations.CompressedStreamIsThatOfTheAbstractCoder : Prop :=
  ∀ (s : State) (bs : List Byte), ∃ t z,
    runCommands (.cinit :: bs.map .cbyte ++ [.cflush]) s = .next t ∧ t.sink = s.sink ++ z ∧
    z.flatMap (bitsMsb 8) = padBits ((Coder.codes reference bs (Coder.initial reference)).flatMap (bitsMsb 13))

/-- R202: the decoder of R202 turns the compressed stream of any byte string back into that string, from every state. -/
def Obligations.CompressionRoundTrips : Prop :=
  ∀ (s : State) (bs : List Byte), ∃ t z,
    runCommands (.cinit :: bs.map .cbyte ++ [.cflush]) s = .next t ∧ t.sink = s.sink ++ z ∧
    expandStream reference z = some bs

/-- R194: equal keys mean equal phrases, and no key is `EMPTY`. -/
def Obligations.KeysAreInjectiveAndNeverEmpty : Prop :=
  ∀ (c c' : Code) (b b' : Byte),
    (phraseKey c b = phraseKey c' b' → c = c' ∧ b = b') ∧ phraseKey c b ≠ 0xFFFFFFFF ∧
    phraseKey c b = c ++ (0 : BitVec 8) ++ b

/-! ### Configuration and session -/

/-- R230, R231, R237 to R240, R122: the five configuration commands. That an operand out of range decodes to its command,
and that the command's meaning makes the range check the spec puts in the decoder (R121 step 4), is the model's own form
(DEDUCED, log entry 13). -/
def Obligations.ConfigurationCommandsValidateAndWrite : Prop :=
  configures 0x40 .cfgch 1 8 (fun n s => { s with cfgChannelCount := BitVec.ofNat 4 n.toNat }) ∧
  configures 0x41 .cfgrate 10 10000000 (fun n s => { s with cfgSampleRateHz := n }) ∧
  configures 0x42 .cfgdur 10 100000 (fun n s => { s with cfgSessionDurationMs := BitVec.ofNat 17 n.toNat }) ∧
  configures 0x43 .cfgmode 0 1 (fun n s => { s with cfgMode := if n = 0 then .continuous else .transitionOnly }) ∧
  configures 0x44 .cfgcmp 0 1 (fun n s => { s with cfgCompressionEnabled := decide (n = 1) })

/-- R231, R237 to R240: an accepted operand is held whole, "nothing is lost". -/
def Obligations.ConfigurationValuesAreHeldWhole : Prop :=
  ∀ (n : Imm) (s : State), s.session = .idle →
    (1 ≤ n.toNat → n.toNat ≤ 8 → ∃ t, exec (.cfgch n) s = .next t ∧ t.cfgChannelCount.toNat = n.toNat) ∧
    (10 ≤ n.toNat → n.toNat ≤ 10000000 → ∃ t, exec (.cfgrate n) s = .next t ∧ t.cfgSampleRateHz.toNat = n.toNat) ∧
    (10 ≤ n.toNat → n.toNat ≤ 100000 → ∃ t, exec (.cfgdur n) s = .next t ∧ t.cfgSessionDurationMs.toNat = n.toNat)

/-- R131: the pseudo-instruction `CONFIGURE` sets the five registers and gets five answers `Ok`. -/
def Obligations.ConfigureSetsFiveRegisters : Prop :=
  ∀ (s : State) (cc rate dur : Imm) (mode cmpr : Bool), s.session = .idle →
    1 ≤ cc.toNat → cc.toNat ≤ 8 → 10 ≤ rate.toNat → rate.toNat ≤ 10000000 → 10 ≤ dur.toNat → dur.toNat ≤ 100000 →
    runCommands (Pseudo.configure cc rate dur (if mode then 1 else 0) (if cmpr then 1 else 0)).expand s = .next { s with
      cfgChannelCount := BitVec.ofNat 4 cc.toNat
      cfgSampleRateHz := rate
      cfgSessionDurationMs := BitVec.ofNat 17 dur.toNat
      cfgMode := if mode then .transitionOnly else .continuous
      cfgCompressionEnabled := cmpr
      cResponses := s.cResponses ++ [0x0000, 0x0000, 0x0000, 0x0000, 0x0000] }

/-- R232: `START`, refused outside `Idle`; else all of `QCLEAR`, `sink` emptied, and with compression on all of `CINIT`. -/
def Obligations.StartBeginsSession : Prop :=
  ∀ s : State,
    (s.session ≠ .idle → exec .start s = .next { s with cResponses := s.cResponses ++ [0x4000] }) ∧
    (s.session = .idle → exec .start s = .next (
      let t := { s with
        head := 0
        tail := 0
        count := 0
        overflow := false
        stackedBits := 0
        stackFill := 0
        firstSample := true
        previousSample := 0
        interruptCount := 0
        stackMask := maskOfChannels s.cfgChannelCount.toNat
        sink := []
        session := .active
        cResponses := s.cResponses ++ [0x0000] }
      if s.cfgCompressionEnabled then { t with
        hashTable := []
        freeEntry := 257
        currentPhraseCode := 0
        outByte := 0
        outBits := 0
        firstByte := true
        cmpReady := true }
      else { t with cmpReady := false }))

/-- R233, R170: the encoding of `STOP`; it is refused outside `Active`; in continuous mode it changes `session` alone; in transition-only mode
the synthetic record is enqueued within the step, each byte tried on its own. -/
def Obligations.StopDrainsAndInjectsFinalSample : Prop :=
  ∀ s : State, encodedAt .c 0x49000000 .stop ∧
    (s.session ≠ .active → exec .stop s = .next { s with cResponses := s.cResponses ++ [0x4000] }) ∧
    (s.session = .active → s.cfgMode = .continuous →
      exec .stop s = .next { s with session := .draining, cResponses := s.cResponses ++ [0x0000] }) ∧
    (s.session = .active → s.cfgMode = .transitionOnly →
      let v : Byte := if s.previousSample = 0x00 then 0xFF else 0x00
      exec .stop s = .next (enqAll reference (transitionBytes (s.interruptCount + 1) true v) { s with
        session := .draining
        interruptCount := s.interruptCount + 1
        previousSample := v
        firstSample := false
        cResponses := s.cResponses ++ [0x0000] }))

/-- R145, R166, R233: the frame of the storing commands. `ENQ` stores at `tail` or nowhere; the synthetic record of `STOP`
stores its bytes at `tail` and the elements after it, `mod 4096`, as far as they fit; every other element of `buf`
reads as before, and both tables are unchanged. -/
def Obligations.StoringCommandsWriteOnlyAtTail : Prop :=
  (∀ (v : Byte) (s : State), ∃ t, exec (.enq v) s = .next t ∧ t.hashTable = s.hashTable ∧ t.codeTable = s.codeTable ∧
    (s.count.toNat ≠ 4096 → t.buf.read 0 s.tail.toNat = v) ∧
    ∀ a, (s.count.toNat = 4096 ∨ a ≠ s.tail.toNat) → t.buf.read 0 a = s.buf.read 0 a) ∧
  (∀ s : State, QueueInv reference s → ∃ t, exec .stop s = .next t ∧
    t.hashTable = s.hashTable ∧ t.codeTable = s.codeTable ∧
    let out : List Byte :=
      if s.session = .active ∧ s.cfgMode = .transitionOnly then
        transitionBytes (s.interruptCount + 1) true (if s.previousSample = 0x00 then 0xFF else 0x00)
      else []
    let stored := min out.length (4096 - s.count.toNat)
    (∀ k, k < stored → t.buf.read 0 ((s.tail.toNat + k) % 4096) = out.getD k 0) ∧
    ∀ a, (∀ k, k < stored → a ≠ (s.tail.toNat + k) % 4096) → t.buf.read 0 a = s.buf.read 0 a)

/-- R196: the frame of `CBYTE` on the memories. `buf` is unchanged; a phrase is learned at the slot the lookup missed at,
and no other slot of either table changes; with no miss neither table changes. -/
def Obligations.CbyteWritesOnlyTheMissedSlot : Prop :=
  ∀ (b : Byte) (s t : State), exec (.cbyte b) s = .next t → t.buf = s.buf ∧
    (∀ slot, s.cmpReady = true → s.firstByte = false → lookup reference s s.currentPhraseCode b = .miss slot →
      s.freeEntry.toNat < 8191 →
      t.hashTable.read 0xFFFFFFFF slot = phraseKey s.currentPhraseCode b ∧ t.codeTable.read 0 slot = s.freeEntry ∧
      ∀ a, a ≠ slot → t.hashTable.read 0xFFFFFFFF a = s.hashTable.read 0xFFFFFFFF a ∧
        t.codeTable.read 0 a = s.codeTable.read 0 a) ∧
    ((s.cmpReady = false ∨ s.firstByte = true ∨ ∃ c, lookup reference s s.currentPhraseCode b = .hit c) →
      t.hashTable = s.hashTable ∧ t.codeTable = s.codeTable)

/-- R235, compression off: the queue is the output, and an empty queue closes a draining session. -/
def Obligations.PopDeliversQueueByte : Prop :=
  ∀ s : State, s.cfgCompressionEnabled = false →
    (s.count ≠ 0 → exec .pop s = .next { s with
      head := s.head + 1
      count := s.count - 1
      cResponses := s.cResponses ++ [0x0100 ||| (s.buf.read 0 s.head.toNat).zeroExtend 16] }) ∧
    (s.count = 0 → exec .pop s = .next { s with
      session := if s.session = .draining then .idle else s.session
      cResponses := s.cResponses ++ [0x0000] })

/-- R235, compression on: an empty `sink` of a running compressor is refilled by the steps of `CBYTE` on the oldest queue
byte, or, with the queue empty and the session draining, by the steps of `CFLUSH`; then the front of `sink` is delivered. -/
def Obligations.PopDeliversCompressedByte : Prop :=
  ∀ s : State, s.cfgCompressionEnabled = true → CompressorInv reference s → s.hashTable.wf 0xFFFFFFFF 9001 →
    (s.sink ≠ [] ∨ s.cmpReady = false → exec .pop s = .next (delivered s)) ∧
    (s.sink = [] → s.cmpReady = true → s.count ≠ 0 →
      ∃ t, exec (.cbyte (s.buf.read 0 s.head.toNat)) { s with head := s.head + 1, count := s.count - 1 } = .next t ∧
        exec .pop s = .next (delivered { t with cResponses := s.cResponses })) ∧
    (s.sink = [] → s.cmpReady = true → s.count = 0 → s.session = .draining →
      ∃ t, exec .cflush s = .next t ∧ exec .pop s = .next (delivered { t with cResponses := s.cResponses })) ∧
    (s.sink = [] → s.cmpReady = true → s.count = 0 → s.session ≠ .draining → exec .pop s = .next (delivered s))

/-- R58: under `POP` the `sink` never holds more than 5 bytes within the step, so at most 4 after it. -/
def Obligations.PopKeepsSinkShort : Prop :=
  ∀ s t : State, exec .pop s = .next t → s.cfgCompressionEnabled = true → s.sink.length ≤ 5 → t.sink.length ≤ 4

/-- R236: the encoding of `SSTAT`; it answers 0x0100, 0x0101 or 0x0102 for `Idle`, `Active`, `Draining` and writes nothing. -/
def Obligations.SstatReadsSession : Prop :=
  ∀ s : State, encodedAt .c 0x4B000000 .sstat ∧ exec .sstat s = .next { s with
    cResponses := s.cResponses ++ [match s.session with | .idle => 0x0100 | .active => 0x0101 | .draining => 0x0102] }

/-- R234, R233: after `STOP` with compression off and the producer quiescent, `count` + 1 `POP`s deliver every queued byte
once, in order, then answer `None` and close the session. -/
def Obligations.UncompressedDrainDeliversEverything : Prop :=
  ∀ s : State, QueueInv reference s → s.cfgCompressionEnabled = false → s.session = .draining →
    ∃ t, runCommands (List.replicate (s.count.toNat + 1) .pop) s = .next t ∧
      t.cResponses = s.cResponses ++ (queueBytes reference s).map (fun v => 0x0100 ||| v.zeroExtend 16) ++ [0x0000] ∧
      t.session = .idle ∧ t.count = 0 ∧ t.overflow = s.overflow

/-! ### Rules about the whole machine -/

/-- R55, R241: `session` goes from `Idle` to `Active` by `START`, from `Active` to `Draining` by `STOP`, from `Draining` to
`Idle` by a `POP` that answers `None`, and no command moves it otherwise. -/
def Obligations.SessionMovesOnlyByItsCommands : Prop :=
  ∀ (i : Instr) (s t : State), exec i s = .next t → t.session ≠ s.session →
    (i = .start ∧ s.session = .idle ∧ t.session = .active) ∨
    (i = .stop ∧ s.session = .active ∧ t.session = .draining) ∨
    (i = .pop ∧ s.session = .draining ∧ t.session = .idle ∧ s.sink = t.sink ∧ t.cResponses = s.cResponses ++ [0x0000])

/-- R275, R32, R42, R34: which commands may write which state. (`PUSH` and `FINAL` leave their `Enq` steps to the
producer's next steps, which write `buf`, `tail`, `count`, `overflow` alone.) -/
def Obligations.CommandsWriteOnlyTheirOwnState : Prop :=
  ∀ (i : Instr) (s t : State), exec i s = .next t →
    (i ∉ ([.qclear, .start, .stop] : List Instr) → (∀ v, i ≠ .enq v) →
      t.buf = s.buf ∧ t.tail = s.tail ∧ t.overflow = s.overflow) ∧
    (i ∉ ([.deq, .pop, .qclear, .start] : List Instr) → t.head = s.head) ∧
    (i ∉ ([.deq, .pop, .qclear, .start, .stop] : List Instr) → (∀ v, i ≠ .enq v) → t.count = s.count) ∧
    (i ∉ ([.final, .qclear, .start, .stop] : List Instr) → (∀ v, i ≠ .push v) →
      t.stackedBits = s.stackedBits ∧ t.stackFill = s.stackFill ∧ t.firstSample = s.firstSample ∧
      t.previousSample = s.previousSample ∧ t.interruptCount = s.interruptCount) ∧
    (i ∉ ([.qclear, .start] : List Instr) → t.stackMask = s.stackMask) ∧
    ((∀ n, i ≠ .cfgch n) → t.cfgChannelCount = s.cfgChannelCount) ∧
    ((∀ n, i ≠ .cfgrate n) → t.cfgSampleRateHz = s.cfgSampleRateHz) ∧
    ((∀ n, i ≠ .cfgdur n) → t.cfgSessionDurationMs = s.cfgSessionDurationMs) ∧
    ((∀ n, i ≠ .cfgmode n) → t.cfgMode = s.cfgMode) ∧
    ((∀ n, i ≠ .cfgcmp n) → t.cfgCompressionEnabled = s.cfgCompressionEnabled) ∧
    (i ∉ ([.cinit, .cflush, .start, .pop] : List Instr) → (∀ b, i ≠ .cbyte b) →
      t.hashTable = s.hashTable ∧ t.codeTable = s.codeTable ∧ t.freeEntry = s.freeEntry ∧
      t.currentPhraseCode = s.currentPhraseCode ∧ t.outByte = s.outByte ∧ t.outBits = s.outBits ∧
      t.firstByte = s.firstByte ∧ t.cmpReady = s.cmpReady ∧ t.sink = s.sink) ∧
    (i ∉ ([.start, .stop, .pop] : List Instr) → t.session = s.session)

/-- R5, R31, R80, R275: a step of one agent leaves the other's commands, answers and command in progress alone, and no step
of P changes what only C's commands write. -/
def Obligations.AgentsMoveOnlyTheirOwnState : Prop :=
  ∀ (s t : State) (rest : List Port), step s = .next t →
    (s.turns = .c :: rest →
      t.pCmds = s.pCmds ∧ t.pResponses = s.pResponses ∧ t.pPending = s.pPending ∧ t.turns = rest) ∧
    (s.turns = .p :: rest →
      t.cCmds = s.cCmds ∧ t.cResponses = s.cResponses ∧ t.turns = rest ∧ t.head = s.head ∧
      t.stackMask = s.stackMask ∧ t.cfgChannelCount = s.cfgChannelCount ∧ t.cfgMode = s.cfgMode ∧
      t.cfgSampleRateHz = s.cfgSampleRateHz ∧ t.cfgSessionDurationMs = s.cfgSessionDurationMs ∧
      t.cfgCompressionEnabled = s.cfgCompressionEnabled ∧ t.hashTable = s.hashTable ∧ t.codeTable = s.codeTable ∧
      t.freeEntry = s.freeEntry ∧ t.currentPhraseCode = s.currentPhraseCode ∧ t.outByte = s.outByte ∧
      t.outBits = s.outBits ∧ t.firstByte = s.firstByte ∧ t.cmpReady = s.cmpReady ∧ t.session = s.session ∧
      t.sink = s.sink ∧ t.producerRaced = s.producerRaced)

/-- R260, R262, R265: a command answered `INVALID_CONFIGURATION` or `REFUSED` changes no state. -/
def Obligations.RejectedCommandsChangeNothing : Prop :=
  ∀ (i : Instr) (s t : State), exec i s = .next t →
    t.cResponses = s.cResponses ++ [0x3000] ∨ t.cResponses = s.cResponses ++ [0x4000] →
    t = { s with cResponses := t.cResponses }

/-- R119, R6: a command answers with one response word of the right shape at the port it was issued at, and with none at
the other; a `PUSH` or `FINAL` with bytes to enqueue answers when its last byte has been tried (R81). -/
def Obligations.EveryCommandAnswersOnceAtItsPort : Prop :=
  ∀ (i : Instr) (s t : State), exec i s = .next t → s.pPending = [] →
    (i.port = .c → t.pResponses = s.pResponses ∧ t.pPending = [] ∧
      ∃ r, responseShape r ∧ t.cResponses = s.cResponses ++ [r]) ∧
    (i.port = .p → t.cResponses = s.cResponses ∧
      ((t.pPending = [] ∧ ∃ r, responseShape r ∧ t.pResponses = s.pResponses ++ [r]) ∨
        (t.pPending ≠ [] ∧ t.pResponses = s.pResponses)))

/-- R290: the power-on values the rule gives (the others are the model's choice, log entries 4 to 6, and are not stated). -/
def Obligations.ResetHoldsThePowerOnValues : Prop :=
  let r := State.reset
  r.head = 0 ∧ r.tail = 0 ∧ r.count = 0 ∧ r.overflow = false ∧ r.stackedBits = 0 ∧ r.stackFill = 0 ∧
  r.previousSample = 0 ∧ r.interruptCount = 0 ∧ r.firstSample = true ∧ r.cmpReady = false ∧
  r.session = .idle ∧ r.sink = []

/-- R140, R200: the invariant of the block holds in every power-on state, whatever the registers and memories that R290
leaves unspecified hold, `State.reset` among them. -/
def Obligations.PowerOnStatesMeetTheInvariant : Prop :=
  PowerOn reference State.reset ∧ ∀ s : State, PowerOn reference s → Inv reference s

/-- R140, R200: every step from a state that meets the invariant leaves one that does: occupancy and indices, the canonical
form of the three memories, and the compressor's table, phrase and packer invariants. -/
def Obligations.EveryStepKeepsTheInvariant : Prop :=
  ∀ s t : State, Inv reference s → step s = .next t → Inv reference t

/-- R204, R266, R260: from a state that meets the invariant every step has a next state: no command word at either port
stops the block, and the probe is never exhausted. -/
def Obligations.NoStepFaultsUnderTheInvariant : Prop :=
  ∀ s : State, Inv reference s → ∃ t, step s = .next t

/-- R292, U7: from power-on, the commands that R292 calls fully defined give the same answers and leave the same specified
registers whatever the unspecified registers and memories hold. -/
def Obligations.UnspecifiedPowerOnValuesAreNotObserved : Prop :=
  ∀ (i : Instr) (s s' t t' : State), PowerOn reference s → PowerOn reference s' →
    (∀ v, i ≠ .push v) → i ∉ ([.final, .qclear, .start, .stop, .pop] : List Instr) →
    exec i s = .next t → exec i s' = .next t' →
    t.pResponses = t'.pResponses ∧ t.cResponses = t'.cResponses ∧ t.head = t'.head ∧ t.tail = t'.tail ∧
    t.count = t'.count ∧ t.overflow = t'.overflow ∧ t.session = t'.session ∧ t.cmpReady = t'.cmpReady ∧
    t.sink = t'.sink ∧ t.interruptCount = t'.interruptCount ∧ queueBytes reference t = queueBytes reference t'
end

