-- ==== Sys2Proof/Laws/Memory.lean ====
section
/-! SUPPORT. The laws of the memories: read after write, and that every operation keeps the canonical form. -/

namespace Sys2Proof.Machine.Memory

variable {w : Nat} {d : BitVec w}

@[simp] theorem read_nil (a : Nat) : Memory.read d [] a = d := rfl

theorem read_cons (k : Nat) (x : BitVec w) (m : Memory w) (a : Nat) :
    Memory.read d ((k, x) :: m) a = if a = k then x else Memory.read d m a := rfl

theorem read_erase_same (m : Memory w) (a : Nat) : Memory.read d (Memory.erase m a) a = d := by
  induction m with
  | nil => rfl
  | cons c m ih =>
    obtain ⟨k, x⟩ := c
    unfold Memory.erase at *
    by_cases h : k = a
    · simpa [h] using ih
    · have h' : ¬a = k := fun e => h e.symm
      simp [h, h', read_cons, ih]

theorem read_erase_other (m : Memory w) {a b : Nat} (hab : b ≠ a) :
    Memory.read d (Memory.erase m a) b = Memory.read d m b := by
  induction m with
  | nil => rfl
  | cons c m ih =>
    obtain ⟨k, x⟩ := c
    unfold Memory.erase at *
    by_cases h : k = a
    · subst h; simp [read_cons, hab, ih]
    · simp [h, read_cons, ih]

theorem read_insert_same (m : Memory w) (a : Nat) (v : BitVec w) : Memory.read d (Memory.insert m a v) a = v := by
  induction m with
  | nil => simp [Memory.insert, read_cons]
  | cons c m ih =>
    obtain ⟨k, x⟩ := c
    unfold Memory.insert
    split
    · simp [read_cons]
    · split
      · simp [read_cons]
      · simp [read_cons, *]

theorem read_insert_other (m : Memory w) {a b : Nat} (v : BitVec w) (hab : b ≠ a) :
    Memory.read d (Memory.insert m a v) b = Memory.read d m b := by
  induction m with
  | nil => simp [Memory.insert, read_cons, hab]
  | cons c m ih =>
    obtain ⟨k, x⟩ := c
    unfold Memory.insert
    split
    · simp [read_cons, hab]
    · split
      · rename_i h; subst h; simp [read_cons, hab]
      · simp [read_cons, ih]

/-- A read after a write to the same element gives the value written. -/
@[simp] theorem read_write_same (m : Memory w) (a : Nat) (v : BitVec w) :
    Memory.read d (Memory.write d m a v) a = v := by
  unfold Memory.write
  split
  · rename_i h; rw [read_erase_same, h]
  · exact read_insert_same m a v

/-- A write leaves every other element alone. -/
theorem read_write_other (m : Memory w) {a b : Nat} (v : BitVec w) (hab : b ≠ a) :
    Memory.read d (Memory.write d m a v) b = Memory.read d m b := by
  unfold Memory.write
  split
  · exact read_erase_other m hab
  · exact read_insert_other m v hab

theorem mem_erase {m : Memory w} {a : Nat} {c : Nat × BitVec w} : c ∈ Memory.erase m a ↔ c ∈ m ∧ c.1 ≠ a := by
  simp [Memory.erase]

/-- An entry after an insertion is the new one or an older one at another index. -/
theorem mem_insert_imp {m : Memory w} {a : Nat} {v : BitVec w} {c : Nat × BitVec w}
    (h : c ∈ Memory.insert m a v) : c = (a, v) ∨ c ∈ m := by
  induction m with
  | nil => simpa [Memory.insert] using h
  | cons e m ih =>
    obtain ⟨k, x⟩ := e
    unfold Memory.insert at h
    split at h
    · simpa using h
    · split at h
      · rcases List.mem_cons.1 h with h | h
        · exact .inl h
        · exact .inr (List.mem_cons_of_mem _ h)
      · rcases List.mem_cons.1 h with h | h
        · exact .inr (h ▸ List.mem_cons_self)
        · exact (ih h).imp id (List.mem_cons_of_mem _)

theorem insert_sorted {m : Memory w} {a : Nat} {v : BitVec w} (h : (m.map Prod.fst).Pairwise (· < ·)) :
    ((Memory.insert m a v).map Prod.fst).Pairwise (· < ·) := by
  induction m with
  | nil => simp [Memory.insert]
  | cons e m ih =>
    obtain ⟨k, x⟩ := e
    simp only [List.map_cons, List.pairwise_cons] at h
    unfold Memory.insert
    split
    · rename_i hlt
      simp only [List.map_cons, List.pairwise_cons]
      refine ⟨?_, h⟩
      intro b hb
      rcases List.mem_cons.1 hb with hb | hb
      · omega
      · have := h.1 b hb; omega
    · split
      · rename_i hk; subst hk
        simpa only [List.map_cons, List.pairwise_cons] using h
      · simp only [List.map_cons, List.pairwise_cons]
        refine ⟨?_, ih h.2⟩
        intro b hb
        obtain ⟨c, hc, rfl⟩ := List.mem_map.1 hb
        rcases mem_insert_imp hc with rfl | hc
        · simp only; omega
        · exact h.1 _ (List.mem_map_of_mem hc)

/-- A write at an index of the memory keeps the canonical form. -/
theorem write_wf {size : Nat} {m : Memory w} {a : Nat} (v : BitVec w) (h : Memory.wf d size m) (ha : a < size) :
    Memory.wf d size (Memory.write d m a v) := by
  unfold Memory.write
  split
  · refine ⟨?_, fun c hc => h.2 c (mem_erase.1 hc).1⟩
    exact h.1.sublist (List.Sublist.map Prod.fst List.filter_sublist)
  · rename_i hv
    refine ⟨insert_sorted h.1, fun c hc => ?_⟩
    rcases mem_insert_imp hc with rfl | hc
    · exact ⟨ha, hv⟩
    · exact h.2 c hc

/-- The empty list has the canonical form. -/
@[simp] theorem nil_wf (size : Nat) : Memory.wf d size ([] : Memory w) := ⟨List.Pairwise.nil, by simp⟩

/-- In canonical form a listed element is one that does not read as `d`, and it reads as its entry says. -/
theorem read_of_mem {size : Nat} {m : Memory w} (h : Memory.wf d size m) {c : Nat × BitVec w} (hc : c ∈ m) :
    Memory.read d m c.1 = c.2 := by
  induction m with
  | nil => simp at hc
  | cons e m ih =>
    obtain ⟨k, x⟩ := e
    have hs := h.1
    simp only [List.map_cons, List.pairwise_cons] at hs
    rcases List.mem_cons.1 hc with rfl | hc
    · simp [read_cons]
    · have hk : k < c.1 := hs.1 _ (List.mem_map_of_mem hc)
      rw [read_cons, if_neg (by omega)]
      exact ih ⟨hs.2, fun c hc => h.2 c (List.mem_cons_of_mem _ hc)⟩ hc

/-- An element that does not read as `d` is listed. -/
theorem mem_of_read_ne {m : Memory w} {a : Nat} (h : Memory.read d m a ≠ d) : (a, Memory.read d m a) ∈ m := by
  induction m with
  | nil => simp at h
  | cons e m ih =>
    obtain ⟨k, x⟩ := e
    rw [read_cons] at h ⊢
    split at h
    · rename_i hk; simp [hk]
    · rename_i hk; rw [if_neg hk]; exact List.mem_cons_of_mem _ (ih h)

/-- Writing a new value at an element that reads as `d` lists one entry more. -/
theorem length_write_fresh {m : Memory w} {a : Nat} {v : BitVec w} (hs : ∀ c ∈ m, c.1 ≠ a) (hv : v ≠ d) :
    (Memory.write d m a v).length = m.length + 1 := by
  rw [Memory.write, if_neg hv]
  induction m with
  | nil => rfl
  | cons e m ih =>
    obtain ⟨k, x⟩ := e
    have hk : a ≠ k := fun h => hs (k, x) List.mem_cons_self h.symm
    have := ih (fun c hc => hs c (List.mem_cons_of_mem _ hc))
    unfold Memory.insert
    split
    · rfl
    · simp [this]

end Sys2Proof.Machine.Memory
end

