-- ==== Sys2Proof/Laws/Config.lean ====
section
/-! SUPPORT. The values of the reference parameters (spec/00_scope.md R7) and the truth of R8 for them. -/

namespace Sys2Proof

@[simp] theorem reference_qsize : reference.qsize = 4096 := rfl
@[simp] theorem reference_stackLimit : reference.stackLimit = 4 := rfl
@[simp] theorem reference_rolloverPeriod : reference.rolloverPeriod = 65536 := rfl
@[simp] theorem reference_icWidth : reference.icWidth = 32 := rfl
@[simp] theorem reference_markSample : reference.markSample = 0xBD := rfl
@[simp] theorem reference_markRollover : reference.markRollover = 0xBE := rfl
@[simp] theorem reference_nbits : reference.nbits = 13 := rfl
@[simp] theorem reference_maxCode : reference.maxCode = 8191 := rfl
@[simp] theorem reference_eosCode : reference.eosCode = 8191 := rfl
@[simp] theorem reference_clearCode : reference.clearCode = 256 := rfl
@[simp] theorem reference_firstFree : reference.firstFree = 257 := rfl
@[simp] theorem reference_hashSize : reference.hashSize = 9001 := rfl
@[simp] theorem reference_hshift : reference.hshift = 5 := rfl
@[simp] theorem reference_empty : reference.empty = 0xFFFFFFFF := rfl

/-- The reference set meets R8, so `CMP_INIT_OK` is true on this hardware. -/
@[simp] theorem reference_cmpInitOk : reference.cmpInitOk = true := by decide +kernel

/-- What the trial division establishes: no divisor from `d` on up to the square root. -/
theorem noDivisorFrom_sound (n : Nat) : ∀ fuel d, noDivisorFrom n fuel d = true → n ≤ fuel + d →
    ∀ m, d ≤ m → m * m ≤ n → 2 ≤ d → n % m ≠ 0 := by
  intro fuel
  induction fuel with
  | zero =>
    intro d _ hf m hm hmm hd
    have : m * 2 ≤ m * m := Nat.mul_le_mul_left m (by omega)
    omega
  | succ fuel ih =>
    intro d h hf m hm hmm hd
    unfold noDivisorFrom at h
    split at h
    · have : d * d ≤ m * m := Nat.mul_le_mul hm hm
      omega
    · split at h
      · simp at h
      · rcases Nat.eq_or_lt_of_le hm with rfl | hlt
        · assumption
        · exact ih (d + 1) h (by omega) m hlt hmm (by omega)

/-- `isPrime` is primality. -/
theorem isPrime_sound {n : Nat} (h : isPrime n = true) : n.Prime := by
  simp only [isPrime, Bool.and_eq_true, decide_eq_true_eq] at h
  obtain ⟨h2, hd⟩ := h
  by_contra hp
  obtain ⟨m, hm, hmm⟩ : ∃ m, m.Prime ∧ m ∣ n ∧ m * m ≤ n :=
    ⟨n.minFac, Nat.minFac_prime (by omega), Nat.minFac_dvd n, by
      have := Nat.minFac_sq_le_self (by omega) hp
      simpa [sq] using this⟩
  exact noDivisorFrom_sound n n 2 hd (by omega) m hm.two_le hmm.2 (le_refl 2) (Nat.mod_eq_zero_of_dvd hmm.1)

end Sys2Proof
end

