-- ==== Sys2Proof/Laws/Response.lean ====
section
/-! SUPPORT. The response words as numbers (spec/30_encoding.md R119) and the occupancy predicates as facts about
`count`. -/

namespace Sys2Proof.Machine

@[simp] theorem respOk_eq : respOk = 0x0000 := by decide
@[simp] theorem respNone_eq : respNone = 0x0000 := by decide
@[simp] theorem respBool_true : respBool true = 0x0101 := by decide
@[simp] theorem respBool_false : respBool false = 0x0100 := by decide
@[simp] theorem respError_queueOverflow : respError .queueOverflow = 0x1000 := by decide
@[simp] theorem respError_compressorInitFailure : respError .compressorInitFailure = 0x2000 := by decide
@[simp] theorem respError_invalidConfiguration : respError .invalidConfiguration = 0x3000 := by decide
@[simp] theorem respError_refused : respError .refused = 0x4000 := by decide
@[simp] theorem respError_illegalCommand : respError .illegalCommand = 0xF000 := by decide

/-- `Some(v)` = 0x0100 | `v`. -/
theorem respSome_eq (v : Byte) : respSome v = 0x0100 ||| v.zeroExtend 16 := by
  revert v
  decide +kernel

theorem isEmpty_iff (s : State) : isEmpty s = true ↔ s.count = 0 := by simp [isEmpty]

theorem isFull_iff (P : Params) (s : State) : isFull P s = true ↔ s.count.toNat = P.qsize := by simp [isFull]

end Sys2Proof.Machine
end

