-- ==== Sys2Proof/Laws/State.lean ====
section
/-! SUPPORT. One lemma for each field of the state and each shared update of it: what `respond`, `raiseError`, `noteIssue`
and `emit` leave, so that no later proof unfolds them. -/

namespace Sys2Proof.Machine

@[simp] theorem respond_cfgChannelCount (port : Port) (r : RespWord) (s : State) : (respond port r s).cfgChannelCount = s.cfgChannelCount :=
  match port with | .p => rfl | .c => rfl

@[simp] theorem respond_cfgSampleRateHz (port : Port) (r : RespWord) (s : State) : (respond port r s).cfgSampleRateHz = s.cfgSampleRateHz :=
  match port with | .p => rfl | .c => rfl

@[simp] theorem respond_cfgSessionDurationMs (port : Port) (r : RespWord) (s : State) : (respond port r s).cfgSessionDurationMs = s.cfgSessionDurationMs :=
  match port with | .p => rfl | .c => rfl

@[simp] theorem respond_cfgCompressionEnabled (port : Port) (r : RespWord) (s : State) : (respond port r s).cfgCompressionEnabled = s.cfgCompressionEnabled :=
  match port with | .p => rfl | .c => rfl

@[simp] theorem respond_cfgMode (port : Port) (r : RespWord) (s : State) : (respond port r s).cfgMode = s.cfgMode :=
  match port with | .p => rfl | .c => rfl

@[simp] theorem respond_buf (port : Port) (r : RespWord) (s : State) : (respond port r s).buf = s.buf :=
  match port with | .p => rfl | .c => rfl

@[simp] theorem respond_head (port : Port) (r : RespWord) (s : State) : (respond port r s).head = s.head :=
  match port with | .p => rfl | .c => rfl

@[simp] theorem respond_tail (port : Port) (r : RespWord) (s : State) : (respond port r s).tail = s.tail :=
  match port with | .p => rfl | .c => rfl

@[simp] theorem respond_count (port : Port) (r : RespWord) (s : State) : (respond port r s).count = s.count :=
  match port with | .p => rfl | .c => rfl

@[simp] theorem respond_overflow (port : Port) (r : RespWord) (s : State) : (respond port r s).overflow = s.overflow :=
  match port with | .p => rfl | .c => rfl

@[simp] theorem respond_stackedBits (port : Port) (r : RespWord) (s : State) : (respond port r s).stackedBits = s.stackedBits :=
  match port with | .p => rfl | .c => rfl

@[simp] theorem respond_stackFill (port : Port) (r : RespWord) (s : State) : (respond port r s).stackFill = s.stackFill :=
  match port with | .p => rfl | .c => rfl

@[simp] theorem respond_stackMask (port : Port) (r : RespWord) (s : State) : (respond port r s).stackMask = s.stackMask :=
  match port with | .p => rfl | .c => rfl

@[simp] theorem respond_firstSample (port : Port) (r : RespWord) (s : State) : (respond port r s).firstSample = s.firstSample :=
  match port with | .p => rfl | .c => rfl

@[simp] theorem respond_previousSample (port : Port) (r : RespWord) (s : State) : (respond port r s).previousSample = s.previousSample :=
  match port with | .p => rfl | .c => rfl

@[simp] theorem respond_interruptCount (port : Port) (r : RespWord) (s : State) : (respond port r s).interruptCount = s.interruptCount :=
  match port with | .p => rfl | .c => rfl

@[simp] theorem respond_hashTable (port : Port) (r : RespWord) (s : State) : (respond port r s).hashTable = s.hashTable :=
  match port with | .p => rfl | .c => rfl

@[simp] theorem respond_codeTable (port : Port) (r : RespWord) (s : State) : (respond port r s).codeTable = s.codeTable :=
  match port with | .p => rfl | .c => rfl

@[simp] theorem respond_freeEntry (port : Port) (r : RespWord) (s : State) : (respond port r s).freeEntry = s.freeEntry :=
  match port with | .p => rfl | .c => rfl

@[simp] theorem respond_currentPhraseCode (port : Port) (r : RespWord) (s : State) : (respond port r s).currentPhraseCode = s.currentPhraseCode :=
  match port with | .p => rfl | .c => rfl

@[simp] theorem respond_outByte (port : Port) (r : RespWord) (s : State) : (respond port r s).outByte = s.outByte :=
  match port with | .p => rfl | .c => rfl

@[simp] theorem respond_outBits (port : Port) (r : RespWord) (s : State) : (respond port r s).outBits = s.outBits :=
  match port with | .p => rfl | .c => rfl

@[simp] theorem respond_firstByte (port : Port) (r : RespWord) (s : State) : (respond port r s).firstByte = s.firstByte :=
  match port with | .p => rfl | .c => rfl

@[simp] theorem respond_cmpReady (port : Port) (r : RespWord) (s : State) : (respond port r s).cmpReady = s.cmpReady :=
  match port with | .p => rfl | .c => rfl

@[simp] theorem respond_session (port : Port) (r : RespWord) (s : State) : (respond port r s).session = s.session :=
  match port with | .p => rfl | .c => rfl

@[simp] theorem respond_sink (port : Port) (r : RespWord) (s : State) : (respond port r s).sink = s.sink :=
  match port with | .p => rfl | .c => rfl

@[simp] theorem respond_pPending (port : Port) (r : RespWord) (s : State) : (respond port r s).pPending = s.pPending :=
  match port with | .p => rfl | .c => rfl

@[simp] theorem respond_pCmds (port : Port) (r : RespWord) (s : State) : (respond port r s).pCmds = s.pCmds :=
  match port with | .p => rfl | .c => rfl

@[simp] theorem respond_cCmds (port : Port) (r : RespWord) (s : State) : (respond port r s).cCmds = s.cCmds :=
  match port with | .p => rfl | .c => rfl

@[simp] theorem respond_turns (port : Port) (r : RespWord) (s : State) : (respond port r s).turns = s.turns :=
  match port with | .p => rfl | .c => rfl

@[simp] theorem respond_producerRaced (port : Port) (r : RespWord) (s : State) : (respond port r s).producerRaced = s.producerRaced :=
  match port with | .p => rfl | .c => rfl

@[simp] theorem respond_p_pResponses (r : RespWord) (s : State) :
    (respond .p r s).pResponses = s.pResponses ++ [r] := rfl

@[simp] theorem respond_p_cResponses (r : RespWord) (s : State) : (respond .p r s).cResponses = s.cResponses := rfl

@[simp] theorem respond_c_pResponses (r : RespWord) (s : State) : (respond .c r s).pResponses = s.pResponses := rfl

@[simp] theorem respond_c_cResponses (r : RespWord) (s : State) :
    (respond .c r s).cResponses = s.cResponses ++ [r] := rfl

/-- A response at port C is one word more in its response list, and nothing else. -/
theorem respond_c_eq (r : RespWord) (s : State) : respond .c r s = { s with cResponses := s.cResponses ++ [r] } := rfl

/-- A response at port P is one word more in its response list, and nothing else. -/
theorem respond_p_eq (r : RespWord) (s : State) : respond .p r s = { s with pResponses := s.pResponses ++ [r] } := rfl

/-- An error is its response. -/
theorem raiseError_eq (port : Port) (e : Status) (s : State) : raiseError port e s = respond port (respError e) s := rfl

/-- A note changes the hazard flag alone. -/
theorem noteIssue_eq (i : Instr) (s : State) :
    noteIssue i s =
      { s with producerRaced := s.producerRaced || (needsQuiescentProducer i && !s.pPending.isEmpty) } := by
  unfold noteIssue
  cases needsQuiescentProducer i && !s.pPending.isEmpty <;> cases s <;> simp

@[simp] theorem noteIssue_cfgChannelCount (i : Instr) (s : State) : (noteIssue i s).cfgChannelCount = s.cfgChannelCount := by
  rw [noteIssue_eq]

@[simp] theorem noteIssue_cfgSampleRateHz (i : Instr) (s : State) : (noteIssue i s).cfgSampleRateHz = s.cfgSampleRateHz := by
  rw [noteIssue_eq]

@[simp] theorem noteIssue_cfgSessionDurationMs (i : Instr) (s : State) : (noteIssue i s).cfgSessionDurationMs = s.cfgSessionDurationMs := by
  rw [noteIssue_eq]

@[simp] theorem noteIssue_cfgCompressionEnabled (i : Instr) (s : State) : (noteIssue i s).cfgCompressionEnabled = s.cfgCompressionEnabled := by
  rw [noteIssue_eq]

@[simp] theorem noteIssue_cfgMode (i : Instr) (s : State) : (noteIssue i s).cfgMode = s.cfgMode := by
  rw [noteIssue_eq]

@[simp] theorem noteIssue_buf (i : Instr) (s : State) : (noteIssue i s).buf = s.buf := by
  rw [noteIssue_eq]

@[simp] theorem noteIssue_head (i : Instr) (s : State) : (noteIssue i s).head = s.head := by
  rw [noteIssue_eq]

@[simp] theorem noteIssue_tail (i : Instr) (s : State) : (noteIssue i s).tail = s.tail := by
  rw [noteIssue_eq]

@[simp] theorem noteIssue_count (i : Instr) (s : State) : (noteIssue i s).count = s.count := by
  rw [noteIssue_eq]

@[simp] theorem noteIssue_overflow (i : Instr) (s : State) : (noteIssue i s).overflow = s.overflow := by
  rw [noteIssue_eq]

@[simp] theorem noteIssue_stackedBits (i : Instr) (s : State) : (noteIssue i s).stackedBits = s.stackedBits := by
  rw [noteIssue_eq]

@[simp] theorem noteIssue_stackFill (i : Instr) (s : State) : (noteIssue i s).stackFill = s.stackFill := by
  rw [noteIssue_eq]

@[simp] theorem noteIssue_stackMask (i : Instr) (s : State) : (noteIssue i s).stackMask = s.stackMask := by
  rw [noteIssue_eq]

@[simp] theorem noteIssue_firstSample (i : Instr) (s : State) : (noteIssue i s).firstSample = s.firstSample := by
  rw [noteIssue_eq]

@[simp] theorem noteIssue_previousSample (i : Instr) (s : State) : (noteIssue i s).previousSample = s.previousSample := by
  rw [noteIssue_eq]

@[simp] theorem noteIssue_interruptCount (i : Instr) (s : State) : (noteIssue i s).interruptCount = s.interruptCount := by
  rw [noteIssue_eq]

@[simp] theorem noteIssue_hashTable (i : Instr) (s : State) : (noteIssue i s).hashTable = s.hashTable := by
  rw [noteIssue_eq]

@[simp] theorem noteIssue_codeTable (i : Instr) (s : State) : (noteIssue i s).codeTable = s.codeTable := by
  rw [noteIssue_eq]

@[simp] theorem noteIssue_freeEntry (i : Instr) (s : State) : (noteIssue i s).freeEntry = s.freeEntry := by
  rw [noteIssue_eq]

@[simp] theorem noteIssue_currentPhraseCode (i : Instr) (s : State) : (noteIssue i s).currentPhraseCode = s.currentPhraseCode := by
  rw [noteIssue_eq]

@[simp] theorem noteIssue_outByte (i : Instr) (s : State) : (noteIssue i s).outByte = s.outByte := by
  rw [noteIssue_eq]

@[simp] theorem noteIssue_outBits (i : Instr) (s : State) : (noteIssue i s).outBits = s.outBits := by
  rw [noteIssue_eq]

@[simp] theorem noteIssue_firstByte (i : Instr) (s : State) : (noteIssue i s).firstByte = s.firstByte := by
  rw [noteIssue_eq]

@[simp] theorem noteIssue_cmpReady (i : Instr) (s : State) : (noteIssue i s).cmpReady = s.cmpReady := by
  rw [noteIssue_eq]

@[simp] theorem noteIssue_session (i : Instr) (s : State) : (noteIssue i s).session = s.session := by
  rw [noteIssue_eq]

@[simp] theorem noteIssue_sink (i : Instr) (s : State) : (noteIssue i s).sink = s.sink := by
  rw [noteIssue_eq]

@[simp] theorem noteIssue_pPending (i : Instr) (s : State) : (noteIssue i s).pPending = s.pPending := by
  rw [noteIssue_eq]

@[simp] theorem noteIssue_pCmds (i : Instr) (s : State) : (noteIssue i s).pCmds = s.pCmds := by
  rw [noteIssue_eq]

@[simp] theorem noteIssue_cCmds (i : Instr) (s : State) : (noteIssue i s).cCmds = s.cCmds := by
  rw [noteIssue_eq]

@[simp] theorem noteIssue_pResponses (i : Instr) (s : State) : (noteIssue i s).pResponses = s.pResponses := by
  rw [noteIssue_eq]

@[simp] theorem noteIssue_cResponses (i : Instr) (s : State) : (noteIssue i s).cResponses = s.cResponses := by
  rw [noteIssue_eq]

@[simp] theorem noteIssue_turns (i : Instr) (s : State) : (noteIssue i s).turns = s.turns := by
  rw [noteIssue_eq]

/-- The note of a hazard: the flag is set exactly when a P command is in progress at such a command. -/
@[simp] theorem noteIssue_producerRaced (i : Instr) (s : State) :
    (noteIssue i s).producerRaced = (s.producerRaced || (needsQuiescentProducer i && !s.pPending.isEmpty)) :=
  congrArg State.producerRaced (noteIssue_eq i s)

/-- With the producer quiescent a command is issued on the state as it is. -/
theorem noteIssue_quiescent (i : Instr) (s : State) (h : s.pPending = []) : noteIssue i s = s := by
  simp [noteIssue, h]

@[simp] theorem emit_cfgChannelCount (v : Byte) (s : State) : (emit v s).cfgChannelCount = s.cfgChannelCount := rfl

@[simp] theorem emit_cfgSampleRateHz (v : Byte) (s : State) : (emit v s).cfgSampleRateHz = s.cfgSampleRateHz := rfl

@[simp] theorem emit_cfgSessionDurationMs (v : Byte) (s : State) : (emit v s).cfgSessionDurationMs = s.cfgSessionDurationMs := rfl

@[simp] theorem emit_cfgCompressionEnabled (v : Byte) (s : State) : (emit v s).cfgCompressionEnabled = s.cfgCompressionEnabled := rfl

@[simp] theorem emit_cfgMode (v : Byte) (s : State) : (emit v s).cfgMode = s.cfgMode := rfl

@[simp] theorem emit_buf (v : Byte) (s : State) : (emit v s).buf = s.buf := rfl

@[simp] theorem emit_head (v : Byte) (s : State) : (emit v s).head = s.head := rfl

@[simp] theorem emit_tail (v : Byte) (s : State) : (emit v s).tail = s.tail := rfl

@[simp] theorem emit_count (v : Byte) (s : State) : (emit v s).count = s.count := rfl

@[simp] theorem emit_overflow (v : Byte) (s : State) : (emit v s).overflow = s.overflow := rfl

@[simp] theorem emit_stackedBits (v : Byte) (s : State) : (emit v s).stackedBits = s.stackedBits := rfl

@[simp] theorem emit_stackFill (v : Byte) (s : State) : (emit v s).stackFill = s.stackFill := rfl

@[simp] theorem emit_stackMask (v : Byte) (s : State) : (emit v s).stackMask = s.stackMask := rfl

@[simp] theorem emit_firstSample (v : Byte) (s : State) : (emit v s).firstSample = s.firstSample := rfl

@[simp] theorem emit_previousSample (v : Byte) (s : State) : (emit v s).previousSample = s.previousSample := rfl

@[simp] theorem emit_interruptCount (v : Byte) (s : State) : (emit v s).interruptCount = s.interruptCount := rfl

@[simp] theorem emit_hashTable (v : Byte) (s : State) : (emit v s).hashTable = s.hashTable := rfl

@[simp] theorem emit_codeTable (v : Byte) (s : State) : (emit v s).codeTable = s.codeTable := rfl

@[simp] theorem emit_freeEntry (v : Byte) (s : State) : (emit v s).freeEntry = s.freeEntry := rfl

@[simp] theorem emit_currentPhraseCode (v : Byte) (s : State) : (emit v s).currentPhraseCode = s.currentPhraseCode := rfl

@[simp] theorem emit_outByte (v : Byte) (s : State) : (emit v s).outByte = s.outByte := rfl

@[simp] theorem emit_outBits (v : Byte) (s : State) : (emit v s).outBits = s.outBits := rfl

@[simp] theorem emit_firstByte (v : Byte) (s : State) : (emit v s).firstByte = s.firstByte := rfl

@[simp] theorem emit_cmpReady (v : Byte) (s : State) : (emit v s).cmpReady = s.cmpReady := rfl

@[simp] theorem emit_session (v : Byte) (s : State) : (emit v s).session = s.session := rfl

@[simp] theorem emit_pPending (v : Byte) (s : State) : (emit v s).pPending = s.pPending := rfl

@[simp] theorem emit_pCmds (v : Byte) (s : State) : (emit v s).pCmds = s.pCmds := rfl

@[simp] theorem emit_cCmds (v : Byte) (s : State) : (emit v s).cCmds = s.cCmds := rfl

@[simp] theorem emit_pResponses (v : Byte) (s : State) : (emit v s).pResponses = s.pResponses := rfl

@[simp] theorem emit_cResponses (v : Byte) (s : State) : (emit v s).cResponses = s.cResponses := rfl

@[simp] theorem emit_turns (v : Byte) (s : State) : (emit v s).turns = s.turns := rfl

@[simp] theorem emit_producerRaced (v : Byte) (s : State) : (emit v s).producerRaced = s.producerRaced := rfl

@[simp] theorem emit_sink (v : Byte) (s : State) : (emit v s).sink = s.sink ++ [v] := rfl

/-! ### Frames: one state with a part taken from another -/

/-- `s` with what `Enq` writes taken from `t`. -/
def State.withQueueOf (s t : State) : State :=
  { s with buf := t.buf, tail := t.tail, count := t.count, overflow := t.overflow }

/-- `s` with the encoder registers of `EncStep` taken from `t`. -/
def State.withEncoderOf (s t : State) : State :=
  { s with
    stackedBits := t.stackedBits
    stackFill := t.stackFill
    firstSample := t.firstSample
    previousSample := t.previousSample
    interruptCount := t.interruptCount }

/-- `s` with what the bit packer writes taken from `t`. -/
def State.withPackerOf (s t : State) : State :=
  { s with sink := t.sink, outByte := t.outByte, outBits := t.outBits }

/-- `s` with every compressor register, both tables and `sink` taken from `t`. -/
def State.withCompressorOf (s t : State) : State :=
  { s with
    hashTable := t.hashTable
    codeTable := t.codeTable
    freeEntry := t.freeEntry
    currentPhraseCode := t.currentPhraseCode
    outByte := t.outByte
    outBits := t.outBits
    firstByte := t.firstByte
    cmpReady := t.cmpReady
    sink := t.sink }

theorem State.withQueueOf_trans (s t u : State) : (s.withQueueOf t).withQueueOf u = s.withQueueOf u := rfl

theorem State.withEncoderOf_trans (s t u : State) : (s.withEncoderOf t).withEncoderOf u = s.withEncoderOf u := rfl

theorem State.withPackerOf_trans (s t u : State) : (s.withPackerOf t).withPackerOf u = s.withPackerOf u := rfl

theorem State.withPackerOf_self (s : State) : s.withPackerOf s = s := rfl

theorem State.withCompressorOf_trans (s t u : State) :
    (s.withCompressorOf t).withCompressorOf u = s.withCompressorOf u := rfl


@[simp] theorem State.withQueueOf_cfgChannelCount (s t : State) : (s.withQueueOf t).cfgChannelCount = s.cfgChannelCount := rfl

@[simp] theorem State.withQueueOf_cfgSampleRateHz (s t : State) : (s.withQueueOf t).cfgSampleRateHz = s.cfgSampleRateHz := rfl

@[simp] theorem State.withQueueOf_cfgSessionDurationMs (s t : State) : (s.withQueueOf t).cfgSessionDurationMs = s.cfgSessionDurationMs := rfl

@[simp] theorem State.withQueueOf_cfgCompressionEnabled (s t : State) : (s.withQueueOf t).cfgCompressionEnabled = s.cfgCompressionEnabled := rfl

@[simp] theorem State.withQueueOf_cfgMode (s t : State) : (s.withQueueOf t).cfgMode = s.cfgMode := rfl

@[simp] theorem State.withQueueOf_buf (s t : State) : (s.withQueueOf t).buf = t.buf := rfl

@[simp] theorem State.withQueueOf_head (s t : State) : (s.withQueueOf t).head = s.head := rfl

@[simp] theorem State.withQueueOf_tail (s t : State) : (s.withQueueOf t).tail = t.tail := rfl

@[simp] theorem State.withQueueOf_count (s t : State) : (s.withQueueOf t).count = t.count := rfl

@[simp] theorem State.withQueueOf_overflow (s t : State) : (s.withQueueOf t).overflow = t.overflow := rfl

@[simp] theorem State.withQueueOf_stackedBits (s t : State) : (s.withQueueOf t).stackedBits = s.stackedBits := rfl

@[simp] theorem State.withQueueOf_stackFill (s t : State) : (s.withQueueOf t).stackFill = s.stackFill := rfl

@[simp] theorem State.withQueueOf_stackMask (s t : State) : (s.withQueueOf t).stackMask = s.stackMask := rfl

@[simp] theorem State.withQueueOf_firstSample (s t : State) : (s.withQueueOf t).firstSample = s.firstSample := rfl

@[simp] theorem State.withQueueOf_previousSample (s t : State) : (s.withQueueOf t).previousSample = s.previousSample := rfl

@[simp] theorem State.withQueueOf_interruptCount (s t : State) : (s.withQueueOf t).interruptCount = s.interruptCount := rfl

@[simp] theorem State.withQueueOf_hashTable (s t : State) : (s.withQueueOf t).hashTable = s.hashTable := rfl

@[simp] theorem State.withQueueOf_codeTable (s t : State) : (s.withQueueOf t).codeTable = s.codeTable := rfl

@[simp] theorem State.withQueueOf_freeEntry (s t : State) : (s.withQueueOf t).freeEntry = s.freeEntry := rfl

@[simp] theorem State.withQueueOf_currentPhraseCode (s t : State) : (s.withQueueOf t).currentPhraseCode = s.currentPhraseCode := rfl

@[simp] theorem State.withQueueOf_outByte (s t : State) : (s.withQueueOf t).outByte = s.outByte := rfl

@[simp] theorem State.withQueueOf_outBits (s t : State) : (s.withQueueOf t).outBits = s.outBits := rfl

@[simp] theorem State.withQueueOf_firstByte (s t : State) : (s.withQueueOf t).firstByte = s.firstByte := rfl

@[simp] theorem State.withQueueOf_cmpReady (s t : State) : (s.withQueueOf t).cmpReady = s.cmpReady := rfl

@[simp] theorem State.withQueueOf_session (s t : State) : (s.withQueueOf t).session = s.session := rfl

@[simp] theorem State.withQueueOf_sink (s t : State) : (s.withQueueOf t).sink = s.sink := rfl

@[simp] theorem State.withQueueOf_pPending (s t : State) : (s.withQueueOf t).pPending = s.pPending := rfl

@[simp] theorem State.withQueueOf_pCmds (s t : State) : (s.withQueueOf t).pCmds = s.pCmds := rfl

@[simp] theorem State.withQueueOf_cCmds (s t : State) : (s.withQueueOf t).cCmds = s.cCmds := rfl

@[simp] theorem State.withQueueOf_pResponses (s t : State) : (s.withQueueOf t).pResponses = s.pResponses := rfl

@[simp] theorem State.withQueueOf_cResponses (s t : State) : (s.withQueueOf t).cResponses = s.cResponses := rfl

@[simp] theorem State.withQueueOf_turns (s t : State) : (s.withQueueOf t).turns = s.turns := rfl

@[simp] theorem State.withQueueOf_producerRaced (s t : State) : (s.withQueueOf t).producerRaced = s.producerRaced := rfl

@[simp] theorem State.withEncoderOf_cfgChannelCount (s t : State) : (s.withEncoderOf t).cfgChannelCount = s.cfgChannelCount := rfl

@[simp] theorem State.withEncoderOf_cfgSampleRateHz (s t : State) : (s.withEncoderOf t).cfgSampleRateHz = s.cfgSampleRateHz := rfl

@[simp] theorem State.withEncoderOf_cfgSessionDurationMs (s t : State) : (s.withEncoderOf t).cfgSessionDurationMs = s.cfgSessionDurationMs := rfl

@[simp] theorem State.withEncoderOf_cfgCompressionEnabled (s t : State) : (s.withEncoderOf t).cfgCompressionEnabled = s.cfgCompressionEnabled := rfl

@[simp] theorem State.withEncoderOf_cfgMode (s t : State) : (s.withEncoderOf t).cfgMode = s.cfgMode := rfl

@[simp] theorem State.withEncoderOf_buf (s t : State) : (s.withEncoderOf t).buf = s.buf := rfl

@[simp] theorem State.withEncoderOf_head (s t : State) : (s.withEncoderOf t).head = s.head := rfl

@[simp] theorem State.withEncoderOf_tail (s t : State) : (s.withEncoderOf t).tail = s.tail := rfl

@[simp] theorem State.withEncoderOf_count (s t : State) : (s.withEncoderOf t).count = s.count := rfl

@[simp] theorem State.withEncoderOf_overflow (s t : State) : (s.withEncoderOf t).overflow = s.overflow := rfl

@[simp] theorem State.withEncoderOf_stackedBits (s t : State) : (s.withEncoderOf t).stackedBits = t.stackedBits := rfl

@[simp] theorem State.withEncoderOf_stackFill (s t : State) : (s.withEncoderOf t).stackFill = t.stackFill := rfl

@[simp] theorem State.withEncoderOf_stackMask (s t : State) : (s.withEncoderOf t).stackMask = s.stackMask := rfl

@[simp] theorem State.withEncoderOf_firstSample (s t : State) : (s.withEncoderOf t).firstSample = t.firstSample := rfl

@[simp] theorem State.withEncoderOf_previousSample (s t : State) : (s.withEncoderOf t).previousSample = t.previousSample := rfl

@[simp] theorem State.withEncoderOf_interruptCount (s t : State) : (s.withEncoderOf t).interruptCount = t.interruptCount := rfl

@[simp] theorem State.withEncoderOf_hashTable (s t : State) : (s.withEncoderOf t).hashTable = s.hashTable := rfl

@[simp] theorem State.withEncoderOf_codeTable (s t : State) : (s.withEncoderOf t).codeTable = s.codeTable := rfl

@[simp] theorem State.withEncoderOf_freeEntry (s t : State) : (s.withEncoderOf t).freeEntry = s.freeEntry := rfl

@[simp] theorem State.withEncoderOf_currentPhraseCode (s t : State) : (s.withEncoderOf t).currentPhraseCode = s.currentPhraseCode := rfl

@[simp] theorem State.withEncoderOf_outByte (s t : State) : (s.withEncoderOf t).outByte = s.outByte := rfl

@[simp] theorem State.withEncoderOf_outBits (s t : State) : (s.withEncoderOf t).outBits = s.outBits := rfl

@[simp] theorem State.withEncoderOf_firstByte (s t : State) : (s.withEncoderOf t).firstByte = s.firstByte := rfl

@[simp] theorem State.withEncoderOf_cmpReady (s t : State) : (s.withEncoderOf t).cmpReady = s.cmpReady := rfl

@[simp] theorem State.withEncoderOf_session (s t : State) : (s.withEncoderOf t).session = s.session := rfl

@[simp] theorem State.withEncoderOf_sink (s t : State) : (s.withEncoderOf t).sink = s.sink := rfl

@[simp] theorem State.withEncoderOf_pPending (s t : State) : (s.withEncoderOf t).pPending = s.pPending := rfl

@[simp] theorem State.withEncoderOf_pCmds (s t : State) : (s.withEncoderOf t).pCmds = s.pCmds := rfl

@[simp] theorem State.withEncoderOf_cCmds (s t : State) : (s.withEncoderOf t).cCmds = s.cCmds := rfl

@[simp] theorem State.withEncoderOf_pResponses (s t : State) : (s.withEncoderOf t).pResponses = s.pResponses := rfl

@[simp] theorem State.withEncoderOf_cResponses (s t : State) : (s.withEncoderOf t).cResponses = s.cResponses := rfl

@[simp] theorem State.withEncoderOf_turns (s t : State) : (s.withEncoderOf t).turns = s.turns := rfl

@[simp] theorem State.withEncoderOf_producerRaced (s t : State) : (s.withEncoderOf t).producerRaced = s.producerRaced := rfl

@[simp] theorem State.withPackerOf_cfgChannelCount (s t : State) : (s.withPackerOf t).cfgChannelCount = s.cfgChannelCount := rfl

@[simp] theorem State.withPackerOf_cfgSampleRateHz (s t : State) : (s.withPackerOf t).cfgSampleRateHz = s.cfgSampleRateHz := rfl

@[simp] theorem State.withPackerOf_cfgSessionDurationMs (s t : State) : (s.withPackerOf t).cfgSessionDurationMs = s.cfgSessionDurationMs := rfl

@[simp] theorem State.withPackerOf_cfgCompressionEnabled (s t : State) : (s.withPackerOf t).cfgCompressionEnabled = s.cfgCompressionEnabled := rfl

@[simp] theorem State.withPackerOf_cfgMode (s t : State) : (s.withPackerOf t).cfgMode = s.cfgMode := rfl

@[simp] theorem State.withPackerOf_buf (s t : State) : (s.withPackerOf t).buf = s.buf := rfl

@[simp] theorem State.withPackerOf_head (s t : State) : (s.withPackerOf t).head = s.head := rfl

@[simp] theorem State.withPackerOf_tail (s t : State) : (s.withPackerOf t).tail = s.tail := rfl

@[simp] theorem State.withPackerOf_count (s t : State) : (s.withPackerOf t).count = s.count := rfl

@[simp] theorem State.withPackerOf_overflow (s t : State) : (s.withPackerOf t).overflow = s.overflow := rfl

@[simp] theorem State.withPackerOf_stackedBits (s t : State) : (s.withPackerOf t).stackedBits = s.stackedBits := rfl

@[simp] theorem State.withPackerOf_stackFill (s t : State) : (s.withPackerOf t).stackFill = s.stackFill := rfl

@[simp] theorem State.withPackerOf_stackMask (s t : State) : (s.withPackerOf t).stackMask = s.stackMask := rfl

@[simp] theorem State.withPackerOf_firstSample (s t : State) : (s.withPackerOf t).firstSample = s.firstSample := rfl

@[simp] theorem State.withPackerOf_previousSample (s t : State) : (s.withPackerOf t).previousSample = s.previousSample := rfl

@[simp] theorem State.withPackerOf_interruptCount (s t : State) : (s.withPackerOf t).interruptCount = s.interruptCount := rfl

@[simp] theorem State.withPackerOf_hashTable (s t : State) : (s.withPackerOf t).hashTable = s.hashTable := rfl

@[simp] theorem State.withPackerOf_codeTable (s t : State) : (s.withPackerOf t).codeTable = s.codeTable := rfl

@[simp] theorem State.withPackerOf_freeEntry (s t : State) : (s.withPackerOf t).freeEntry = s.freeEntry := rfl

@[simp] theorem State.withPackerOf_currentPhraseCode (s t : State) : (s.withPackerOf t).currentPhraseCode = s.currentPhraseCode := rfl

@[simp] theorem State.withPackerOf_outByte (s t : State) : (s.withPackerOf t).outByte = t.outByte := rfl

@[simp] theorem State.withPackerOf_outBits (s t : State) : (s.withPackerOf t).outBits = t.outBits := rfl

@[simp] theorem State.withPackerOf_firstByte (s t : State) : (s.withPackerOf t).firstByte = s.firstByte := rfl

@[simp] theorem State.withPackerOf_cmpReady (s t : State) : (s.withPackerOf t).cmpReady = s.cmpReady := rfl

@[simp] theorem State.withPackerOf_session (s t : State) : (s.withPackerOf t).session = s.session := rfl

@[simp] theorem State.withPackerOf_sink (s t : State) : (s.withPackerOf t).sink = t.sink := rfl

@[simp] theorem State.withPackerOf_pPending (s t : State) : (s.withPackerOf t).pPending = s.pPending := rfl

@[simp] theorem State.withPackerOf_pCmds (s t : State) : (s.withPackerOf t).pCmds = s.pCmds := rfl

@[simp] theorem State.withPackerOf_cCmds (s t : State) : (s.withPackerOf t).cCmds = s.cCmds := rfl

@[simp] theorem State.withPackerOf_pResponses (s t : State) : (s.withPackerOf t).pResponses = s.pResponses := rfl

@[simp] theorem State.withPackerOf_cResponses (s t : State) : (s.withPackerOf t).cResponses = s.cResponses := rfl

@[simp] theorem State.withPackerOf_turns (s t : State) : (s.withPackerOf t).turns = s.turns := rfl

@[simp] theorem State.withPackerOf_producerRaced (s t : State) : (s.withPackerOf t).producerRaced = s.producerRaced := rfl

@[simp] theorem State.withCompressorOf_cfgChannelCount (s t : State) : (s.withCompressorOf t).cfgChannelCount = s.cfgChannelCount := rfl

@[simp] theorem State.withCompressorOf_cfgSampleRateHz (s t : State) : (s.withCompressorOf t).cfgSampleRateHz = s.cfgSampleRateHz := rfl

@[simp] theorem State.withCompressorOf_cfgSessionDurationMs (s t : State) : (s.withCompressorOf t).cfgSessionDurationMs = s.cfgSessionDurationMs := rfl

@[simp] theorem State.withCompressorOf_cfgCompressionEnabled (s t : State) : (s.withCompressorOf t).cfgCompressionEnabled = s.cfgCompressionEnabled := rfl

@[simp] theorem State.withCompressorOf_cfgMode (s t : State) : (s.withCompressorOf t).cfgMode = s.cfgMode := rfl

@[simp] theorem State.withCompressorOf_buf (s t : State) : (s.withCompressorOf t).buf = s.buf := rfl

@[simp] theorem State.withCompressorOf_head (s t : State) : (s.withCompressorOf t).head = s.head := rfl

@[simp] theorem State.withCompressorOf_tail (s t : State) : (s.withCompressorOf t).tail = s.tail := rfl

@[simp] theorem State.withCompressorOf_count (s t : State) : (s.withCompressorOf t).count = s.count := rfl

@[simp] theorem State.withCompressorOf_overflow (s t : State) : (s.withCompressorOf t).overflow = s.overflow := rfl

@[simp] theorem State.withCompressorOf_stackedBits (s t : State) : (s.withCompressorOf t).stackedBits = s.stackedBits := rfl

@[simp] theorem State.withCompressorOf_stackFill (s t : State) : (s.withCompressorOf t).stackFill = s.stackFill := rfl

@[simp] theorem State.withCompressorOf_stackMask (s t : State) : (s.withCompressorOf t).stackMask = s.stackMask := rfl

@[simp] theorem State.withCompressorOf_firstSample (s t : State) : (s.withCompressorOf t).firstSample = s.firstSample := rfl

@[simp] theorem State.withCompressorOf_previousSample (s t : State) : (s.withCompressorOf t).previousSample = s.previousSample := rfl

@[simp] theorem State.withCompressorOf_interruptCount (s t : State) : (s.withCompressorOf t).interruptCount = s.interruptCount := rfl

@[simp] theorem State.withCompressorOf_hashTable (s t : State) : (s.withCompressorOf t).hashTable = t.hashTable := rfl

@[simp] theorem State.withCompressorOf_codeTable (s t : State) : (s.withCompressorOf t).codeTable = t.codeTable := rfl

@[simp] theorem State.withCompressorOf_freeEntry (s t : State) : (s.withCompressorOf t).freeEntry = t.freeEntry := rfl

@[simp] theorem State.withCompressorOf_currentPhraseCode (s t : State) : (s.withCompressorOf t).currentPhraseCode = t.currentPhraseCode := rfl

@[simp] theorem State.withCompressorOf_outByte (s t : State) : (s.withCompressorOf t).outByte = t.outByte := rfl

@[simp] theorem State.withCompressorOf_outBits (s t : State) : (s.withCompressorOf t).outBits = t.outBits := rfl

@[simp] theorem State.withCompressorOf_firstByte (s t : State) : (s.withCompressorOf t).firstByte = t.firstByte := rfl

@[simp] theorem State.withCompressorOf_cmpReady (s t : State) : (s.withCompressorOf t).cmpReady = t.cmpReady := rfl

@[simp] theorem State.withCompressorOf_session (s t : State) : (s.withCompressorOf t).session = s.session := rfl

@[simp] theorem State.withCompressorOf_sink (s t : State) : (s.withCompressorOf t).sink = t.sink := rfl

@[simp] theorem State.withCompressorOf_pPending (s t : State) : (s.withCompressorOf t).pPending = s.pPending := rfl

@[simp] theorem State.withCompressorOf_pCmds (s t : State) : (s.withCompressorOf t).pCmds = s.pCmds := rfl

@[simp] theorem State.withCompressorOf_cCmds (s t : State) : (s.withCompressorOf t).cCmds = s.cCmds := rfl

@[simp] theorem State.withCompressorOf_pResponses (s t : State) : (s.withCompressorOf t).pResponses = s.pResponses := rfl

@[simp] theorem State.withCompressorOf_cResponses (s t : State) : (s.withCompressorOf t).cResponses = s.cResponses := rfl

@[simp] theorem State.withCompressorOf_turns (s t : State) : (s.withCompressorOf t).turns = s.turns := rfl

@[simp] theorem State.withCompressorOf_producerRaced (s t : State) : (s.withCompressorOf t).producerRaced = s.producerRaced := rfl

end Sys2Proof.Machine
end

