-- ==== Sys2Proof/Laws/Compressor.lean ====
section
/-! SUPPORT. What the compressor's steps can do: the bit packer as an append of bits, the probe's answers, and the cases
of one input byte. -/

namespace Sys2Proof.Machine

/-! ### The bit packer (spec/42_compressor.md R197) -/

@[simp] theorem bitsMsb_length {w : Nat} (n : Nat) (v : BitVec w) : (bitsMsb n v).length = n := by simp [bitsMsb]

theorem bitsMsb_succ {w : Nat} (n : Nat) (v : BitVec w) : bitsMsb (n + 1) v = v.getLsbD n :: bitsMsb n v := by
  simp only [bitsMsb, List.range_succ_eq_map, List.map_cons, List.map_map, Nat.add_sub_cancel, Nat.sub_zero,
    List.cons.injEq, true_and]
  apply List.map_congr_left
  intro k hk
  have := List.mem_range.1 hk
  simp only [Function.comp]
  congr 1
  omega

/-- The packer writes `sink`, `out_byte` and `out_bits` alone. -/
theorem putBit_frame (bit : Bool) (s : State) : putBit bit s = s.withPackerOf (putBit bit s) := by
  unfold putBit
  simp only
  split <;> rfl

theorem putBits_frame (c : Code) (n : Nat) (s : State) : putBits c n s = s.withPackerOf (putBits c n s) := by
  induction n generalizing s with
  | zero => rfl
  | succ n ih =>
    calc putBits c n (putBit (c.getLsbD n) s)
      _ = (putBit (c.getLsbD n) s).withPackerOf (putBits c n (putBit (c.getLsbD n) s)) := ih _
      _ = (s.withPackerOf (putBit (c.getLsbD n) s)).withPackerOf (putBits c n (putBit (c.getLsbD n) s)) := by
        rw [← putBit_frame]

theorem putCode_frame (P : Params) (c : Code) (s : State) : putCode P c s = s.withPackerOf (putCode P c s) :=
  putBits_frame c P.nbits s

/-- The packer reads `sink`, `out_byte` and `out_bits` alone. -/
theorem putBit_withPackerOf (bit : Bool) (s t : State) :
    putBit bit (t.withPackerOf s) = t.withPackerOf (putBit bit s) := by
  unfold putBit
  simp only [State.withPackerOf_outBits, State.withPackerOf_outByte]
  by_cases h : s.outBits.toNat + 1 = 8
  · simp only [h, if_true]; rfl
  · simp only [h, if_false]; rfl

theorem putBits_withPackerOf (c : Code) (n : Nat) (s t : State) :
    putBits c n (t.withPackerOf s) = t.withPackerOf (putBits c n s) := by
  induction n generalizing s with
  | zero => rfl
  | succ n ih =>
    rw [putBits, putBit_withPackerOf, ih]
    rfl

theorem putCode_withPackerOf (P : Params) (c : Code) (s t : State) :
    putCode P c (t.withPackerOf s) = t.withPackerOf (putCode P c s) := putBits_withPackerOf c P.nbits s t

/-- The bits of a byte whose low part is 0, with one more bit put in at the first free place. -/
theorem held_bits_put (o : Byte) (n : Fin 8) (bit : Bool) (h : o.toNat % 2 ^ (8 - n.val) = 0) :
    (bitsMsb 8 (o ||| ((if bit then (1 : Byte) else 0) <<< (7 - n.val)))).take (n.val + 1) =
      (bitsMsb 8 o).take n.val ++ [bit] ∧
    (o ||| ((if bit then (1 : Byte) else 0) <<< (7 - n.val))).toNat % 2 ^ (8 - (n.val + 1)) = 0 := by
  revert o n bit
  decide +kernel

/-- One bit into the packer is one bit more of the packed stream. -/
theorem putBit_packs (bit : Bool) {s : State} (h : PackerInv s) :
    packedBits (putBit bit s) = packedBits s ++ [bit] ∧ PackerInv (putBit bit s) ∧ s.sink <+: (putBit bit s).sink := by
  have key := held_bits_put s.outByte ⟨s.outBits.toNat, s.outBits.isLt⟩ bit h
  unfold putBit
  simp only
  split
  · rename_i hb
    simp only at key
    rw [hb, List.take_of_length_le (by simp)] at key
    refine ⟨?_, by simp [PackerInv], by simp⟩
    simp only [packedBits, emit_sink, emit_outByte, emit_outBits, List.flatMap_append, List.flatMap_cons,
      List.flatMap_nil, List.append_nil, key.1, List.append_assoc]
    rfl
  · rename_i hb
    have hn : (s.outBits + 1).toNat = s.outBits.toNat + 1 := by
      rw [BitVec.toNat_add]
      have := s.outBits.isLt
      change (s.outBits.toNat + 1) % 8 = _
      omega
    refine ⟨?_, ?_, List.prefix_rfl⟩
    · simp only [packedBits, hn, key.1, List.append_assoc]
    · simpa only [PackerInv, hn] using key.2

theorem putBits_packs (c : Code) (n : Nat) {s : State} (h : PackerInv s) :
    packedBits (putBits c n s) = packedBits s ++ bitsMsb n c ∧ PackerInv (putBits c n s) ∧
      s.sink <+: (putBits c n s).sink := by
  induction n generalizing s with
  | zero => exact ⟨by simp [putBits, bitsMsb], h, List.prefix_rfl⟩
  | succ n ih =>
    obtain ⟨h1, h2, h3⟩ := putBit_packs (c.getLsbD n) h
    obtain ⟨g1, g2, g3⟩ := ih h2
    refine ⟨?_, g2, h3.trans g3⟩
    rw [putBits, g1, h1, bitsMsb_succ, List.append_assoc, List.singleton_append]

/-- The number of emitted bytes and held bits after `n` more bits (spec/42_compressor.md R205). -/
theorem putBits_count (c : Code) (n : Nat) (s : State) :
    8 * (putBits c n s).sink.length + (putBits c n s).outBits.toNat =
      8 * s.sink.length + s.outBits.toNat + n := by
  induction n generalizing s with
  | zero => rfl
  | succ n ih =>
    rw [putBits, ih]
    unfold putBit
    simp only
    have hlt := s.outBits.isLt
    split
    · simp only [emit_sink, emit_outBits, List.length_append, List.length_cons, List.length_nil]
      change _ + 0 + _ = _
      omega
    · have hn : (s.outBits + 1).toNat = s.outBits.toNat + 1 := by
        rw [BitVec.toNat_add]
        change (s.outBits.toNat + 1) % 8 = _
        omega
      simp only [hn]
      omega

/-! ### The probe (R195) -/

/-- Everything one slot can answer. -/
theorem checkSlot_cases (P : Params) (s : State) (key : Key) (index : Nat) :
    (s.hashTable.read P.empty index = key ∧
      checkSlot P s key index = some (.hit (s.codeTable.read codeUnlisted index))) ∨
    (s.hashTable.read P.empty index ≠ key ∧ s.hashTable.read P.empty index = P.empty ∧
      checkSlot P s key index = some (.miss index)) ∨
    (s.hashTable.read P.empty index ≠ key ∧ s.hashTable.read P.empty index ≠ P.empty ∧
      checkSlot P s key index = none) := by
  unfold checkSlot
  split
  · exact .inl ⟨‹_›, rfl⟩
  · split
    · exact .inr (.inl ⟨‹_›, ‹_›, rfl⟩)
    · exact .inr (.inr ⟨‹_›, ‹_›, rfl⟩)

/-- A hit has found the key, with the slot's code. -/
def HitAt (P : Params) (s : State) (key : Key) (c : Code) : Prop :=
  ∃ slot, slot < P.hashSize ∧ s.hashTable.read P.empty slot = key ∧ c = s.codeTable.read codeUnlisted slot

/-- A miss has found an empty slot of the table. -/
def MissAt (P : Params) (s : State) (slot : Nat) : Prop :=
  slot < P.hashSize ∧ s.hashTable.read P.empty slot = P.empty

theorem checkSlot_sound {P : Params} {s : State} {key : Key} {index : Nat} {r : LookupResult}
    (hi : index < P.hashSize) (h : checkSlot P s key index = some r) :
    (∃ c, r = .hit c ∧ HitAt P s key c) ∨ (∃ slot, r = .miss slot ∧ MissAt P s slot) := by
  rcases checkSlot_cases P s key index with ⟨h1, e⟩ | ⟨_, h2, e⟩ | ⟨_, _, e⟩
  · rw [e, Option.some.injEq] at h
    exact .inl ⟨_, h.symm, index, hi, h1, rfl⟩
  · rw [e, Option.some.injEq] at h
    exact .inr ⟨_, h.symm, hi, h2⟩
  · simp [e] at h

/-- Everything the probe can answer: a hit on the key, a miss at an empty slot, or its exhaustion. -/
theorem probe_cases (P : Params) (s : State) (key : Key) (d : Nat) (hP : 0 < P.hashSize) (fuel index : Nat) :
    (∃ c, probe P s key d fuel index = .hit c ∧ HitAt P s key c) ∨
    (∃ slot, probe P s key d fuel index = .miss slot ∧ MissAt P s slot) ∨
    probe P s key d fuel index = .fault .probeExhausted := by
  induction fuel generalizing index with
  | zero => exact .inr (.inr rfl)
  | succ fuel ih =>
    unfold probe
    split
    · rename_i r hr
      rcases checkSlot_sound (Nat.mod_lt _ hP) hr with ⟨c, rfl, h⟩ | ⟨slot, rfl, h⟩
      · exact .inl ⟨c, rfl, h⟩
      · exact .inr (.inl ⟨slot, rfl, h⟩)
    · exact ih _

/-- Everything `Lookup` can answer. -/
theorem lookup_cases (P : Params) (s : State) (code : Code) (b : Byte) :
    (∃ c, lookup P s code b = .hit c ∧ HitAt P s (phraseKey code b) c) ∨
    (∃ slot, lookup P s code b = .miss slot ∧ MissAt P s slot) ∨
    (∃ f, lookup P s code b = .fault f) := by
  unfold lookup
  split
  · exact .inr (.inr ⟨_, rfl⟩)
  · rename_i hlt
    split
    · rename_i r hr
      rcases checkSlot_sound (by omega) hr with ⟨c, rfl, h⟩ | ⟨slot, rfl, h⟩
      · exact .inl ⟨c, rfl, h⟩
      · exact .inr (.inl ⟨slot, rfl, h⟩)
    · rcases probe_cases P s (phraseKey code b) (probeStride P (phraseHash P code b)) (by omega) (P.hashSize - 1)
        (phraseHash P code b) with h | h | h
      · exact .inl h
      · exact .inr (.inl h)
      · exact .inr (.inr ⟨_, h⟩)

/-- `Lookup` reads the two tables alone. -/
theorem lookup_congr (P : Params) {s t : State} (hh : t.hashTable = s.hashTable) (hc : t.codeTable = s.codeTable)
    (code : Code) (b : Byte) : lookup P t code b = lookup P s code b := by
  have hs : ∀ key index, checkSlot P t key index = checkSlot P s key index := by
    intro key index; simp [checkSlot, hh, hc]
  have hp : ∀ key d fuel index, probe P t key d fuel index = probe P s key d fuel index := by
    intro key d fuel
    induction fuel with
    | zero => intro index; rfl
    | succ fuel ih => intro index; simp [probe, hs, ih]
  simp [lookup, hs, hp]

/-! ### One input byte (R196) -/

/-- Everything the steps of `CBYTE` can do. -/
theorem compressByte_cases (P : Params) (b : Byte) (s : State) :
    (s.firstByte = true ∧ compressByte P b s =
      .next { s with currentPhraseCode := literalCode b, firstByte := false }) ∨
    (s.firstByte = false ∧ ∃ c, lookup P s s.currentPhraseCode b = .hit c ∧
      compressByte P b s = .next { s with currentPhraseCode := c }) ∨
    (s.firstByte = false ∧ ∃ slot, lookup P s s.currentPhraseCode b = .miss slot ∧
      compressByte P b s = .next (missPhrase P b slot s)) ∨
    (s.firstByte = false ∧ ∃ f, lookup P s s.currentPhraseCode b = .fault f ∧ compressByte P b s = .fault f) := by
  unfold compressByte
  cases hf : s.firstByte
  · simp only [Bool.false_eq_true, false_and, true_and, false_or, if_false]
    rcases lookup_cases P s s.currentPhraseCode b with ⟨c, h, _⟩ | ⟨slot, h, _⟩ | ⟨f, h⟩ <;> rw [h]
    · exact .inl ⟨c, rfl, rfl⟩
    · exact .inr (.inl ⟨slot, rfl, rfl⟩)
    · exact .inr (.inr ⟨f, rfl, rfl⟩)
  · simp

/-- The steps of `CBYTE` write compressor state alone and leave `cmp_ready` as it is. -/
theorem compressByte_frame {P : Params} {b : Byte} {s t : State} (h : compressByte P b s = .next t) :
    t = s.withCompressorOf t ∧ t.cmpReady = s.cmpReady := by
  rcases compressByte_cases P b s with ⟨_, e⟩ | ⟨_, c, _, e⟩ | ⟨_, slot, _, e⟩ | ⟨_, f, _, e⟩
  · rw [e] at h; cases h; exact ⟨rfl, rfl⟩
  · rw [e] at h; cases h; exact ⟨rfl, rfl⟩
  · rw [e] at h
    cases h
    unfold missPhrase
    simp only
    rw [putCode_frame P s.currentPhraseCode s]
    split
    · exact ⟨rfl, rfl⟩
    · simp only [tableReset]
      rw [putCode_frame P (BitVec.ofNat 16 P.clearCode) _]
      exact ⟨rfl, rfl⟩
  · rw [e] at h; cases h

/-- The padding of a partial byte writes the packer alone. -/
theorem padByte_frame (s : State) : padByte s = s.withPackerOf (padByte s) := by
  unfold padByte
  split <;> rfl

/-- The steps of `CFLUSH` write the packer and `cmp_ready` alone. -/
theorem flushCompressor_frame (P : Params) (s : State) :
    flushCompressor P s = { s.withPackerOf (flushCompressor P s) with cmpReady := false } := by
  unfold flushCompressor
  simp only
  rw [padByte_frame, putCode_frame P (BitVec.ofNat 16 P.eosCode) _]
  split
  · rfl
  · rw [putCode_frame P s.currentPhraseCode s]
    rfl

end Sys2Proof.Machine
end

