-- ==== Sys2Proof/Laws/Queue.lean ====
section
/-! SUPPORT. What `Enq`, `Deq` and a run of `Enq`s can do, and how the bytes in the queue change. -/

namespace Sys2Proof.Machine

/-- At 4096 elements the advance of an index is the wrap of its 12 bits (spec/20_memory.md R72). -/
@[simp] theorem advance_reference (x : BitVec 12) : advance reference x = x + 1 := by
  apply BitVec.eq_of_toNat_eq
  simp [advance, BitVec.toNat_add]

/-- Everything `Enq` can do (R145). -/
theorem enq_cases (P : Params) (v : Byte) (s : State) :
    (s.count.toNat = P.qsize ∧ enq P v s = (.queueOverflow, { s with overflow := true })) ∨
    (s.count.toNat ≠ P.qsize ∧ enq P v s = (.ok, { s with
      buf := s.buf.write bufUnlisted s.tail.toNat v
      tail := advance P s.tail
      count := s.count + 1 })) := by
  unfold enq
  split
  · exact .inl ⟨(isFull_iff P s).1 ‹_›, rfl⟩
  · exact .inr ⟨fun h => ‹¬_› ((isFull_iff P s).2 h), rfl⟩

/-- Everything `Deq` can do (R146). -/
theorem deq_cases (P : Params) (s : State) :
    (s.count = 0 ∧ deq P s = (none, s)) ∨
    (s.count ≠ 0 ∧ deq P s = (some (s.buf.read bufUnlisted s.head.toNat), { s with
      head := advance P s.head
      count := s.count - 1 })) := by
  unfold deq
  split
  · exact .inl ⟨(isEmpty_iff s).1 ‹_›, rfl⟩
  · exact .inr ⟨fun h => ‹¬_› ((isEmpty_iff s).2 h), rfl⟩

/-- What a queue step leaves alone: everything but `buf`, `tail`, `count`, `overflow`. -/
theorem enq_frame (P : Params) (v : Byte) (s : State) : (enq P v s).2 = s.withQueueOf (enq P v s).2 := by
  rcases enq_cases P v s with ⟨_, h⟩ | ⟨_, h⟩ <;> rw [h] <;> rfl

/-- What a run of `Enq`s leaves alone. -/
theorem enqAll_frame (P : Params) (vs : List Byte) (s : State) :
    enqAll P vs s = s.withQueueOf (enqAll P vs s) := by
  induction vs generalizing s with
  | nil => rfl
  | cons v vs ih =>
    calc enqAll P vs (enq P v s).2
      _ = (enq P v s).2.withQueueOf (enqAll P vs (enq P v s).2) := ih _
      _ = (s.withQueueOf (enq P v s).2).withQueueOf (enqAll P vs (enq P v s).2) := by rw [← enq_frame]

/-- `Enq` reads the queue alone. -/
theorem enq_withQueueOf (P : Params) (v : Byte) (s t : State) :
    (enq P v (t.withQueueOf s)).2 = t.withQueueOf (enq P v s).2 := by
  unfold enq
  have : isFull P (t.withQueueOf s) = isFull P s := rfl
  rw [this]
  split <;> rfl

/-- A run of `Enq`s reads and writes the queue alone, so it commutes with any change of the rest of the state. -/
theorem enqAll_withQueueOf (P : Params) (vs : List Byte) (s t : State) :
    enqAll P vs (t.withQueueOf s) = t.withQueueOf (enqAll P vs s) := by
  induction vs generalizing s with
  | nil => rfl
  | cons v vs ih =>
    calc enqAll P vs (enq P v (t.withQueueOf s)).2
      _ = enqAll P vs (t.withQueueOf (enq P v s).2) := by rw [enq_withQueueOf]
      _ = t.withQueueOf (enqAll P vs (enq P v s).2) := ih _

/-- The number of bytes in the queue. -/
@[simp] theorem queueBytes_length (P : Params) (s : State) : (queueBytes P s).length = s.count.toNat := by
  simp [queueBytes]

/-- `queueBytes` depends on `buf`, `head` and `count` alone. -/
theorem queueBytes_congr (P : Params) {s t : State} (hb : t.buf = s.buf) (hh : t.head = s.head)
    (hc : t.count = s.count) : queueBytes P t = queueBytes P s := by
  simp [queueBytes, hb, hh, hc]

/-- A successful `Enq` appends its byte and keeps the queue's invariant (R140, R145). -/
theorem enq_appends (v : Byte) {s : State} (h : QueueInv reference s) (hc : s.count.toNat ≠ 4096) :
    queueBytes reference (enq reference v s).2 = queueBytes reference s ++ [v] ∧
    QueueInv reference (enq reference v s).2 ∧ (enq reference v s).2.count.toNat = s.count.toNat + 1 := by
  obtain ⟨h1, h2, h3⟩ := h
  simp only [reference_qsize] at h1 h2 h3
  rcases enq_cases reference v s with ⟨hf, _⟩ | ⟨_, e⟩
  · exact absurd hf hc
  · have hn : (s.count + 1).toNat = s.count.toNat + 1 := by
      rw [BitVec.toNat_add]; change (s.count.toNat + 1) % 8192 = _; omega
    have ht : (s.tail + 1).toNat = (s.tail.toNat + 1) % 4096 := by
      rw [BitVec.toNat_add]; rfl
    rw [e]
    refine ⟨?_, ⟨?_, h2, ?_⟩, hn⟩
    · simp only [queueBytes, hn, List.range_succ, List.map_append, List.map_cons, List.map_nil, reference_qsize]
      rw [h3, Memory.read_write_same]
      congr 1
      apply List.map_congr_left
      intro k hk
      have hk := List.mem_range.1 hk
      exact Memory.read_write_other _ _ (by omega)
    · simp only [hn, reference_qsize]; omega
    · simp only [hn, advance_reference, ht, reference_qsize]; omega

/-- A successful `Deq` takes the oldest byte and keeps the queue's invariant (R140, R146). -/
theorem deq_takes {s : State} (h : QueueInv reference s) (hc : s.count ≠ 0) :
    queueBytes reference s =
      s.buf.read bufUnlisted s.head.toNat :: queueBytes reference (deq reference s).2 ∧
    QueueInv reference (deq reference s).2 ∧ (deq reference s).2.count.toNat + 1 = s.count.toNat := by
  obtain ⟨h1, h2, h3⟩ := h
  simp only [reference_qsize] at h1 h2 h3
  rcases deq_cases reference s with ⟨he, _⟩ | ⟨_, e⟩
  · exact absurd he hc
  · have hpos : s.count.toNat ≠ 0 := fun h => hc (BitVec.eq_of_toNat_eq (by simpa using h))
    have hn : (s.count - 1).toNat + 1 = s.count.toNat := by
      rw [BitVec.toNat_sub]; change (8192 - 1 + s.count.toNat) % 8192 + 1 = _; omega
    have hh : (s.head + 1).toNat = (s.head.toNat + 1) % 4096 := by
      rw [BitVec.toNat_add]; rfl
    rw [e]
    refine ⟨?_, ⟨?_, ?_, ?_⟩, hn⟩
    · simp only [queueBytes, ← hn, List.range_succ_eq_map, List.map_cons, List.map_map, reference_qsize,
        advance_reference, hh, Nat.add_zero, Nat.mod_eq_of_lt h2]
      congr 1
      apply List.map_congr_left
      intro k _
      simp only [Function.comp, Nat.mod_add_mod]
      congr 2
      omega
    · simp only [reference_qsize]; omega
    · simp only [advance_reference, hh, reference_qsize]; omega
    · simp only [advance_reference, hh, reference_qsize]; omega

end Sys2Proof.Machine
end

