-- ==== Sys2Proof/Laws/Encoder.lean ====
section
/-! SUPPORT. What an encoder step can do and what it leaves alone. -/

namespace Sys2Proof.Machine

/-- At 32 bits the interrupt is counted modulo 2^32 (spec/41_encoder.md R162). -/
@[simp] theorem countInterrupt_reference (s : State) :
    countInterrupt reference s = { s with interruptCount := s.interruptCount + 1 } := by
  unfold countInterrupt
  congr 1
  apply BitVec.eq_of_toNat_eq
  simp [BitVec.toNat_add]

/-- A rollover is due exactly when the low 16 bits of `interrupt_count` are 0 (R165). -/
theorem rolloverDue_reference (s : State) :
    rolloverDue reference s = true ↔ s.interruptCount.extractLsb' 0 16 = 0 := by
  simp only [rolloverDue, reference_rolloverPeriod, beq_iff_eq]
  rw [← BitVec.toNat_inj]
  simp

/-- Everything `Stack` can do (R163). -/
theorem stackSample_cases (raw : Byte) (s : State) :
    let bits := s.stackedBits ||| ((raw &&& s.stackMask) <<< s.stackFill.toNat)
    let fill := s.stackFill + s.cfgChannelCount
    (8 ≤ fill.toNat ∧ stackSample raw s = ([bits], { s with stackedBits := 0, stackFill := 0 })) ∨
    (fill.toNat ≤ 7 ∧ stackSample raw s = ([], { s with stackedBits := bits, stackFill := fill })) := by
  simp only [stackSample]
  split
  · exact .inl ⟨‹_›, rfl⟩
  · exact .inr ⟨by omega, rfl⟩

/-- Everything `Transition` can do (R165). -/
theorem transitionSample_cases (P : Params) (raw : Byte) (s : State) :
    let r := if rolloverDue P s then rolloverRecord P s.interruptCount else []
    (sampleDue raw s = true ∧ transitionSample P raw s =
      (r ++ sampleRecord P s.interruptCount raw, { s with previousSample := raw, firstSample := false })) ∨
    (sampleDue raw s = false ∧ transitionSample P raw s = (r, s)) := by
  simp only [transitionSample]
  cases h : sampleDue raw s <;> simp

/-- An encoder step writes encoder registers alone. -/
theorem encStep_frame (P : Params) (raw : Byte) (s : State) :
    (encStep P raw s).2 = s.withEncoderOf (encStep P raw s).2 := by
  unfold encStep
  simp only
  split
  · split
    · rcases stackSample_cases raw (countInterrupt P s) with ⟨_, h⟩ | ⟨_, h⟩ <;> rw [h] <;> rfl
    · rfl
  · rcases transitionSample_cases P raw (countInterrupt P s) with ⟨_, h⟩ | ⟨_, h⟩ <;> rw [h] <;> rfl

/-- An encoder step produces at most 8 bytes (R172). -/
theorem encStep_length (P : Params) (raw : Byte) (s : State) : (encStep P raw s).1.length ≤ 8 := by
  have hr : (if rolloverDue P (countInterrupt P s) then rolloverRecord P (countInterrupt P s).interruptCount
      else []).length ≤ 4 := by
    split <;> simp [rolloverRecord]
  unfold encStep
  simp only
  split
  · split
    · rcases stackSample_cases raw (countInterrupt P s) with ⟨_, h⟩ | ⟨_, h⟩ <;> rw [h] <;> simp
    · simp
  · rcases transitionSample_cases P raw (countInterrupt P s) with ⟨_, h⟩ | ⟨_, h⟩ <;> rw [h]
    · simp only [List.length_append, sampleRecord, List.length_cons, List.length_nil]; omega
    · simp only; omega

/-- An encoder step keeps the fill offset at most 7 (spec/10_state.md R41). -/
theorem encStep_fill (P : Params) (raw : Byte) {s : State} (h : s.stackFill.toNat ≤ 7) :
    (encStep P raw s).2.stackFill.toNat ≤ 7 := by
  unfold encStep
  simp only
  split
  · split
    · rcases stackSample_cases raw (countInterrupt P s) with ⟨_, e⟩ | ⟨hf, e⟩ <;> rw [e]
      · simp
      · exact hf
    · exact h
  · rcases transitionSample_cases P raw (countInterrupt P s) with ⟨_, e⟩ | ⟨_, e⟩ <;> rw [e] <;> exact h

/-- The encoder's part of `FINAL` writes encoder registers alone. -/
theorem finalStep_frame (P : Params) (s : State) : (finalStep P s).2 = s.withEncoderOf (finalStep P s).2 := by
  unfold finalStep
  split
  · rfl
  · exact encStep_frame P _ s

theorem finalStep_length (P : Params) (s : State) : (finalStep P s).1.length ≤ 8 := by
  unfold finalStep
  split
  · simp
  · exact encStep_length P _ s

theorem finalStep_fill (P : Params) {s : State} (h : s.stackFill.toNat ≤ 7) :
    (finalStep P s).2.stackFill.toNat ≤ 7 := by
  unfold finalStep
  split
  · exact h
  · exact encStep_fill P _ h

/-- The synthetic sample is never the last recorded one, so it is always recorded (R170). -/
theorem finalSample_due (s : State) : sampleDue (finalSample s) s = true := by
  by_cases h : s.previousSample = 0
  · simp [sampleDue, finalSample, h]
  · have hf : finalSample s = 0 := if_neg h
    simp only [sampleDue, hf, Bool.or_eq_true, bne_iff_ne]
    exact .inr (fun e => h e.symm)

/-- Everything the start of a composite command's enqueues can do. -/
theorem beginEnqueues_cases (out : List Byte) (s : State) :
    (out = [] ∧ beginEnqueues out s = respond .p respOk s) ∨
    (out ≠ [] ∧ beginEnqueues out s = { s with pPending := out }) := by
  cases out with
  | nil => exact .inl ⟨rfl, rfl⟩
  | cons v vs => exact .inr ⟨by simp, rfl⟩

end Sys2Proof.Machine
end

