-- ==== Sys2Proof/Laws/FullTable.lean ====
section
/-! SUPPORT. A compressor with any number of learned phrases, up to the full dictionary (`free_entry` = 8191), meets its invariants: the witness that the
statements about the exhaustion of the code space speak of a state that exists. Slot `x` holds the phrase of the code
`x mod 32` and the byte `x / 32`, whose hash is `x`. -/

namespace Sys2Proof.Machine

/-- The phrase of slot `x`. -/
def slotPhrase (x : Nat) : Key := phraseKey (BitVec.ofNat 16 (x % 32)) (BitVec.ofNat 8 (x / 32))

/-- A compressor that has learned the phrases of the first `n` slots, with the literal 0x41 pending. -/
def learned (n : Nat) : State := { State.reset with
  hashTable := (List.range n).map (fun x => (x, slotPhrase x))
  codeTable := (List.range n).map (fun x => (x, BitVec.ofNat 16 (257 + x)))
  freeEntry := BitVec.ofNat 16 (257 + n)
  currentPhraseCode := 0x41
  cmpReady := true
  firstByte := false }

/-- The facts of one slot, by the code and the byte of its phrase. -/
theorem phrase_facts : ∀ b : Fin 256, ∀ c : Fin 32,
    phraseKey (BitVec.ofNat 16 c) (BitVec.ofNat 8 b) ≠ 0xFFFFFFFF ∧
    keyCode (phraseKey (BitVec.ofNat 16 c) (BitVec.ofNat 8 b)) = BitVec.ofNat 16 c ∧
    keyByte (phraseKey (BitVec.ofNat 16 c) (BitVec.ofNat 8 b)) = BitVec.ofNat 8 b ∧
    phraseHash reference (BitVec.ofNat 16 c) (BitVec.ofNat 8 b) = b * 32 + c ∧
    (BitVec.ofNat 16 c.val).toNat < 32 := by
  decide +kernel

/-- The facts of one slot. -/
theorem slotPhrase_facts {n x : Nat} (hn : n ≤ 7934) (hx : x < n) : slotPhrase x ≠ 0xFFFFFFFF ∧
    slotPhrase x = phraseKey (keyCode (slotPhrase x)) (keyByte (slotPhrase x)) ∧
    phraseHash reference (keyCode (slotPhrase x)) (keyByte (slotPhrase x)) = x ∧
    (keyCode (slotPhrase x)).toNat < 32 ∧ (BitVec.ofNat 16 (257 + x)).toNat = 257 + x := by
  obtain ⟨h1, h2, h3, h4, h5⟩ := phrase_facts ⟨x / 32, by omega⟩ ⟨x % 32, by omega⟩
  simp only at h1 h2 h3 h4 h5
  unfold slotPhrase
  rw [h2, h3, h4]
  refine ⟨h1, rfl, by omega, h5, ?_⟩
  rw [BitVec.toNat_ofNat]
  omega

theorem map_range_wf {w : Nat} (d : BitVec w) (f : Nat → BitVec w) (n size : Nat) (hn : n ≤ size)
    (hf : ∀ x < n, f x ≠ d) : Memory.wf d size ((List.range n).map (fun x => (x, f x))) := by
  refine ⟨?_, ?_⟩
  · simp only [List.map_map]
    have : (Prod.fst ∘ fun x => (x, f x)) = (id : Nat → Nat) := rfl
    rw [this, List.map_id]
    exact List.pairwise_lt_range
  · intro c hc
    obtain ⟨x, hx, rfl⟩ := List.mem_map.1 hc
    have hx := List.mem_range.1 hx
    exact ⟨by omega, hf x hx⟩

theorem learned_hash_wf {n : Nat} (hn : n ≤ 7934) : Memory.wf (0xFFFFFFFF : Key) 9001 (learned n).hashTable :=
  map_range_wf _ _ _ _ (by omega) (fun _ hx => (slotPhrase_facts hn hx).1)

theorem learned_code_wf {n : Nat} (hn : n ≤ 7934) : Memory.wf codeUnlisted 9001 (learned n).codeTable := by
  refine map_range_wf _ _ _ _ (by omega) (fun x hx h => ?_)
  have h1 := (slotPhrase_facts hn hx).2.2.2.2
  rw [h] at h1
  simp only [codeUnlisted] at h1
  change 0 = _ at h1
  omega

theorem learned_key {n x : Nat} (hn : n ≤ 7934) (hx : x < n) :
    (learned n).hashTable.read 0xFFFFFFFF x = slotPhrase x :=
  Memory.read_of_mem (learned_hash_wf hn) (c := (x, slotPhrase x)) (List.mem_map.2 ⟨x, List.mem_range.2 hx, rfl⟩)

theorem learned_code {n x : Nat} (hn : n ≤ 7934) (hx : x < n) :
    (learned n).codeTable.read codeUnlisted x = BitVec.ofNat 16 (257 + x) :=
  Memory.read_of_mem (learned_code_wf hn) (c := (x, BitVec.ofNat 16 (257 + x)))
    (List.mem_map.2 ⟨x, List.mem_range.2 hx, rfl⟩)

theorem learned_free {n : Nat} (hn : n ≤ 7934) : (learned n).freeEntry.toNat = 257 + n := by
  change (BitVec.ofNat 16 (257 + n)).toNat = _
  rw [BitVec.toNat_ofNat]
  omega

theorem learned_codes {n : Nat} (hn : n ≤ 7934) : slotCodes (learned n) = List.range' 257 n := by
  have : slotCodes (learned n) = (List.range n).map (fun x => 257 + x) := by
    simp only [slotCodes]
    change List.map _ (List.map _ (List.range n)) = _
    rw [List.map_map]
    apply List.map_congr_left
    intro x hx
    have hx := List.mem_range.1 hx
    simp only [Function.comp]
    rw [learned_code hn hx]
    exact (slotPhrase_facts hn hx).2.2.2.2
  rw [this, List.range'_eq_map_range]

/-- The compressor meets the invariants of spec/42_compressor.md R200, up to the full dictionary. -/
theorem learned_inv {n : Nat} (hn : n ≤ 7934) : CompressorInv reference (learned n) := by
  intro _
  refine ⟨⟨?_, ?_, ?_⟩, ⟨?_, ?_⟩, ?_, ?_, (by decide : 0 % 2 ^ (8 - 0) = 0), fun _ => .inl (by decide : (0x41 : Nat) < 256)⟩
  · rw [learned_free hn, reference_firstFree]; omega
  · rw [learned_free hn, reference_maxCode]; omega
  · rw [learned_free hn, reference_firstFree]
    simp [learned]
  · rw [learned_codes hn, learned_free hn, reference_firstFree, Nat.add_sub_cancel_left]
  · change (List.map Prod.snd (List.map _ (List.range n))).Nodup
    rw [List.map_map]
    refine List.Nodup.map_on ?_ List.nodup_range
    intro x hx y hy h
    have hx := (slotPhrase_facts hn (List.mem_range.1 hx)).2.2.1
    have hy := (slotPhrase_facts hn (List.mem_range.1 hy)).2.2.1
    simp only [Function.comp] at h
    rw [h, hy] at hx
    exact hx.symm
  · intro e he
    obtain ⟨x, hx, rfl⟩ := List.mem_map.1 he
    have hx := List.mem_range.1 hx
    obtain ⟨_, h2, _, h4, h5⟩ := slotPhrase_facts hn hx
    refine ⟨h2, ?_, ?_⟩
    · simp only [learned_code hn hx, h5]; omega
    · simp only [reference_clearCode]; omega
  · intro e he
    obtain ⟨x, hx, rfl⟩ := List.mem_map.1 he
    have hx := List.mem_range.1 hx
    obtain ⟨_, h2, h3, _, _⟩ := slotPhrase_facts hn hx
    simp only [lookup, h3, reference_hashSize]
    rw [if_neg (by omega), ← h2]
    simp only [checkSlot, reference_empty, learned_key hn hx, if_true]

/-- The phrase (0x41, 0x00) is not in the dictionary. -/
theorem learned_misses {n : Nat} (hn : n ≤ 7934) : tableFind (learned n) (learned n).currentPhraseCode 0x00 = none := by
  simp only [tableFind, Option.map_eq_none_iff, List.find?_eq_none]
  intro e he
  obtain ⟨x, hx, rfl⟩ := List.mem_map.1 he
  have h4 := (slotPhrase_facts hn (List.mem_range.1 hx)).2.2.2.1
  simp only [beq_iff_eq]
  intro h
  rw [h] at h4
  exact absurd h4 (by decide : ¬ (keyCode (phraseKey 0x41 0x00)).toNat < 32)

end Sys2Proof.Machine
end

