-- ==== Sys2Proof/Laws/PerInstr.lean ====
section
/-! SUPPORT. The per-instruction family `EncodedFields`: the command word of an instruction holds its opcode and its
operand in the fields of spec/30_encoding.md R118. -/

namespace Sys2Proof.Laws.EncodedFields

/-- The two fields of a command word are what it was built from. -/
theorem fields (op : Byte) (imm : Imm) :
    opField (commandWord op imm) = op ∧ immField (commandWord op imm) = imm := by
  constructor
  · apply BitVec.eq_of_getLsbD_eq
    intro j hj
    have h : (op ++ imm).getLsbD (24 + j) = _ := BitVec.getLsbD_append
    simpa [opField, commandWord, hj] using h
  · apply BitVec.eq_of_getLsbD_eq
    intro j hj
    have h : (op ++ imm).getLsbD j = _ := BitVec.getLsbD_append
    simpa [immField, commandWord, hj] using h

/-- The word of an instruction holds its opcode in bits 31:24 and its operand in bits 23:0. -/
def Statement (i : Instr) : Prop := opField (encode i) = i.opcode ∧ immField (encode i) = i.operand

theorem enq (v : Byte) : Statement (.enq v) := fields _ _
theorem push (v : Byte) : Statement (.push v) := fields _ _
theorem final : Statement .final := fields _ _
theorem deq : Statement .deq := fields _ _
theorem qempty (port : Port) : Statement (.qempty port) := fields _ _
theorem qfull (port : Port) : Statement (.qfull port) := fields _ _
theorem qovf (port : Port) : Statement (.qovf port) := fields _ _
theorem qclear : Statement .qclear := fields _ _
theorem cinit : Statement .cinit := fields _ _
theorem cbyte (v : Byte) : Statement (.cbyte v) := fields _ _
theorem cflush : Statement .cflush := fields _ _
theorem cfgch (n : Imm) : Statement (.cfgch n) := fields _ _
theorem cfgrate (n : Imm) : Statement (.cfgrate n) := fields _ _
theorem cfgdur (n : Imm) : Statement (.cfgdur n) := fields _ _
theorem cfgmode (n : Imm) : Statement (.cfgmode n) := fields _ _
theorem cfgcmp (n : Imm) : Statement (.cfgcmp n) := fields _ _
theorem start : Statement .start := fields _ _
theorem stop : Statement .stop := fields _ _
theorem pop : Statement .pop := fields _ _
theorem sstat : Statement .sstat := fields _ _

end Sys2Proof.Laws.EncodedFields
end

