-- ==== Sys2Proof/Laws/Session.lean ====
section
/-! SUPPORT. What the configuration and session commands can do. -/

namespace Sys2Proof.Machine

/-- Everything a configuration command can do (spec/43_session.md R230). -/
theorem configure_cases (legal : Bool) (t s : State) :
    (legal = false ∧ configure legal t s = .next (raiseError .c .invalidConfiguration s)) ∨
    (legal = true ∧ s.session = .idle ∧ configure legal t s = .next (respond .c respOk t)) ∨
    (legal = true ∧ s.session ≠ .idle ∧ configure legal t s = .next (raiseError .c .refused s)) := by
  unfold configure
  cases legal
  · exact .inl ⟨rfl, rfl⟩
  · by_cases h : s.session = .idle
    · exact .inr (.inl ⟨rfl, h, by simp [h]⟩)
    · exact .inr (.inr ⟨rfl, h, by simp [h]⟩)

theorem inRange_iff (lo hi : Nat) (n : Imm) : inRange lo hi n = true ↔ lo ≤ n.toNat ∧ n.toNat ≤ hi := by
  simp [inRange]

/-- Everything `START` can do in `Idle` (R232). -/
theorem startSession_cases (P : Params) (s : State) :
    let t := { clearQueue P s with sink := [] }
    (s.cfgCompressionEnabled = true ∧ P.cmpInitOk = true ∧
      startSession P s = respond .c respOk { initCompressor P t with session := .active }) ∨
    (s.cfgCompressionEnabled = true ∧ P.cmpInitOk = false ∧
      startSession P s = raiseError .c .compressorInitFailure { t with cmpReady := false }) ∨
    (s.cfgCompressionEnabled = false ∧
      startSession P s = respond .c respOk { t with cmpReady := false, session := .active }) := by
  unfold startSession
  cases s.cfgCompressionEnabled <;> cases P.cmpInitOk <;> simp

/-- `STOP` in `Active` writes `session`, the encoder and the queue, and answers `Ok` (R233). -/
theorem runStop_active (P : Params) {s : State} (h : s.session = .active) :
    runStop P s = .next (respond .c respOk
      (enqAll P (finalStep P { s with session := .draining }).1 (finalStep P { s with session := .draining }).2)) := by
  unfold runStop
  rw [if_pos h]

/-- Everything `POP` with compression off can do (R235). -/
theorem popQueue_cases (P : Params) (s : State) :
    (s.count = 0 ∧ popQueue P s =
      respond .c respNone (if s.session = .draining then { s with session := .idle } else s)) ∨
    (s.count ≠ 0 ∧ popQueue P s = respond .c (respSome (s.buf.read bufUnlisted s.head.toNat))
      { s with head := advance P s.head, count := s.count - 1 }) := by
  unfold popQueue
  rcases deq_cases P s with ⟨h, e⟩ | ⟨h, e⟩ <;> rw [e]
  · exact .inl ⟨h, rfl⟩
  · exact .inr ⟨h, rfl⟩

/-- Everything the refill of `POP` with compression on can do (R235). -/
theorem refillSink_cases (P : Params) (s : State) :
    ((s.sink ≠ [] ∨ s.cmpReady = false) ∧ refillSink P s = .next s) ∨
    (s.sink = [] ∧ s.cmpReady = true ∧ s.count ≠ 0 ∧
      refillSink P s = compressByte P (s.buf.read bufUnlisted s.head.toNat)
        { s with head := advance P s.head, count := s.count - 1 }) ∨
    (s.sink = [] ∧ s.cmpReady = true ∧ s.count = 0 ∧ s.session = .draining ∧
      refillSink P s = .next (flushCompressor P s)) ∨
    (s.sink = [] ∧ s.cmpReady = true ∧ s.count = 0 ∧ s.session ≠ .draining ∧ refillSink P s = .next s) := by
  unfold refillSink
  split
  · rename_i h
    simp only [Bool.and_eq_true, List.isEmpty_iff] at h
    rcases deq_cases P s with ⟨hc, e⟩ | ⟨hc, e⟩ <;> rw [e]
    · by_cases hd : s.session = .draining
      · exact .inr (.inr (.inl ⟨h.1, h.2, hc, hd, by simp [hd]⟩))
      · exact .inr (.inr (.inr ⟨h.1, h.2, hc, hd, by simp [hd]⟩))
    · exact .inr (.inl ⟨h.1, h.2, hc, rfl⟩)
  · rename_i h
    refine .inl ⟨?_, rfl⟩
    cases hr : s.cmpReady <;> simp_all

/-- Everything the delivery of `POP` with compression on can do (R235). -/
theorem deliverSink_cases (s : State) :
    (∃ v rest, s.sink = v :: rest ∧ deliverSink s = respond .c (respSome v) { s with sink := rest }) ∨
    (s.sink = [] ∧ s.session = .draining ∧ s.cmpReady = false ∧
      deliverSink s = respond .c respNone { s with session := .idle }) ∨
    (s.sink = [] ∧ ¬ (s.session = .draining ∧ s.cmpReady = false) ∧ deliverSink s = respond .c respNone s) := by
  unfold deliverSink
  split
  · rename_i v rest h
    exact .inl ⟨v, rest, h, rfl⟩
  · rename_i h
    by_cases hd : s.session = .draining ∧ s.cmpReady = false
    · exact .inr (.inl ⟨h, hd.1, hd.2, by rw [if_pos hd]⟩)
    · exact .inr (.inr ⟨h, hd, by rw [if_neg hd]⟩)

end Sys2Proof.Machine
end

