-- ==== Sys2Proof/Laws/Step.lean ====
section
/-! SUPPORT. The decoder's answers, and everything a step can do. -/

namespace Sys2Proof.Machine

/-- Everything the issue of a command word can do (spec/30_encoding.md R121). -/
theorem issue_cases (port : Port) (w : Word) (s : State) :
    (∃ i, decode port w = .ok i ∧ issue port w s = exec i (noteIssue i s)) ∨
    (∃ e, decode port w = .error e ∧ issue port w s = .next (raiseError port .illegalCommand s)) := by
  unfold issue
  cases decode port w with
  | ok i => exact .inl ⟨i, rfl, rfl⟩
  | error e => exact .inr ⟨e, rfl, by cases e <;> rfl⟩

/-- Everything a step can do (spec/20_memory.md R80, R81). -/
theorem step_cases (s : State) :
    (s.turns = [] ∧ step s = .next s) ∨
    (∃ rest, s.turns = .c :: rest ∧
      ((s.cCmds = [] ∧ step s = .next { s with turns := rest }) ∨
        ∃ w ws, s.cCmds = w :: ws ∧ step s = issue .c w { s with turns := rest, cCmds := ws })) ∨
    (∃ rest, s.turns = .p :: rest ∧
      ((∃ v vs, s.pPending = v :: vs ∧ step s = .next (continueProducer reference v vs { s with turns := rest })) ∨
        (s.pPending = [] ∧ s.pCmds = [] ∧ step s = .next { s with turns := rest }) ∨
        ∃ w ws, s.pPending = [] ∧ s.pCmds = w :: ws ∧ step s = issue .p w { s with turns := rest, pCmds := ws })) := by
  unfold step
  cases ht : s.turns with
  | nil => exact .inl ⟨rfl, rfl⟩
  | cons port rest =>
    cases port with
    | c =>
      refine .inr (.inl ⟨rest, rfl, ?_⟩)
      simp only [stepAt, stepC]
      cases hc : s.cCmds with
      | nil => exact .inl ⟨rfl, rfl⟩
      | cons w ws => exact .inr ⟨w, ws, rfl, rfl⟩
    | p =>
      refine .inr (.inr ⟨rest, rfl, ?_⟩)
      simp only [stepAt, stepP]
      cases hp : s.pPending with
      | cons v vs => exact .inl ⟨v, vs, rfl, rfl⟩
      | nil =>
        cases hc : s.pCmds with
        | nil => exact .inr (.inl ⟨rfl, rfl, rfl⟩)
        | cons w ws => exact .inr (.inr ⟨w, ws, rfl, rfl, rfl⟩)

/-- One `Enq` of a composite P command writes the queue, the bytes still to come and P's answers alone (R81). -/
theorem continueProducer_frame (P : Params) (v : Byte) (vs : List Byte) (s : State) :
    continueProducer P v vs s = { s.withQueueOf (enq P v s).2 with
      pPending := vs
      pResponses := if vs = [] then s.pResponses ++ [respOk] else s.pResponses } := by
  unfold continueProducer
  simp only
  rw [enq_frame]
  cases vs <;> rfl

end Sys2Proof.Machine
end

