-- ==== Sys2Proof/Tests/Slice0.lean ====
section
/-! SUPPORT. Tests of the model on the vectors of spec/95_test_vectors.md (T.., P..) and on words written out from
spec/30_encoding.md, and for every statement with hypotheses the states and operands that meet them. -/

namespace Sys2Proof.Tests

open Sys2Proof Sys2Proof.Machine Sys2Proof.Claims

-- one theorem after the other: a `decide +kernel` waits for every theorem before it, each on a thread of its own
set_option Elab.async false

/-! ### Helpers -/

abbrev Result := Host.Outcome State Fault Refusal

/-- The outcome is a next state with the given property. -/
def nextWith (o : Result) (p : State → Bool) : Bool :=
  match o with
  | .next t => p t
  | .fault _ => false
  | .refused _ => false

/-- The next state of an outcome. -/
def resultOf (o : Result) : State :=
  match o with
  | .next t => t
  | .fault _ => State.reset
  | .refused _ => State.reset

theorem next_of {o : Result} (h : nextWith o (fun _ => true) = true) : o = .next (resultOf o) := by
  cases o <;> simp_all [nextWith, resultOf]

/-- The step after reset with a table word in place. -/
def stepWord (w : Nat) : Result := step (State.reset.withFetchWord 32 w)

/-- Transition-only mode. -/
def transState : State := { State.reset with cfgMode := .transitionOnly, cfgChannelCount := 8 }

/-- A compressor right after `CINIT`. -/
def ready : State := { State.reset with freeEntry := 257, firstByte := true, cmpReady := true }

/-- The compressor of T16 (a) before its `CBYTE 43`: two phrases learned, 0x61 pending. -/
def probing : State := { ready with
  firstByte := false
  currentPhraseCode := 0x61
  freeEntry := 259
  hashTable := [(2049, 0x00410042), (3170, 0x00420061)]
  codeTable := [(2049, 257), (3170, 258)]
  sink := [0x02, 0x08, 0x10]
  outBits := 2
  outByte := 0x80 }

/-- The compressor of T15 line 4 after A, B, A: phrases (A, B) and (B, A) learned, A pending. -/
def abab : State := { ready with
  firstByte := false
  currentPhraseCode := 0x41
  freeEntry := 259
  hashTable := [(2049, 0x00410042), (2146, 0x00420041)]
  codeTable := [(2049, 257), (2146, 258)]
  outBits := 2
  outByte := 0x80 }

/-- A parameter set that breaks R8: 9000 is not prime. -/
def badParams : Params := { reference with hashSize := 9000 }

/-- The parameters of T17. -/
def smallParams : Params := { reference with nbits := 9, hashSize := 5003, hshift := 4 }

/-! ### Well-formedness: an ill-formed term for each check (R122) -/

theorem test_illFormed_cfgch : (Instr.cfgch 0).wellFormed reference = false ∧
    (Instr.cfgch 9).wellFormed reference = false ∧ (Instr.cfgch 1).wellFormed reference = true ∧
    (Instr.cfgch 8).wellFormed reference = true := by decide
theorem test_illFormed_cfgrate : (Instr.cfgrate 9).wellFormed reference = false ∧
    (Instr.cfgrate 10000001).wellFormed reference = false ∧ (Instr.cfgrate 10).wellFormed reference = true ∧
    (Instr.cfgrate 10000000).wellFormed reference = true := by decide
theorem test_illFormed_cfgdur : (Instr.cfgdur 9).wellFormed reference = false ∧
    (Instr.cfgdur 100001).wellFormed reference = false ∧ (Instr.cfgdur 10).wellFormed reference = true ∧
    (Instr.cfgdur 100000).wellFormed reference = true := by decide
theorem test_illFormed_cfgmode : (Instr.cfgmode 2).wellFormed reference = false ∧
    (Instr.cfgmode 1).wellFormed reference = true := by decide
theorem test_illFormed_cfgcmp : (Instr.cfgcmp 2).wellFormed reference = false ∧
    (Instr.cfgcmp 0).wellFormed reference = true := by decide

/-! ### Decoding, from words written out by R118 and R120 -/

theorem test_decode_producer :
    decode .p 0x10000077 = .ok (.enq 0x77) ∧ decode .p 0x110000AA = .ok (.push 0xAA) ∧
    decode .p 0x12000000 = .ok .final := by decide +kernel
theorem test_decode_queue :
    decode .c 0x20000000 = .ok .deq ∧ decode .p 0x21000000 = .ok (.qempty .p) ∧
    decode .c 0x22000000 = .ok (.qfull .c) ∧ decode .c 0x23000000 = .ok (.qovf .c) ∧
    decode .c 0x24000000 = .ok .qclear := by decide +kernel
theorem test_decode_compressor :
    decode .c 0x30000000 = .ok .cinit ∧ decode .c 0x31000041 = .ok (.cbyte 0x41) ∧
    decode .c 0x32000000 = .ok .cflush := by decide +kernel
theorem test_decode_configuration :
    decode .c 0x40000004 = .ok (.cfgch 4) ∧ decode .c 0x410003E8 = .ok (.cfgrate 1000) ∧
    decode .c 0x42000064 = .ok (.cfgdur 100) ∧ decode .c 0x43000001 = .ok (.cfgmode 1) ∧
    decode .c 0x44000001 = .ok (.cfgcmp 1) := by decide +kernel
theorem test_decode_session :
    decode .c 0x48000000 = .ok .start ∧ decode .c 0x49000000 = .ok .stop ∧
    decode .c 0x4A000000 = .ok .pop ∧ decode .c 0x4B000000 = .ok .sstat := by decide +kernel
/-- T19, and the order of R121: the port is checked before the operand. -/
theorem test_decode_illegal :
    decode .c 0x10000077 = .error .wrongPort ∧ decode .p 0x20000000 = .error .wrongPort ∧
    decode .p 0x20000001 = .error .wrongPort ∧ decode .c 0x20000001 = .error .reservedOperandBits ∧
    decode .p 0x11000100 = .error .reservedOperandBits ∧ decode .c 0x00000000 = .error .unknownOpcode ∧
    decode .c 0x4C000000 = .error .unknownOpcode ∧ decode .c 0xFF000000 = .error .unknownOpcode := by decide +kernel
/-- Every table word with operand 0 is read, and run as the first step after reset. -/
theorem test_tableWords_run :
    [0x10000000, 0x11000000, 0x12000000, 0x20000000, 0x21000000, 0x22000000, 0x23000000, 0x24000000, 0x30000000,
      0x31000000, 0x32000000, 0x40000000, 0x41000000, 0x42000000, 0x43000000, 0x44000000, 0x48000000, 0x49000000,
      0x4A000000, 0x4B000000].all (fun w => (decodeTableWord 32 w).isSome && nextWith (stepWord w) (fun t => t.turns == [] &&
        t.pResponses.length + t.cResponses.length == 1)) = true := by
  decide +kernel

/-! ### The assembler (R130, R131) -/

theorem test_assemble_examples :
    assemble ["P:PUSH 0xAA", "C:CFGRATE 1000 ; a comment", "START", "C:DEQ", "QEMPTY"] =
      some [(.p, 0x110000AA), (.c, 0x410003E8), (.c, 0x48000000), (.c, 0x20000000), (.c, 0x21000000)] := by
  decide +kernel
/-- P2's `CONFIGURE`, and a repetition as in T10. -/
theorem test_assemble_pseudo :
    assemble ["C: CONFIGURE 8, 1000, 100, TRANS, 0", ".rept 2", "P:ENQ \\i & 0xFF", ".endr"] =
      some [(.c, 0x40000008), (.c, 0x410003E8), (.c, 0x42000064), (.c, 0x43000001), (.c, 0x44000000),
        (.p, 0x10000000), (.p, 0x10000001)] := by decide +kernel

/-! ### The queue (T10, T11, T9) -/

/-- T10 (d): one free element at index 0. -/
def nearlyFull : State := { State.reset with head := 1, count := 4095, overflow := true }
def fullQueue : State := { State.reset with buf := [(0, 0x10)], count := 4096 }

theorem test_enq_stores : nextWith (exec (.enq 0x77) nearlyFull) (fun t =>
    t.buf.read 0 0 == 0x77 && t.tail == 1 && t.count == 4096 && t.overflow && t.pResponses == [0x0000]) = true := by
  decide +kernel
/-- T10 (b). -/
theorem test_enq_overflows : nextWith (exec (.enq 0xEE) fullQueue) (fun t =>
    t.buf == [(0, 0x10)] && t.tail == 0 && t.count == 4096 && t.overflow && t.pResponses == [0x1000]) = true := by
  decide +kernel
/-- T11 litmus 2, C first. -/
theorem test_deq_takes : nextWith (exec .deq fullQueue) (fun t =>
    t.head == 1 && t.count == 4095 && !t.overflow && t.cResponses == [0x0110]) = true := by decide +kernel
/-- T10 (e), (g): the wrap of `head`, and an empty queue. -/
theorem test_deq_wraps_and_misses :
    nextWith (exec .deq { State.reset with buf := [(4095, 0xFF)], head := 4095, tail := 1, count := 2 }) (fun t =>
      t.head == 0 && t.count == 1 && t.cResponses == [0x01FF]) = true ∧
    nextWith (exec .deq State.reset) (fun t => t == { State.reset with cResponses := [0x0000] }) = true := by
  decide +kernel
/-- T10 (a), (f), at both ports. -/
theorem test_qempty : nextWith (exec (.qempty .c) fullQueue) (fun t => t.cResponses == [0x0100]) = true ∧
    nextWith (exec (.qempty .p) State.reset) (fun t => t.pResponses == [0x0101] && t.cResponses == []) = true := by
  decide +kernel
theorem test_qfull : nextWith (exec (.qfull .c) fullQueue) (fun t => t.cResponses == [0x0101]) = true ∧
    nextWith (exec (.qfull .p) nearlyFull) (fun t => t.pResponses == [0x0100] && t.cResponses == []) = true := by
  decide +kernel
theorem test_qovf : nextWith (exec (.qovf .c) nearlyFull) (fun t => t.cResponses == [0x0101] && t.overflow) = true ∧
    nextWith (exec (.qovf .p) fullQueue) (fun t => t.pResponses == [0x0100]) = true := by decide +kernel
/-- T9: the stacking mask of the channel counts 1 to 8. -/
theorem test_qclear_mask : (([1, 2, 3, 4, 5, 6, 7, 8] : List (BitVec 4)).map (fun cc =>
    (resultOf (exec .qclear { State.reset with cfgChannelCount := cc })).stackMask)) =
      [0x01, 0x03, 0x07, 0x0F, 0xFF, 0xFF, 0xFF, 0xFF] := by decide +kernel
/-- T10 (h). -/
theorem test_qclear_clears : nextWith (exec .qclear { nearlyFull with
    interruptCount := 7
    previousSample := 3
    stackFill := 4
    stackedBits := 9
    firstSample := false }) (fun t => t.head == 0 && t.tail == 0 && t.count == 0 && !t.overflow &&
      t.interruptCount == 0 && t.previousSample == 0 && t.stackFill == 0 && t.stackedBits == 0 && t.firstSample) = true := by
  decide +kernel

/-! ### The encoder (T3, T4, T12, T13, T14) -/

/-- T12: 4 channels, `F3 A5`, the second sample with the high nibble masked; 3 channels, `00 00 04`, line 2 of the third
sample is lost; 4 channels, `03`, nothing is produced. -/
theorem test_push_continuous :
    nextWith (exec (.push 0xA5) { State.reset with
      cfgChannelCount := 4
      stackMask := 0x0F
      stackedBits := 0x03
      stackFill := 4
      interruptCount := 1 }) (fun t => t.pPending == [0x53] && t.stackFill == 0 && t.stackedBits == 0 &&
        t.interruptCount == 2 && t.pResponses == []) = true ∧
    nextWith (exec (.push 0x04) { State.reset with cfgChannelCount := 3, stackMask := 0x07, stackFill := 6 })
      (fun t => t.pPending == [0x00] && t.stackFill == 0) = true ∧
    nextWith (exec (.push 0x03) { State.reset with cfgChannelCount := 4, stackMask := 0x0F })
      (fun t => t.pPending == [] && t.stackFill == 4 && t.stackedBits == 0x03 && t.pResponses == [0x0000]) = true := by
  decide +kernel
/-- T14 (a), the 65,536th push: the rollover record first; T13: the first sample is recorded although equal to the reset
`previous_sample`; T4: a repeat is suppressed. -/
theorem test_push_transition :
    nextWith (exec (.push 0x02) { transState with
      interruptCount := 65535
      previousSample := 1
      firstSample := false }) (fun t => t.pPending == [0xBE, 0x01, 0x00, 0x00, 0xBD, 0x00, 0x00, 0x02] &&
        t.interruptCount == 65536 && t.previousSample == 2) = true ∧
    nextWith (exec (.push 0x00) transState) (fun t => t.pPending == [0xBD, 0x01, 0x00, 0x00] && !t.firstSample) = true ∧
    nextWith (exec (.push 0xAA) { transState with interruptCount := 1, previousSample := 0xAA, firstSample := false })
      (fun t => t.pPending == [] && t.interruptCount == 2 && t.pResponses == [0x0000]) = true := by decide +kernel
/-- T13, lines 6 and 1. -/
theorem test_final_records :
    nextWith (exec .final transState) (fun t => t.pPending == [0xBD, 0x01, 0x00, 0xFF] && t.previousSample == 0xFF) = true ∧
    nextWith (exec .final { transState with interruptCount := 2, previousSample := 0xAA, firstSample := false })
      (fun t => t.pPending == [0xBD, 0x03, 0x00, 0x00] && t.interruptCount == 3) = true := by decide +kernel
/-- T13, last sentence: nothing in continuous mode. -/
theorem test_final_continuous : nextWith (exec .final { State.reset with cfgChannelCount := 8, interruptCount := 1 })
    (fun t => t.pPending == [] && t.interruptCount == 1 && t.pResponses == [0x0000]) = true := by decide +kernel
/-- T14 (d): the last byte of a torn record is dropped, and the command answers `Ok`. -/
theorem test_step_drops_byte : nextWith (step { fullQueue with pPending := [0xAA], turns := [.p] }) (fun t =>
    t.buf == [(0, 0x10)] && t.tail == 0 && t.count == 4096 && t.overflow && t.pPending == [] &&
    t.pResponses == [0x0000]) = true := by decide +kernel

/-! ### The compressor (T15 to T18) -/

/-- T15, `PutCode` alone. -/
theorem test_putCode :
    let a := putCode reference 0x041 State.reset
    let b := putCode reference 0x042 a
    let c := putCode reference 0x1FFF b
    a.sink = [0x02] ∧ a.outBits = 5 ∧ a.outByte = 0x08 ∧ b.sink = [0x02, 0x08, 0x10] ∧ b.outBits = 2 ∧ b.outByte = 0x80 ∧
    c.sink = [0x02, 0x08, 0x10, 0xBF] ∧ c.outBits = 7 ∧ c.outByte = 0xFE := by decide +kernel
/-- T18: `CINIT` after a byte discards it and keeps `sink`. -/
theorem test_cinit : nextWith (exec .cinit { probing with cmpReady := false }) (fun t => t.cmpReady && t.firstByte &&
    t.freeEntry == 257 && t.hashTable == [] && t.outBits == 0 && t.outByte == 0 && t.sink == [0x02, 0x08, 0x10]) = true := by
  decide +kernel
/-- T20 (c), T18: a build that breaks R8 cannot initialise. -/
theorem test_cinit_fails : badParams.cmpInitOk = false ∧ nextWith (runCinit badParams State.reset) (fun t =>
    !t.cmpReady && t.cResponses == [0x2000]) = true := by decide +kernel
/-- T16 (a): a collision at slot 2049, the phrase goes to slot 4098. -/
theorem test_cbyte_probes : nextWith (exec (.cbyte 0x43) probing) (fun t =>
    t.hashTable == [(2049, 0x00410042), (3170, 0x00420061), (4098, 0x00610043)] &&
    t.codeTable == [(2049, 257), (3170, 258), (4098, 259)] && t.currentPhraseCode == 67 && t.freeEntry == 260 &&
    t.outBits == 7 && t.outByte == 0xC2 && t.sink == [0x02, 0x08, 0x10, 0x80]) = true := by decide +kernel
/-- T16 (b): a collision at slot 0, the phrase goes to slot 9000. T17 at `NBITS` 9: the code space is exhausted. -/
theorem test_cbyte_slot_zero_and_eviction :
    nextWith (exec (.cbyte 0x01) { ready with
      firstByte := false
      currentPhraseCode := 0x20
      freeEntry := 259
      hashTable := [(0, 0x00000000), (1024, 0x00000020)]
      codeTable := [(0, 257), (1024, 258)] })
      (fun t => t.hashTable == [(0, 0x00000000), (1024, 0x00000020), (9000, 0x00200001)] && t.currentPhraseCode == 1) = true ∧
    nextWith (runCbyte smallParams 0xFF { ready with firstByte := false, currentPhraseCode := 254, freeEntry := 511 })
      (fun t => t.freeEntry == 257 && t.hashTable == [] && t.currentPhraseCode == 255 && t.outBits == 2 &&
        packedBits t == bitsMsb 9 (254 : Code) ++ bitsMsb 9 (256 : Code)) = true := by decide +kernel
/-- T15 line 1, and T16 (a) to its end. -/
theorem test_cflush :
    nextWith (exec .cflush ready) (fun t => t.sink == [0xFF, 0xF8] && !t.cmpReady && t.outBits == 0) = true ∧
    nextWith (exec .cflush { probing with currentPhraseCode := 67, outBits := 7, outByte := 0xC2 }) (fun t =>
      t.sink == [0x02, 0x08, 0x10, 0xC2, 0x04, 0x3F, 0xFF, 0x80] && !t.cmpReady) = true := by decide +kernel
/-- T18: refused from power-on. -/
theorem test_compressor_refused :
    nextWith (exec .cflush State.reset) (fun t => t == { State.reset with cResponses := [0x4000] }) = true ∧
    nextWith (exec (.cbyte 0x41) State.reset) (fun t => t == { State.reset with cResponses := [0x4000] }) = true := by
  decide +kernel
/-- T6: the decoder of R202 on `FF F8`, and T15 line 4. -/
theorem test_expandStream : expandStream reference [0xFF, 0xF8] = some [] ∧
    expandStream reference [0x02, 0x08, 0x10, 0x82, 0x02, 0x10, 0x3F, 0xFF, 0x80] =
      some [0x41, 0x42, 0x41, 0x42, 0x41, 0x42, 0x41] := by decide +kernel

/-! ### Configuration and session (T19, T20, P3) -/

/-- T19: the words at the ends of the ranges, and the priority of `INVALID_CONFIGURATION`. -/
theorem test_configuration_ranges :
    ([0x40000000, 0x40000009, 0x41000009, 0x41989681, 0x42000009, 0x420186A1, 0x43000002, 0x44000002].all (fun w =>
      nextWith (stepWord w) (fun t => t == { State.reset with cResponses := [0x3000] }))) = true ∧
    ([0x40000001, 0x40000008, 0x4100000A, 0x41989680, 0x4200000A, 0x420186A0, 0x43000001, 0x44000001].all (fun w =>
      nextWith (stepWord w) (fun t => t.cResponses == [0x0000]))) = true ∧
    nextWith (exec (.cfgch 9) { State.reset with session := .active }) (fun t => t.cResponses == [0x3000]) = true ∧
    nextWith (exec (.cfgch 8) { State.reset with session := .active }) (fun t => t.cResponses == [0x4000]) = true := by
  decide +kernel
theorem test_configuration_values :
    (resultOf (exec (.cfgch 8) State.reset)).cfgChannelCount = 8 ∧
    (resultOf (exec (.cfgrate 10000000) State.reset)).cfgSampleRateHz = 10000000 ∧
    (resultOf (exec (.cfgdur 100000) State.reset)).cfgSessionDurationMs = 100000 ∧
    (resultOf (exec (.cfgmode 1) State.reset)).cfgMode = .transitionOnly ∧
    (resultOf (exec (.cfgcmp 1) State.reset)).cfgCompressionEnabled = true := by decide +kernel
/-- T20 (a), (b). -/
theorem test_start :
    nextWith (exec .start { nearlyFull with cfgChannelCount := 2, cmpReady := true, sink := [1] }) (fun t =>
      t.session == .active && t.stackMask == 0x03 && !t.cmpReady && t.count == 0 && t.sink == []) = true ∧
    nextWith (exec .start { State.reset with cfgCompressionEnabled := true }) (fun t =>
      t.session == .active && t.cmpReady && t.firstByte && t.freeEntry == 257) = true := by decide +kernel
/-- P2: the synthetic final sample of `STOP`. T20 (a): `STOP` in `Draining` is refused. -/
theorem test_stop :
    nextWith (exec .stop { transState with
      session := .active
      interruptCount := 3
      previousSample := 0xBB
      firstSample := false
      tail := 8
      count := 8 }) (fun t => t.session == .draining && t.tail == 12 && t.count == 12 &&
        t.buf == [(8, 0xBD), (9, 0x04)] && t.interruptCount == 4 && t.previousSample == 0) = true ∧
    nextWith (exec .stop { State.reset with session := .draining }) (fun t => t.cResponses == [0x4000]) = true := by
  decide +kernel
/-- P3, `POP`s 3, 9 and 14. -/
theorem test_pop_compressed :
    nextWith (exec .pop { ready with
        cfgCompressionEnabled := true
        session := .draining
        firstByte := false
        buf := [(2, 0x41)]
        head := 2
        tail := 7
        count := 5
        currentPhraseCode := 66
        freeEntry := 258
        outBits := 5
        outByte := 0x08
        hashTable := [(2049, 0x00410042)]
        codeTable := [(2049, 257)] }) (fun t => t.cResponses == [0x0108] && t.sink == [0x10] &&
      t.count == 4 && t.freeEntry == 259 && t.outBits == 2 && t.outByte == 0x80) = true ∧
    nextWith (exec .pop { ready with
        cfgCompressionEnabled := true
        session := .draining
        firstByte := false
        currentPhraseCode := 259
        outBits := 7
        outByte := 0x02 }) (fun t => t.cResponses == [0x0102] &&
      t.sink == [0x10, 0x3F, 0xFF, 0x80] && !t.cmpReady && t.session == .draining) = true ∧
    nextWith (exec .pop { State.reset with cfgCompressionEnabled := true, session := .draining }) (fun t =>
      t.cResponses == [0x0000] && t.session == .idle) = true := by decide +kernel
/-- P1: the two `POP`s of an uncompressed session. -/
theorem test_pop_uncompressed :
    nextWith (exec .pop { State.reset with session := .draining, buf := [(0, 0x53)], tail := 1, count := 1 }) (fun t =>
      t.cResponses == [0x0153] && t.head == 1 && t.count == 0 && t.session == .draining) = true ∧
    nextWith (exec .pop { State.reset with session := .draining }) (fun t =>
      t.cResponses == [0x0000] && t.session == .idle) = true := by decide +kernel
/-- T19, last line. -/
theorem test_sstat : ([.idle, .active, .draining].map (fun (x : Session) =>
    (resultOf (exec .sstat { State.reset with session := x })).cResponses)) = [[0x0100], [0x0101], [0x0102]] := by
  decide +kernel

/-! ### Witnesses: states and operands that meet the hypotheses of each statement, clause by clause, at the ends of
their ranges -/

theorem witness_illegalWords :
    legalWord .p 0x100000FF ∧ legalWord .c 0x40FFFFFF ∧ legalWord .c 0x4B000000 ∧
    ¬ legalWord .c 0x4C000000 ∧ ¬ legalWord .c 0x48000001 ∧ ¬ legalWord .c 0x10000077 ∧ ¬ legalWord .p 0x11000100 := by
  refine ⟨?_, ?_, ?_, ?_, ?_, ?_, ?_⟩ <;> (unfold legalWord; decide)
theorem witness_illegalWordStates :
    (let s := { State.reset with turns := [.c], cCmds := [0x4C000000] }
     s.turns = .c :: [] ∧ s.cCmds = 0x4C000000 :: []) ∧
    (let s := { State.reset with turns := [.p], pCmds := [0x11000100] }
     s.turns = .p :: [] ∧ s.pPending = [] ∧ s.pCmds = 0x11000100 :: []) := by decide
theorem witness_stepExecutes :
    (let s := { State.reset with turns := [.c, .p], cCmds := [0x24000000], pPending := [1] }
     s.turns = .c :: [.p] ∧ s.cCmds = 0x24000000 :: [] ∧ decode .c 0x24000000 = .ok .qclear) ∧
    (let s := { State.reset with turns := [.p], pCmds := [0x110000FF] }
     s.turns = .p :: [] ∧ s.pPending = [] ∧ s.pCmds = 0x110000FF :: [] ∧ decode .p 0x110000FF = .ok (.push 0xFF)) := by
  decide +kernel
theorem witness_producerStep :
    (let s := { State.reset with turns := [.p], pPending := [0xBD] }
     s.turns = .p :: [] ∧ s.pPending = 0xBD :: [] ∧ s.count.toNat ≠ 4096) ∧
    (let s := { State.reset with turns := [.p], pPending := [0xBD, 0x01], count := 4096 }
     s.turns = .p :: [] ∧ s.pPending = 0xBD :: [0x01] ∧ s.count.toNat = 4096) := by decide
theorem witness_idle :
    State.reset.turns = [] ∧
    (let s := { State.reset with turns := [.c] }
     s.turns = .c :: [] ∧ s.cCmds = []) ∧
    (let s := { State.reset with turns := [.p] }
     s.turns = .p :: [] ∧ s.pPending = [] ∧ s.pCmds = []) := by decide
theorem witness_enq : nearlyFull.count.toNat ≠ 4096 ∧ fullQueue.count.toNat = 4096 := by decide
theorem witness_deq : fullQueue.count ≠ 0 ∧ State.reset.count = 0 := by decide
theorem witness_queueInv : QueueInv reference nearlyFull ∧ nearlyFull.count.toNat < 4096 ∧
    QueueInv reference fullQueue ∧ fullQueue.count.toNat = 4096 ∧
    QueueInv reference State.reset ∧ queueBytes reference State.reset = [] ∧
    (let s := { State.reset with buf := [(0, 2), (4095, 1)], head := 4095, tail := 1, count := 2 }
     QueueInv reference s ∧ queueBytes reference s = 1 :: [2]) := by decide +kernel
theorem witness_racing (v : Byte) :
    (let s := { fullQueue with turns := [.p, .c], pCmds := [0x10000000 ||| v.zeroExtend 32], cCmds := [0x20000000] }
     racing .p .c v s ∧ s.count.toNat = 4096) ∧
    (let s := { fullQueue with turns := [.c, .p], pCmds := [0x10000000 ||| v.zeroExtend 32], cCmds := [0x20000000] }
     racing .c .p v s ∧ s.count.toNat = 4096) ∧
    (let s := { State.reset with turns := [.p, .c], pCmds := [0x10000000 ||| v.zeroExtend 32], cCmds := [0x20000000] }
     racing .p .c v s ∧ s.count = 0 ∧ s.head = s.tail) ∧
    (let s := { State.reset with turns := [.c, .p], pCmds := [0x10000000 ||| v.zeroExtend 32], cCmds := [0x20000000] }
     racing .c .p v s ∧ s.count = 0) :=
  ⟨⟨⟨rfl, rfl, rfl, rfl⟩, rfl⟩, ⟨⟨rfl, rfl, rfl, rfl⟩, rfl⟩, ⟨⟨rfl, rfl, rfl, rfl⟩, rfl, rfl⟩, ⟨⟨rfl, rfl, rfl, rfl⟩, rfl⟩⟩

/-- P enqueues at a full queue, and C takes a byte. -/
def pFull : State := { fullQueue with turns := [.p], pCmds := [0x10000099] }
def cTakes : State := { fullQueue with turns := [.c], cCmds := [0x20000000] }

theorem witness_occupancy :
    (pFull.turns = .p :: [] ∧ pFull.count.toNat ≤ 4096 ∧ ∃ t, step pFull = .next t) ∧
    (cTakes.turns = .c :: [] ∧ (∀ w ∈ cTakes.cCmds.head?, w ≠ 0x24000000 ∧ w ≠ 0x48000000 ∧ w ≠ 0x49000000) ∧
      ∃ t, step cTakes = .next t) := by
  refine ⟨⟨rfl, by decide, _, next_of (by decide +kernel)⟩, rfl, ?_, _, next_of (by decide +kernel)⟩
  intro w hw
  simp only [cTakes, List.head?_cons, Option.mem_some_iff] at hw
  subst hw
  decide
theorem witness_overflowSticky : ∃ t, step { nearlyFull with turns := [.c], cCmds := [0x24000000] } = .next t ∧
    nearlyFull.overflow = true ∧ t.overflow = false :=
  ⟨_, next_of (by decide +kernel), by decide +kernel, by decide +kernel⟩
theorem witness_push :
    (let s := { State.reset with cfgChannelCount := 4, stackFill := 4 }
     s.cfgMode = .continuous ∧ s.cfgChannelCount.toNat ≤ 4 ∧ 8 ≤ (s.stackFill + s.cfgChannelCount).toNat) ∧
    (let s := { State.reset with cfgChannelCount := 4, stackFill := 3 }
     s.cfgMode = .continuous ∧ s.cfgChannelCount.toNat ≤ 4 ∧ ¬ 8 ≤ (s.stackFill + s.cfgChannelCount).toNat) ∧
    (let s := { State.reset with cfgChannelCount := 5 }
     s.cfgMode = .continuous ∧ 4 < s.cfgChannelCount.toNat) ∧
    transState.cfgMode = .transitionOnly ∧ State.reset.cfgMode = .continuous := by decide
theorem witness_producerFinishes :
    let s := { nearlyFull with pPending := [0xBD, 0x01], turns := [.p, .p, .c] }
    s.pPending ≠ [] ∧ s.turns = List.replicate s.pPending.length .p ++ [.c] ∧ QueueInv reference s := by decide +kernel
theorem witness_bytesPerPush :
    (∃ t, State.reset.pPending = [] ∧ State.reset.stackFill.toNat ≤ 7 ∧ exec (.push 0xFF) State.reset = .next t) ∧
    (let s := { State.reset with cfgChannelCount := 1, stackFill := 7 }
     ∃ t, s.pPending = [] ∧ s.stackFill.toNat ≤ 7 ∧ exec (.push 0xFF) s = .next t) ∧
    (let s := { transState with interruptCount := 0xFFFFFFFF }
     ∃ t, s.pPending = [] ∧ s.stackFill.toNat ≤ 7 ∧ exec (.push 0xFF) s = .next t) :=
  ⟨⟨_, rfl, by decide, next_of (by decide +kernel)⟩, ⟨_, rfl, by decide, next_of (by decide +kernel)⟩,
    ⟨_, rfl, by decide, next_of (by decide +kernel)⟩⟩
theorem witness_stackedByte :
    let s := { State.reset with cfgChannelCount := 3, stackMask := 0x07 }
    1 ≤ 3 ∧ 3 ≤ 4 ∧ s.cfgMode = .continuous ∧ s.cfgChannelCount.toNat = 3 ∧ s.stackMask = maskOfChannels 3 ∧
    s.stackedBits = 0 ∧ s.stackFill = 0 ∧ s.pPending = [] ∧ ([7, 7, 4] : List Byte).length = (8 + 3 - 1) / 3 := by decide
theorem witness_parameters : reference.meetsR8 = true ∧ badParams.meetsR8 = false ∧ smallParams.meetsR8 = true := by
  decide +kernel
theorem witness_initialisation :
    State.reset.session = .idle ∧ State.reset.cfgCompressionEnabled = false ∧
    (let s := { State.reset with cfgCompressionEnabled := true }
     s.session = .idle ∧ s.cfgCompressionEnabled = true) := by decide
theorem witness_refusedCompressor : State.reset.cmpReady = false := by decide
theorem witness_firstByte : ready.cmpReady = true ∧ ready.firstByte = true := by decide

theorem ready_inv : CompressorInv reference ready := by decide +kernel
theorem abab_inv : CompressorInv reference abab := by decide +kernel

theorem witness_knownPhrase : CompressorInv reference abab ∧ abab.hashTable.wf 0xFFFFFFFF 9001 ∧ abab.cmpReady = true ∧
    abab.firstByte = false ∧ tableFind abab abab.currentPhraseCode 0x42 = some 257 :=
  ⟨abab_inv, by decide +kernel⟩
theorem witness_newPhrase : CompressorInv reference abab ∧ abab.hashTable.wf 0xFFFFFFFF 9001 ∧ abab.cmpReady = true ∧
    abab.firstByte = false ∧ tableFind abab abab.currentPhraseCode 0x43 = none ∧ abab.freeEntry.toNat < 8191 :=
  ⟨abab_inv, by decide +kernel⟩
/-- One phrase short of the full dictionary, and the full dictionary. -/
theorem witness_lastPhrase :
    let s := learned 7933
    CompressorInv reference s ∧ s.hashTable.wf 0xFFFFFFFF 9001 ∧ s.cmpReady = true ∧ s.firstByte = false ∧
    tableFind s s.currentPhraseCode 0x00 = none ∧ s.freeEntry.toNat = 8190 :=
  ⟨learned_inv (by omega), learned_hash_wf (by omega), rfl, rfl, learned_misses (by omega), learned_free (by omega)⟩
theorem witness_fullDictionary :
    let s := learned 7934
    CompressorInv reference s ∧ s.hashTable.wf 0xFFFFFFFF 9001 ∧ s.cmpReady = true ∧ s.firstByte = false ∧
    tableFind s s.currentPhraseCode 0x00 = none ∧ s.freeEntry.toNat = 8191 :=
  ⟨learned_inv (by omega), learned_hash_wf (by omega), rfl, rfl, learned_misses (by omega), learned_free (by omega)⟩
theorem witness_packer : PackerInv State.reset ∧ PackerInv probing ∧
    PackerInv { State.reset with outByte := 0xFE, outBits := 7 } := by decide
theorem witness_cflush : State.reset.cmpReady = false ∧ (ready.cmpReady = true ∧ PackerInv ready) ∧
    (probing.cmpReady = true ∧ PackerInv probing) := by decide
theorem witness_lookup : reference.meetsR8 = true ∧ abab.cmpReady = true ∧ CompressorInv reference abab ∧
    Memory.wf reference.empty reference.hashSize abab.hashTable ∧ (0x41 : Code).toNat < 2 ^ reference.nbits ∧
    (8191 : Code).toNat < 2 ^ reference.nbits ∧ tableFind abab 0x41 0x42 = some 257 ∧ tableFind abab 8191 0xFF = none :=
  ⟨by decide +kernel, rfl, abab_inv, by decide +kernel⟩
theorem witness_bytesEmitted :
    (∃ t, exec .cinit probing = .next t) ∧ (∃ t, probing.cmpReady = true ∧ exec .cflush probing = .next t) ∧
    (∃ t, ready.cmpReady = true ∧ ready.firstByte = true ∧ exec (.cbyte 0xFF) ready = .next t) ∧
    (∃ t, abab.cmpReady = true ∧ abab.firstByte = false ∧ exec (.cbyte 0x42) abab = .next t) ∧
    (∃ t, abab.cmpReady = true ∧ abab.firstByte = false ∧ exec (.cbyte 0x43) abab = .next t) :=
  ⟨⟨_, next_of (by decide +kernel)⟩, ⟨_, rfl, next_of (by decide +kernel)⟩, ⟨_, rfl, rfl, next_of (by decide +kernel)⟩,
    ⟨_, rfl, rfl, next_of (by decide +kernel)⟩, ⟨_, rfl, rfl, next_of (by decide +kernel)⟩⟩
theorem witness_configures :
    ¬ (1 ≤ (9 : Imm).toNat ∧ (9 : Imm).toNat ≤ 8) ∧ (1 ≤ (8 : Imm).toNat ∧ (8 : Imm).toNat ≤ 8) ∧
    ¬ (10 ≤ (9 : Imm).toNat ∧ (9 : Imm).toNat ≤ 100000) ∧ (10 ≤ (100000 : Imm).toNat ∧ (100000 : Imm).toNat ≤ 100000) ∧
    (10 ≤ (10000000 : Imm).toNat ∧ (10000000 : Imm).toNat ≤ 10000000) ∧
    ¬ (10 ≤ (10000001 : Imm).toNat ∧ (10000001 : Imm).toNat ≤ 10000000) ∧
    (0 ≤ (1 : Imm).toNat ∧ (1 : Imm).toNat ≤ 1) ∧ ¬ (0 ≤ (2 : Imm).toNat ∧ (2 : Imm).toNat ≤ 1) ∧
    State.reset.session = .idle ∧ ({ State.reset with session := .draining }).session ≠ .idle := by decide
theorem witness_configure : State.reset.session = .idle ∧ 1 ≤ (8 : Imm).toNat ∧ (8 : Imm).toNat ≤ 8 ∧
    10 ≤ (10 : Imm).toNat ∧ (10 : Imm).toNat ≤ 10000000 ∧ 10 ≤ (100000 : Imm).toNat ∧ (100000 : Imm).toNat ≤ 100000 := by
  decide
theorem witness_startStop :
    State.reset.session = .idle ∧ ({ State.reset with session := .active }).session ≠ .idle ∧
    State.reset.session ≠ .active ∧
    (let s := { State.reset with session := .active }
     s.session = .active ∧ s.cfgMode = .continuous) ∧
    (let s := { transState with session := .active }
     s.session = .active ∧ s.cfgMode = .transitionOnly) := by decide
/-- An active transition-only session with one free element left. -/
theorem witness_storing :
    let s := { nearlyFull with session := .active, cfgMode := .transitionOnly }
    QueueInv reference s ∧ s.session = .active ∧ s.cfgMode = .transitionOnly := by decide +kernel
theorem witness_missedSlot :
    (∃ t, exec (.cbyte 0x43) probing = .next t ∧ probing.cmpReady = true ∧ probing.firstByte = false ∧
      lookup reference probing probing.currentPhraseCode 0x43 = .miss 4098 ∧ probing.freeEntry.toNat < 8191) ∧
    (∃ t, exec (.cbyte 0x42) abab = .next t ∧ ∃ c, lookup reference abab abab.currentPhraseCode 0x42 = .hit c) :=
  ⟨⟨_, next_of (by decide +kernel), rfl, rfl, by decide +kernel⟩, ⟨_, next_of (by decide +kernel), 257, by decide +kernel⟩⟩
theorem witness_popQueue : State.reset.cfgCompressionEnabled = false ∧ State.reset.count = 0 ∧
    fullQueue.cfgCompressionEnabled = false ∧ fullQueue.count ≠ 0 := by decide

/-- A compressed session in its several situations. -/
def compressed : State := { abab with cfgCompressionEnabled := true }

theorem witness_popCompressed :
    (compressed.cfgCompressionEnabled = true ∧ CompressorInv reference compressed ∧ compressed.hashTable.wf 0xFFFFFFFF 9001) ∧
    (let s := { compressed with sink := [0x02] }
     CompressorInv reference s ∧ s.sink ≠ []) ∧
    (let s := { compressed with cmpReady := false }
     CompressorInv reference s ∧ s.cmpReady = false) ∧
    (let s := { compressed with count := 1, tail := 1 }
     CompressorInv reference s ∧ s.sink = [] ∧ s.cmpReady = true ∧ s.count ≠ 0) ∧
    (let s := { compressed with session := .draining }
     CompressorInv reference s ∧ s.sink = [] ∧ s.cmpReady = true ∧ s.count = 0 ∧ s.session = .draining) ∧
    (compressed.sink = [] ∧ compressed.cmpReady = true ∧ compressed.count = 0 ∧ compressed.session ≠ .draining) :=
  ⟨by decide +kernel, by decide +kernel, by decide +kernel, by decide +kernel, by decide +kernel, by decide⟩
theorem witness_sinkShort :
    let s := { compressed with sink := [1, 2, 3, 4, 5] }
    ∃ t, exec .pop s = .next t ∧ s.cfgCompressionEnabled = true ∧ s.sink.length ≤ 5 :=
  ⟨_, next_of (by decide +kernel), by decide⟩
theorem witness_drain :
    (let s := { State.reset with session := .draining }
     QueueInv reference s ∧ s.cfgCompressionEnabled = false ∧ s.session = .draining ∧ s.count = 0) ∧
    (let s := { fullQueue with session := .draining }
     QueueInv reference s ∧ s.cfgCompressionEnabled = false ∧ s.session = .draining) := by decide +kernel
theorem witness_sessionMoves :
    (∃ t, exec .start State.reset = .next t ∧ t.session ≠ State.reset.session) ∧
    (∃ t, exec .stop { State.reset with session := .active } = .next t ∧ t.session ≠ .active) ∧
    (∃ t, exec .pop { State.reset with session := .draining } = .next t ∧ t.session ≠ .draining) :=
  ⟨⟨_, next_of (by decide +kernel), by decide +kernel⟩, ⟨_, next_of (by decide +kernel), by decide +kernel⟩,
    ⟨_, next_of (by decide +kernel), by decide +kernel⟩⟩
theorem witness_ownState : ∃ t, exec (.cfgch 3) State.reset = .next t ∧
    Instr.cfgch 3 ∉ ([.qclear, .start, .stop] : List Instr) ∧ (∀ v, Instr.cfgch 3 ≠ .enq v) ∧
    Instr.cfgch 3 ∉ ([.final, .qclear, .start, .stop] : List Instr) ∧ (∀ v, Instr.cfgch 3 ≠ .push v) ∧
    Instr.cfgch 3 ∉ ([.cinit, .cflush, .start, .pop] : List Instr) ∧ (∀ b, Instr.cfgch 3 ≠ .cbyte b) :=
  ⟨_, next_of (by decide +kernel), by decide, by simp, by decide, by simp, by decide, by simp⟩
theorem witness_rejected :
    (∃ t, exec (.cfgch 9) State.reset = .next t ∧ t.cResponses = State.reset.cResponses ++ [0x3000]) ∧
    (∃ t, exec .stop State.reset = .next t ∧ t.cResponses = State.reset.cResponses ++ [0x4000]) :=
  ⟨⟨_, next_of (by decide +kernel), by decide +kernel⟩, ⟨_, next_of (by decide +kernel), by decide +kernel⟩⟩
theorem witness_answersOnce :
    (∃ t, exec .pop fullQueue = .next t ∧ fullQueue.pPending = [] ∧ Instr.pop.port = .c) ∧
    (∃ t, exec (.enq 1) fullQueue = .next t ∧ (Instr.enq 1).port = .p ∧ t.pPending = []) ∧
    (∃ t, exec (.push 1) transState = .next t ∧ (Instr.push 1).port = .p ∧ t.pPending ≠ []) :=
  ⟨⟨_, next_of (by decide +kernel), rfl, rfl⟩, ⟨_, next_of (by decide +kernel), rfl, by decide +kernel⟩,
    ⟨_, next_of (by decide +kernel), rfl, by decide +kernel⟩⟩

/-- Two power-on states that differ in everything R290 leaves unspecified. -/
def powerOnA : State := { State.reset with cfgCompressionEnabled := true, cfgMode := .transitionOnly, stackMask := 0x0F }
def powerOnB : State := { State.reset with buf := [(7, 0x55)], hashTable := [(3, 1)], firstByte := true, outBits := 5 }

theorem witness_powerOn : PowerOn reference powerOnA ∧ PowerOn reference powerOnB ∧
    (∀ v, Instr.deq ≠ .push v) ∧ Instr.deq ∉ ([.final, .qclear, .start, .stop, .pop] : List Instr) ∧
    (∃ t, exec .deq powerOnA = .next t) ∧ (∃ t, exec .deq powerOnB = .next t) :=
  ⟨by decide +kernel, by decide +kernel, by simp, by decide, ⟨_, next_of (by decide +kernel)⟩,
    ⟨_, next_of (by decide +kernel)⟩⟩

/-- A running session at whose next step `CBYTE` learns a phrase. -/
def busy : State := { abab with turns := [.c], cCmds := [0x31000043], buf := [(0, 9)], count := 1, tail := 1 }

theorem witness_invariant : Inv reference State.reset ∧ Inv reference busy ∧ (∃ t, step busy = .next t) :=
  ⟨by decide +kernel, by decide +kernel, _, next_of (by decide +kernel)⟩
/-- The invariant holds again after that step. -/
theorem test_invariant_after_step : nextWith (step busy) (fun t => decide (Inv reference t)) = true := by decide +kernel

end Sys2Proof.Tests
end

/-! Scope: a command that completes answers once, at its port (spec/00_scope.md R6, spec/30_encoding.md R119).
Every command leaves what the ports hold as it found it, and then either responds with one word built by `responseWord`
or, for `PUSH` and `FINAL` with bytes to enqueue, lets the bytes wait (spec/20_memory.md R81). -/

namespace Sys2Proof.Machine

open Sys2Proof.Claims

/-! ### The shape of a response word -/

/-- A response word with data, as a number: its three nonzero fields of R119 stand side by side. -/
theorem responseWord_some_toNat (st : Status) (v : Byte) :
    (responseWord st (some v)).toNat = st.code.toNat * 4096 + 256 + v.toNat := by
  simp only [responseWord, BitVec.toNat_append, ← Nat.shiftLeft_add_eq_or_of_lt v.isLt]
  cases st <;> rfl

/-- Every word built from a status and optional data has the shape of R119. -/
theorem responseShape_responseWord (st : Status) (d : Option Byte) : responseShape (responseWord st d) := by
  unfold responseShape
  cases d with
  | none => cases st <;> decide
  | some v =>
    have hv := v.isLt
    rw [responseWord_some_toNat]
    refine ⟨?_, by omega, by omega⟩
    have hq : (st.code.toNat * 4096 + 256 + v.toNat) / 2 ^ 12 = st.code.toNat := by omega
    rw [hq]
    cases st <;> decide

/-! ### What the ports hold -/

/-- The two states hold the same responses at both ports and the same bytes still to enqueue. -/
structure SamePorts (s t : State) : Prop where
  pPending : t.pPending = s.pPending
  pResponses : t.pResponses = s.pResponses
  cResponses : t.cResponses = s.cResponses

theorem SamePorts.refl (s : State) : SamePorts s s := ⟨rfl, rfl, rfl⟩

theorem SamePorts.after {s t u : State} (g : SamePorts t u) (h : SamePorts s t) : SamePorts s u :=
  ⟨g.pPending.trans h.pPending, g.pResponses.trans h.pResponses, g.cResponses.trans h.cResponses⟩

theorem samePorts_enq (P : Params) (v : Byte) (s : State) : SamePorts s (enq P v s).2 := by
  rw [enq_frame]; exact ⟨rfl, rfl, rfl⟩

theorem samePorts_enqAll (P : Params) (vs : List Byte) (s : State) : SamePorts s (enqAll P vs s) := by
  rw [enqAll_frame]; exact ⟨rfl, rfl, rfl⟩

theorem samePorts_encStep (P : Params) (raw : Byte) (s : State) : SamePorts s (encStep P raw s).2 := by
  rw [encStep_frame]; exact ⟨rfl, rfl, rfl⟩

theorem samePorts_finalStep (P : Params) (s : State) : SamePorts s (finalStep P s).2 := by
  rw [finalStep_frame]; exact ⟨rfl, rfl, rfl⟩

theorem samePorts_flushCompressor (P : Params) (s : State) : SamePorts s (flushCompressor P s) := by
  rw [flushCompressor_frame]; exact ⟨rfl, rfl, rfl⟩

theorem samePorts_compressByte {P : Params} {b : Byte} {s t : State} (h : compressByte P b s = .next t) :
    SamePorts s t := by
  rw [(compressByte_frame h).1]; exact ⟨rfl, rfl, rfl⟩

theorem samePorts_refillSink {P : Params} {s t : State} (h : refillSink P s = .next t) : SamePorts s t := by
  rcases refillSink_cases P s with ⟨_, e⟩ | ⟨_, _, _, e⟩ | ⟨_, _, _, _, e⟩ | ⟨_, _, _, _, e⟩ <;> rw [e] at h
  · cases h; exact .refl s
  · exact (samePorts_compressByte h).after ⟨rfl, rfl, rfl⟩
  · cases h; exact samePorts_flushCompressor P s
  · cases h; exact .refl s

/-! ### One answer, or bytes that wait -/

/-- `t` is a state that holds at the ports what `s` does, with one response word more at the given port. -/
def Answers (port : Port) (s t : State) : Prop :=
  ∃ (st : Status) (d : Option Byte) (u : State), t = respond port (responseWord st d) u ∧ SamePorts s u

/-- `t` is a state that holds at the ports what `s` does, except that bytes wait for the producer's next steps. -/
def Awaits (s t : State) : Prop :=
  ∃ (out : List Byte) (u : State), out ≠ [] ∧ t = { u with pPending := out } ∧ SamePorts s u

theorem SamePorts.answers {port : Port} {s t u : State} (h : SamePorts s t) (g : Answers port t u) :
    Answers port s u := by
  obtain ⟨st, d, v, e, hv⟩ := g
  exact ⟨st, d, v, e, hv.after h⟩

/-- A step that ends in `next` has gone through both of its parts. -/
theorem andThen_eq_next {o : Host.Outcome State Fault Refusal} {f : State → Host.Outcome State Fault Refusal}
    {t : State} (h : andThen o f = .next t) : ∃ u, o = .next u ∧ f u = .next t := by
  cases o with
  | next u => exact ⟨u, rfl, h⟩
  | fault r => cases h
  | refused r => cases h

/-! ### The commands of port P -/

theorem runEnq_answers {P : Params} {v : Byte} {s t : State} (h : runEnq P v s = .next t) : Answers .p s t := by
  have hs := samePorts_enq P v s
  unfold runEnq at h
  rcases enq_cases P v s with ⟨_, e⟩ | ⟨_, e⟩ <;> rw [e] at h hs <;> cases h
  · exact ⟨.queueOverflow, none, _, rfl, hs⟩
  · exact ⟨.ok, none, _, rfl, hs⟩

theorem beginEnqueues_answers_or_awaits {s u : State} (out : List Byte) (h : SamePorts s u) :
    Answers .p s (beginEnqueues out u) ∨ Awaits s (beginEnqueues out u) := by
  rcases beginEnqueues_cases out u with ⟨_, e⟩ | ⟨hne, e⟩ <;> rw [e]
  · exact .inl ⟨.ok, none, u, rfl, h⟩
  · exact .inr ⟨out, u, hne, rfl, h⟩

/-! ### The commands of port C -/

theorem runDeq_answers {P : Params} {s t : State} (h : runDeq P s = .next t) : Answers .c s t := by
  unfold runDeq at h
  rcases deq_cases P s with ⟨_, e⟩ | ⟨_, e⟩ <;> rw [e] at h <;> cases h
  · exact ⟨.ok, none, s, rfl, .refl s⟩
  · exact ⟨.ok, some _, _, rfl, ⟨rfl, rfl, rfl⟩⟩

theorem runCinit_answers {P : Params} {s t : State} (h : runCinit P s = .next t) : Answers .c s t := by
  unfold runCinit at h
  split at h <;> cases h
  · exact ⟨.ok, none, _, rfl, ⟨rfl, rfl, rfl⟩⟩
  · exact ⟨.compressorInitFailure, none, _, rfl, ⟨rfl, rfl, rfl⟩⟩

theorem runCbyte_answers {P : Params} {b : Byte} {s t : State} (h : runCbyte P b s = .next t) : Answers .c s t := by
  unfold runCbyte at h
  split at h
  · obtain ⟨u, hu, e⟩ := andThen_eq_next h
    cases e
    exact ⟨.ok, none, u, rfl, samePorts_compressByte hu⟩
  · cases h; exact ⟨.refused, none, s, rfl, .refl s⟩

theorem runCflush_answers {P : Params} {s t : State} (h : runCflush P s = .next t) : Answers .c s t := by
  unfold runCflush at h
  split at h <;> cases h
  · exact ⟨.ok, none, _, rfl, samePorts_flushCompressor P s⟩
  · exact ⟨.refused, none, s, rfl, .refl s⟩

/-- A configuration command answers, whatever register it writes. -/
theorem configure_answers {legal : Bool} {s t u : State} (h : configure legal u s = .next t) (hu : SamePorts s u) :
    Answers .c s t := by
  rcases configure_cases legal u s with ⟨_, e⟩ | ⟨_, _, e⟩ | ⟨_, _, e⟩ <;> rw [e] at h <;> cases h
  · exact ⟨.invalidConfiguration, none, s, rfl, .refl s⟩
  · exact ⟨.ok, none, u, rfl, hu⟩
  · exact ⟨.refused, none, s, rfl, .refl s⟩

theorem runStart_answers {P : Params} {s t : State} (h : runStart P s = .next t) : Answers .c s t := by
  unfold runStart at h
  split at h <;> cases h
  · rcases startSession_cases P s with ⟨_, _, e⟩ | ⟨_, _, e⟩ | ⟨_, e⟩ <;> rw [e]
    · exact ⟨.ok, none, _, rfl, ⟨rfl, rfl, rfl⟩⟩
    · exact ⟨.compressorInitFailure, none, _, rfl, ⟨rfl, rfl, rfl⟩⟩
    · exact ⟨.ok, none, _, rfl, ⟨rfl, rfl, rfl⟩⟩
  · exact ⟨.refused, none, s, rfl, .refl s⟩

theorem runStop_answers {P : Params} {s t : State} (h : runStop P s = .next t) : Answers .c s t := by
  unfold runStop at h
  split at h <;> cases h
  · have hf : SamePorts s (finalStep P { s with session := .draining }).2 :=
      (samePorts_finalStep P _).after ⟨rfl, rfl, rfl⟩
    exact ⟨.ok, none, _, rfl, (samePorts_enqAll P _ _).after hf⟩
  · exact ⟨.refused, none, s, rfl, .refl s⟩

theorem popQueue_answers (P : Params) (s : State) : Answers .c s (popQueue P s) := by
  rcases popQueue_cases P s with ⟨_, e⟩ | ⟨_, e⟩ <;> rw [e]
  · exact ⟨.ok, none, _, rfl, by split <;> exact ⟨rfl, rfl, rfl⟩⟩
  · exact ⟨.ok, some _, _, rfl, ⟨rfl, rfl, rfl⟩⟩

theorem deliverSink_answers (s : State) : Answers .c s (deliverSink s) := by
  rcases deliverSink_cases s with ⟨v, rest, _, e⟩ | ⟨_, _, _, e⟩ | ⟨_, _, e⟩ <;> rw [e]
  · exact ⟨.ok, some v, _, rfl, ⟨rfl, rfl, rfl⟩⟩
  · exact ⟨.ok, none, _, rfl, ⟨rfl, rfl, rfl⟩⟩
  · exact ⟨.ok, none, s, rfl, .refl s⟩

theorem runPop_answers {P : Params} {s t : State} (h : runPop P s = .next t) : Answers .c s t := by
  unfold runPop at h
  split at h
  · obtain ⟨u, hu, e⟩ := andThen_eq_next h
    cases e
    exact (samePorts_refillSink hu).answers (deliverSink_answers u)
  · cases h; exact popQueue_answers P s

/-! ### All commands -/

/-- A command that completes answers at its port at once, or is a P command whose bytes wait (R6, R81). -/
theorem exec_answers_or_awaits {i : Instr} {s t : State} (h : exec i s = .next t) :
    Answers i.port s t ∨ (i.port = .p ∧ Awaits s t) := by
  cases i with
  | enq v => exact .inl (runEnq_answers h)
  | push raw =>
    cases h
    exact (beginEnqueues_answers_or_awaits _ (samePorts_encStep reference raw s)).imp_right (.intro rfl)
  | final =>
    cases h
    exact (beginEnqueues_answers_or_awaits _ (samePorts_finalStep reference s)).imp_right (.intro rfl)
  | deq => exact .inl (runDeq_answers h)
  | qempty port => cases h; exact .inl ⟨.ok, some _, s, rfl, .refl s⟩
  | qfull port => cases h; exact .inl ⟨.ok, some _, s, rfl, .refl s⟩
  | qovf port => cases h; exact .inl ⟨.ok, some _, s, rfl, .refl s⟩
  | qclear => cases h; exact .inl ⟨.ok, none, _, rfl, ⟨rfl, rfl, rfl⟩⟩
  | cinit => exact .inl (runCinit_answers (P := reference) h)
  | cbyte b => exact .inl (runCbyte_answers h)
  | cflush => exact .inl (runCflush_answers h)
  | cfgch n => exact .inl (configure_answers h ⟨rfl, rfl, rfl⟩)
  | cfgrate n => exact .inl (configure_answers h ⟨rfl, rfl, rfl⟩)
  | cfgdur n => exact .inl (configure_answers h ⟨rfl, rfl, rfl⟩)
  | cfgmode n => exact .inl (configure_answers h ⟨rfl, rfl, rfl⟩)
  | cfgcmp n => exact .inl (configure_answers h ⟨rfl, rfl, rfl⟩)
  | start => exact .inl (runStart_answers h)
  | stop => exact .inl (runStop_answers h)
  | pop => exact .inl (runPop_answers h)
  | sstat => cases h; exact .inl ⟨.ok, some _, s, rfl, .refl s⟩

/-- What one answer at port C changes at the ports. -/
theorem Answers.at_c {s t : State} (h : Answers .c s t) :
    t.pPending = s.pPending ∧ t.pResponses = s.pResponses ∧
      ∃ r, responseShape r ∧ t.cResponses = s.cResponses ++ [r] := by
  obtain ⟨st, d, u, rfl, hpend, hp, hc⟩ := h
  exact ⟨hpend, hp, _, responseShape_responseWord st d, by rw [respond_c_cResponses, hc]⟩

/-- What one answer at port P changes at the ports. -/
theorem Answers.at_p {s t : State} (h : Answers .p s t) :
    t.pPending = s.pPending ∧ t.cResponses = s.cResponses ∧
      ∃ r, responseShape r ∧ t.pResponses = s.pResponses ++ [r] := by
  obtain ⟨st, d, u, rfl, hpend, hp, hc⟩ := h
  exact ⟨hpend, hc, _, responseShape_responseWord st d, by rw [respond_p_pResponses, hp]⟩

/-- Settles O53: each command's answer, read off `exec_answers_or_awaits` at the two ports. -/
theorem everyCommandAnswersOnceAtItsPort : Obligations.EveryCommandAnswersOnceAtItsPort := by
  intro i s t h hs
  rcases exec_answers_or_awaits h with ha | ⟨hport, out, u, hne, rfl, hu⟩
  · constructor <;> intro hport <;> rw [hport] at ha
    · obtain ⟨hpend, hp, hr⟩ := ha.at_c
      exact ⟨hp, hpend.trans hs, hr⟩
    · obtain ⟨hpend, hc, hr⟩ := ha.at_p
      exact ⟨hc, .inl ⟨hpend.trans hs, hr⟩⟩
  · refine ⟨fun hc => ?_, fun _ => ⟨hu.cResponses, .inr ⟨hne, hu.pResponses⟩⟩⟩
    rw [hport] at hc
    cases hc

end Sys2Proof.Machine

/-! Scope: the rules of the state of spec/10_state.md: the refusals of a compressor that is not initialised (R54), the
length of the `sink` under `POP` (R58), and the moves of `session` (R55). The last two rest on one count of the bits
that the compressor's steps put out (spec/42_compressor.md R205). A refill starts from an empty `sink`, at most 7 held
bits and two codes of 13, so with the padding it leaves five bytes at most; and `CFLUSH` puts out a whole code, so it
never leaves the `sink` empty. -/

namespace Sys2Proof.Machine

/-! ### A compressor that is not initialised (R54) -/

theorem runCbyte_of_not_ready (P : Params) (b : Byte) {s : State} (h : s.cmpReady = false) :
    runCbyte P b s = .next (raiseError .c .refused s) := by
  simp [runCbyte, h]

theorem runCflush_of_not_ready (P : Params) {s : State} (h : s.cmpReady = false) :
    runCflush P s = .next (raiseError .c .refused s) := by
  simp [runCflush, h]

/-- A refusal at port C is the word 0x4000 and nothing else. -/
theorem raiseError_c_refused (s : State) :
    raiseError .c .refused s = { s with cResponses := s.cResponses ++ [0x4000] } := by
  rw [raiseError_eq, respError_refused, respond_c_eq]

/-- Settles O26: both commands raise the refusal. -/
theorem compressorRefusesUntilInitialised : Obligations.CompressorRefusesUntilInitialised := by
  intro s b h
  rw [← raiseError_c_refused]
  exact ⟨runCbyte_of_not_ready reference b h, runCflush_of_not_ready reference h⟩

/-! ### The bits put out (spec/42_compressor.md R205) -/

/-- The number of bits put out so far: eight for each byte of the `sink`, and those the packer holds. -/
def bitsOut (s : State) : Nat := 8 * s.sink.length + s.outBits.toNat

theorem bitsOut_putCode (P : Params) (c : Code) (s : State) : bitsOut (putCode P c s) = bitsOut s + P.nbits :=
  putBits_count c P.nbits s

theorem bitsOut_learnPhrase (P : Params) (old : Code) (b : Byte) (slot : Nat) (s : State) :
    bitsOut (learnPhrase P old b slot s) = bitsOut s := rfl

theorem bitsOut_tableReset (P : Params) (s : State) : bitsOut (tableReset P s) = bitsOut s := rfl

theorem bitsOut_setPhraseCode (c : Code) (s : State) : bitsOut { s with currentPhraseCode := c } = bitsOut s := rfl

/-- A miss puts out one code or two. -/
theorem bitsOut_missPhrase_le (P : Params) (b : Byte) (slot : Nat) (s : State) :
    bitsOut (missPhrase P b slot s) ≤ bitsOut s + 2 * P.nbits := by
  unfold missPhrase
  simp only
  split
  · rw [bitsOut_learnPhrase, bitsOut_setPhraseCode, bitsOut_putCode]
    omega
  · rw [bitsOut_tableReset, bitsOut_putCode, bitsOut_setPhraseCode, bitsOut_putCode]
    omega

/-- The steps of `CBYTE` put out at most two codes. -/
theorem bitsOut_compressByte_le {P : Params} {b : Byte} {s t : State} (h : compressByte P b s = .next t) :
    bitsOut t ≤ bitsOut s + 2 * P.nbits := by
  rcases compressByte_cases P b s with ⟨_, e⟩ | ⟨_, _, _, e⟩ | ⟨_, slot, _, e⟩ | ⟨_, _, _, e⟩ <;> rw [e] at h <;>
    cases h
  · exact Nat.le_add_right (bitsOut s) _
  · exact Nat.le_add_right (bitsOut s) _
  · exact bitsOut_missPhrase_le P b slot s

/-- The padding fills at most the seven free places of a partial byte. -/
theorem padByte_sink_length (s : State) :
    bitsOut s ≤ 8 * (padByte s).sink.length ∧ 8 * (padByte s).sink.length ≤ bitsOut s + 7 := by
  unfold padByte bitsOut
  split
  · rename_i h
    simp [h]
  · rename_i h
    have hne : s.outBits.toNat ≠ 0 := fun h0 => h (BitVec.eq_of_toNat_eq h0)
    have hlt := s.outBits.isLt
    simp only [emit_sink, List.length_append, List.length_cons, List.length_nil]
    omega

/-- The steps of `CFLUSH` put out one code or two and the padding. -/
theorem flushCompressor_sink_length (P : Params) (s : State) :
    bitsOut s + P.nbits ≤ 8 * (flushCompressor P s).sink.length ∧
      8 * (flushCompressor P s).sink.length ≤ bitsOut s + 2 * P.nbits + 7 := by
  unfold flushCompressor
  simp only
  obtain ⟨hlo, hhi⟩ := padByte_sink_length
    (putCode P (BitVec.ofNat 16 P.eosCode) (if s.firstByte then s else putCode P s.currentPhraseCode s))
  have hpending : bitsOut s ≤ bitsOut (if s.firstByte then s else putCode P s.currentPhraseCode s) ∧
      bitsOut (if s.firstByte then s else putCode P s.currentPhraseCode s) ≤ bitsOut s + P.nbits := by
    split
    · omega
    · rw [bitsOut_putCode]; omega
  rw [bitsOut_putCode] at hlo hhi
  omega

/-- `CFLUSH` always emits a byte, since the end-of-stream code is longer than one. -/
theorem flushCompressor_sink_ne_nil (s : State) : (flushCompressor reference s).sink ≠ [] := by
  intro h
  have hlo := (flushCompressor_sink_length reference s).1
  rw [h, reference_nbits, List.length_nil] at hlo
  omega

/-! ### `POP` (spec/43_session.md R235) -/

/-- What a `POP` that completes has done: a refill and a delivery, or with compression off a `popQueue`. -/
theorem runPop_eq_next {P : Params} {s t : State} (h : runPop P s = .next t) :
    (s.cfgCompressionEnabled = true ∧ ∃ u, refillSink P s = .next u ∧ t = deliverSink u) ∨
      (s.cfgCompressionEnabled = false ∧ t = popQueue P s) := by
  unfold runPop at h
  cases hc : s.cfgCompressionEnabled <;> rw [hc] at h
  · cases h
    exact .inr ⟨rfl, rfl⟩
  · obtain ⟨u, hu, e⟩ := andThen_eq_next h
    cases e
    exact .inl ⟨rfl, u, hu, rfl⟩

/-- R58: the refill leaves at most five bytes in the `sink`. -/
theorem refillSink_sink_length {s u : State} (h : refillSink reference s = .next u) (hs : s.sink.length ≤ 5) :
    u.sink.length ≤ 5 := by
  have hlt := s.outBits.isLt
  rcases refillSink_cases reference s with ⟨_, e⟩ | ⟨hnil, _, _, e⟩ | ⟨hnil, _, _, _, e⟩ | ⟨_, _, _, _, e⟩ <;>
    rw [e] at h
  · cases h; exact hs
  · have hle := bitsOut_compressByte_le h
    simp only [bitsOut, hnil, List.length_nil, reference_nbits] at hle
    omega
  · rw [← Host.Outcome.next.inj h]
    have hle := (flushCompressor_sink_length reference s).2
    simp only [bitsOut, hnil, List.length_nil, reference_nbits] at hle
    omega
  · cases h; exact hs

/-- The delivery takes one byte from the `sink`, if there is one. -/
theorem deliverSink_sink (s : State) : (deliverSink s).sink = s.sink.tail := by
  rcases deliverSink_cases s with ⟨v, rest, hs, e⟩ | ⟨hs, _, _, e⟩ | ⟨hs, _, e⟩ <;> rw [e] <;> simp [hs]

/-- Settles O46: five bytes at most after the refill, and the delivery takes one of them. -/
theorem popKeepsSinkShort : Obligations.PopKeepsSinkShort := by
  intro s t h hc hs
  rcases runPop_eq_next h with ⟨_, u, hu, rfl⟩ | ⟨hoff, _⟩
  · have hlen := refillSink_sink_length hu hs
    rw [deliverSink_sink, List.length_tail]
    omega
  · rw [hc] at hoff
    cases hoff

/-! ### The steps that leave `session` alone (R55) -/

@[simp] theorem enqAll_session (P : Params) (vs : List Byte) (s : State) : (enqAll P vs s).session = s.session := by
  rw [enqAll_frame, State.withQueueOf_session]

@[simp] theorem encStep_session (P : Params) (raw : Byte) (s : State) : (encStep P raw s).2.session = s.session := by
  rw [encStep_frame, State.withEncoderOf_session]

@[simp] theorem finalStep_session (P : Params) (s : State) : (finalStep P s).2.session = s.session := by
  rw [finalStep_frame, State.withEncoderOf_session]

@[simp] theorem flushCompressor_session (P : Params) (s : State) : (flushCompressor P s).session = s.session := by
  rw [flushCompressor_frame]; rfl

theorem compressByte_session {P : Params} {b : Byte} {s t : State} (h : compressByte P b s = .next t) :
    t.session = s.session := by
  rw [(compressByte_frame h).1, State.withCompressorOf_session]

theorem refillSink_session {P : Params} {s t : State} (h : refillSink P s = .next t) : t.session = s.session := by
  rcases refillSink_cases P s with ⟨_, e⟩ | ⟨_, _, _, e⟩ | ⟨_, _, _, _, e⟩ | ⟨_, _, _, _, e⟩ <;> rw [e] at h
  · cases h; rfl
  · exact (compressByte_session h).trans rfl
  · cases h; exact flushCompressor_session P s
  · cases h; rfl

@[simp] theorem beginEnqueues_session (out : List Byte) (s : State) : (beginEnqueues out s).session = s.session := by
  rcases beginEnqueues_cases out s with ⟨_, e⟩ | ⟨_, e⟩ <;> rw [e]
  exact respond_session _ _ _

/-! ### The commands that leave `session` alone -/

theorem runEnq_session {P : Params} {v : Byte} {s t : State} (h : runEnq P v s = .next t) :
    t.session = s.session := by
  unfold runEnq at h
  rcases enq_cases P v s with ⟨_, e⟩ | ⟨_, e⟩ <;> rw [e] at h <;> cases h <;> rfl

theorem runDeq_session {P : Params} {s t : State} (h : runDeq P s = .next t) : t.session = s.session := by
  unfold runDeq at h
  rcases deq_cases P s with ⟨_, e⟩ | ⟨_, e⟩ <;> rw [e] at h <;> cases h <;> rfl

theorem runCinit_session {P : Params} {s t : State} (h : runCinit P s = .next t) : t.session = s.session := by
  unfold runCinit at h
  split at h <;> cases h <;> rfl

theorem runCbyte_session {P : Params} {b : Byte} {s t : State} (h : runCbyte P b s = .next t) :
    t.session = s.session := by
  unfold runCbyte at h
  split at h
  · obtain ⟨u, hu, e⟩ := andThen_eq_next h
    cases e
    exact (respond_session _ _ u).trans (compressByte_session hu)
  · cases h; rfl

theorem runCflush_session {P : Params} {s t : State} (h : runCflush P s = .next t) : t.session = s.session := by
  unfold runCflush at h
  split at h <;> cases h
  · exact flushCompressor_session P s
  · rfl

/-- A configuration command leaves `session` alone when its register write does. -/
theorem configure_session {legal : Bool} {s t u : State} (h : configure legal u s = .next t)
    (hu : u.session = s.session) : t.session = s.session := by
  rcases configure_cases legal u s with ⟨_, e⟩ | ⟨_, _, e⟩ | ⟨_, _, e⟩ <;> rw [e] at h <;> cases h
  · rfl
  · exact hu
  · rfl

/-! ### The commands that move `session` -/

theorem runStart_session {P : Params} {s t : State} (h : runStart P s = .next t) (hm : t.session ≠ s.session) :
    s.session = .idle ∧ t.session = .active := by
  unfold runStart at h
  split at h <;> cases h
  · refine ⟨‹_›, ?_⟩
    rcases startSession_cases P s with ⟨_, _, e⟩ | ⟨_, _, e⟩ | ⟨_, e⟩ <;> rw [e] at hm ⊢
    · rfl
    · exact absurd rfl hm
    · rfl
  · exact absurd rfl hm

theorem runStop_session {P : Params} {s t : State} (h : runStop P s = .next t) (hm : t.session ≠ s.session) :
    s.session = .active ∧ t.session = .draining := by
  by_cases ha : s.session = .active
  · rw [runStop_active P ha] at h
    cases h
    exact ⟨ha, by simp⟩
  · simp only [runStop, if_neg ha] at h
    cases h
    exact absurd rfl hm

/-- A refill that leaves the `sink` empty and the compressor torn down has done nothing: `CBYTE` keeps `cmp_ready`, and
`CFLUSH` always emits. -/
theorem refillSink_eq_self {s u : State} (h : refillSink reference s = .next u) (hnil : u.sink = [])
    (hr : u.cmpReady = false) : u = s := by
  rcases refillSink_cases reference s with ⟨_, e⟩ | ⟨_, hready, _, e⟩ | ⟨_, _, _, _, e⟩ | ⟨_, _, _, _, e⟩ <;>
    rw [e] at h
  · cases h; rfl
  · have hkeep : u.cmpReady = s.cmpReady := (compressByte_frame h).2
    rw [hr, hready] at hkeep
    cases hkeep
  · rw [← Host.Outcome.next.inj h] at hnil
    exact absurd hnil (flushCompressor_sink_ne_nil s)
  · cases h; rfl

/-- A `POP` that moves `session` closes a draining one, answers `None` and changes nothing else. -/
theorem runPop_session {s t : State} (h : runPop reference s = .next t) (hm : t.session ≠ s.session) :
    s.session = .draining ∧ t = respond .c respNone { s with session := .idle } := by
  rcases runPop_eq_next h with ⟨_, u, hu, rfl⟩ | ⟨_, rfl⟩
  · rw [← refillSink_session hu] at hm
    rcases deliverSink_cases u with ⟨_, _, _, e⟩ | ⟨hnil, hd, hr, e⟩ | ⟨_, _, e⟩ <;> rw [e] at hm ⊢
    · exact absurd rfl hm
    · obtain rfl := refillSink_eq_self hu hnil hr
      exact ⟨hd, rfl⟩
    · exact absurd rfl hm
  · rcases popQueue_cases reference s with ⟨_, e⟩ | ⟨_, e⟩ <;> rw [e] at hm ⊢
    · split at hm
      · exact ⟨‹_›, by rw [if_pos ‹_›]⟩
      · exact absurd rfl hm
    · exact absurd rfl hm

/-- Settles O49: the three commands that move `session`, and the others, which leave it alone. -/
theorem sessionMovesOnlyByItsCommands : Obligations.SessionMovesOnlyByItsCommands := by
  intro i s t h hm
  cases i with
  | enq v => exact absurd (runEnq_session h) hm
  | push raw => cases h; exact absurd (by simp) hm
  | final => cases h; exact absurd (by simp) hm
  | deq => exact absurd (runDeq_session h) hm
  | qempty port => cases h; exact absurd (respond_session _ _ s) hm
  | qfull port => cases h; exact absurd (respond_session _ _ s) hm
  | qovf port => cases h; exact absurd (respond_session _ _ s) hm
  | qclear => cases h; exact absurd rfl hm
  | cinit => exact absurd (runCinit_session (P := reference) h) hm
  | cbyte b => exact absurd (runCbyte_session h) hm
  | cflush => exact absurd (runCflush_session h) hm
  | cfgch n => exact absurd (configure_session h rfl) hm
  | cfgrate n => exact absurd (configure_session h rfl) hm
  | cfgdur n => exact absurd (configure_session h rfl) hm
  | cfgmode n => exact absurd (configure_session h rfl) hm
  | cfgcmp n => exact absurd (configure_session h rfl) hm
  | start => exact .inl ⟨rfl, runStart_session h hm⟩
  | stop => exact .inr (.inl ⟨rfl, runStop_session h hm⟩)
  | pop =>
    obtain ⟨hd, rfl⟩ := runPop_session h hm
    exact .inr (.inr ⟨rfl, hd, rfl, rfl, by rw [respond_c_cResponses, respNone_eq]⟩)
  | sstat => cases h; exact absurd rfl hm

end Sys2Proof.Machine

/-! Scope: the two agents of spec/20_memory.md, each with its own state (R80, R275), and the queue they share. A step of
P keeps to what the producer may write and loses no byte (`Fills`); a step of C leaves P's bookkeeping alone and, except
for `STOP`, brings no byte into the queue (`Draws`). The races of R85 are then runs of two steps. -/

namespace Sys2Proof.Machine

/-! ### What the decoder has read (spec/30_encoding.md R118, R120, R121) -/

/-- The operand that a command of this class keeps of the field `imm`. -/
def keptOperand : OperandClass → Imm → Imm
  | .none, _ => 0
  | .byte, n => (byteAt n 0).zeroExtend 24
  | .val, n => n

theorem keptOperand_of_accepts {c : OperandClass} {n : Imm} (h : c.accepts n = true) : keptOperand c n = n := by
  cases c with
  | none => exact (beq_iff_eq.1 h).symm
  | byte =>
    have hhigh : (n.toNat >>> 8) % 65536 = 0 := by
      simpa using congrArg BitVec.toNat (beq_iff_eq.1 h : n.extractLsb' 8 16 = 0)
    apply BitVec.eq_of_toNat_eq
    simp only [keptOperand, byteAt, BitVec.zeroExtend, BitVec.toNat_setWidth, BitVec.extractLsb'_toNat]
    omega
  | val => rfl

/-- The command that a row of R120 builds has the row's opcode and, of the operand, what its class keeps. -/
theorem opcodeRows_build {r : OpRow} (hr : r ∈ opcodeRows) (port : Port) (n : Imm) :
    (r.build port n).opcode = r.op ∧ (r.build port n).operand = keptOperand r.operand n := by
  fin_cases hr <;> exact ⟨rfl, rfl⟩

/-- The command that a row of R120 builds for a port where it is legal is a command of that port. -/
theorem opcodeRows_build_port {r : OpRow} (hr : r ∈ opcodeRows) {port : Port} (hl : r.legalAt port = true) (n : Imm) :
    (r.build port n).port = port := by
  fin_cases hr <;> cases port <;> simp_all [OpRow.legalAt, Instr.port]

theorem commandWord_fields (w : Word) : commandWord (opField w) (immField w) = w :=
  (BitVec.extractLsb'_append_extractLsb'_eq_extractLsb' rfl).trans BitVec.extractLsb'_eq_self

/-- A word that decodes is the encoding of its command, which is one of the port's. -/
theorem encode_of_decode {port : Port} {w : Word} {i : Instr} (h : decode port w = .ok i) :
    encode i = w ∧ i.port = port := by
  unfold decode at h
  split at h
  · cases h
  · rename_i r hrow
    have hr : r ∈ opcodeRows := List.mem_of_find?_eq_some hrow
    have hop : r.op = opField w := by simpa using List.find?_some hrow
    split at h
    · cases h
    · split at h
      · cases h
      · rename_i hlegal haccepts
        cases h
        obtain ⟨hopcode, hoperand⟩ := opcodeRows_build hr port (immField w)
        refine ⟨?_, opcodeRows_build_port hr (by simpa using hlegal) _⟩
        rw [encode, hopcode, hoperand, keptOperand_of_accepts (by simpa using haccepts), hop, commandWord_fields]

/-! ### The step of an agent with work to do -/

theorem step_of_pPending {s : State} {v : Byte} {vs : List Byte} {rest : List Port} (ht : s.turns = .p :: rest)
    (hp : s.pPending = v :: vs) : step s = .next (continueProducer reference v vs { s with turns := rest }) := by
  simp [step, stepAt, stepP, ht, hp]

theorem step_of_pCmds {s : State} {w : Word} {ws : List Word} {rest : List Port} {i : Instr}
    (ht : s.turns = .p :: rest) (hp : s.pPending = []) (hc : s.pCmds = w :: ws) (hd : decode .p w = .ok i) :
    step s = exec i { s with turns := rest, pCmds := ws } := by
  simp [step, stepAt, stepP, issue, ht, hp, hc, hd, noteIssue_quiescent]

theorem step_of_cCmds {s : State} {w : Word} {ws : List Word} {rest : List Port} {i : Instr}
    (ht : s.turns = .c :: rest) (hc : s.cCmds = w :: ws) (hd : decode .c w = .ok i) :
    step s = exec i (noteIssue i { s with turns := rest, cCmds := ws }) := by
  simp [step, stepAt, stepC, issue, ht, hc, hd]

/-- Settles O5: one `Enq` of the bytes that wait, on a full queue or on one with room. -/
theorem producerStepEnqueuesNextByte : Obligations.ProducerStepEnqueuesNextByte := by
  intro s v vs rest ht hp
  rw [step_of_pPending ht hp, continueProducer_frame]
  rcases enq_cases reference v { s with turns := rest } with ⟨hfull, e⟩ | ⟨hroom, e⟩ <;> rw [e]
  · have hfull : s.count.toNat = 4096 := hfull
    simp only [if_pos hfull, respOk_eq]
    rfl
  · have hroom : s.count.toNat ≠ 4096 := hroom
    simp only [if_neg hroom, respOk_eq, advance_reference]
    rfl

/-! ### The steps of the producer -/

/-- `s` with what a command of P may write taken from `t`: the queue without its `head`, the encoder without its mask,
the bytes that wait, and P's answers (R275). -/
def State.withProducerOf (s t : State) : State :=
  { (s.withQueueOf t).withEncoderOf t with pPending := t.pPending, pResponses := t.pResponses }

/-- A move of the producer: it writes what a command of P may write, and a queue of at most 4096 bytes neither loses one
nor grows beyond 4096. -/
structure Fills (s t : State) : Prop where
  frame : t = s.withProducerOf t
  count : s.count.toNat ≤ 4096 → s.count.toNat ≤ t.count.toNat ∧ t.count.toNat ≤ 4096

theorem Fills.of_count_eq {s t : State} (hf : t = s.withProducerOf t) (hc : t.count = s.count) : Fills s t :=
  ⟨hf, fun h => by rw [hc]; exact ⟨le_rfl, h⟩⟩

theorem Fills.trans {s t u : State} (h : Fills s t) (g : Fills t u) : Fills s u where
  frame := by
    rw [g.frame, h.frame]
    rfl
  count hs := by
    obtain ⟨hst, ht⟩ := h.count hs
    obtain ⟨htu, hu⟩ := g.count ht
    exact ⟨hst.trans htu, hu⟩

theorem fills_respond (r : RespWord) (s : State) : Fills s (respond .p r s) := .of_count_eq rfl rfl

theorem fills_setPending (out : List Byte) (s : State) : Fills s { s with pPending := out } := .of_count_eq rfl rfl

theorem fills_enq (v : Byte) (s : State) : Fills s (enq reference v s).2 := by
  rcases enq_cases reference v s with ⟨_, e⟩ | ⟨hroom, e⟩ <;> rw [e]
  · exact .of_count_eq rfl rfl
  · refine ⟨rfl, fun h => ?_⟩
    have hadd : (s.count + 1).toNat = (s.count.toNat + 1) % 8192 := BitVec.toNat_add s.count 1
    simp only [reference_qsize] at hroom
    simp only [hadd]
    omega

theorem fills_encStep (raw : Byte) (s : State) : Fills s (encStep reference raw s).2 := by
  rw [encStep_frame]
  exact .of_count_eq rfl rfl

theorem fills_finalStep (s : State) : Fills s (finalStep reference s).2 := by
  rw [finalStep_frame]
  exact .of_count_eq rfl rfl

theorem fills_beginEnqueues (out : List Byte) (s : State) : Fills s (beginEnqueues out s) := by
  rcases beginEnqueues_cases out s with ⟨_, e⟩ | ⟨_, e⟩ <;> rw [e]
  · exact fills_respond _ s
  · exact fills_setPending _ s

theorem fills_continueProducer (v : Byte) (vs : List Byte) (s : State) :
    Fills s (continueProducer reference v vs s) := by
  have h : Fills s { (enq reference v s).2 with pPending := vs } := (fills_enq v s).trans (fills_setPending vs _)
  unfold continueProducer
  simp only
  split
  · exact h.trans (fills_respond _ _)
  · exact h

theorem runEnq_fills {v : Byte} {s t : State} (h : runEnq reference v s = .next t) : Fills s t := by
  have hs := fills_enq v s
  unfold runEnq at h
  rcases enq_cases reference v s with ⟨_, e⟩ | ⟨_, e⟩ <;> rw [e] at h hs <;> cases h
  · exact hs.trans (fills_respond _ _)
  · exact hs.trans (fills_respond _ _)

/-- Every command of port P is a move of the producer. -/
theorem exec_fills {i : Instr} {s t : State} (h : exec i s = .next t) (hi : i.port = .p) : Fills s t := by
  cases i with
  | enq v => exact runEnq_fills h
  | push raw => cases h; exact (fills_encStep raw s).trans (fills_beginEnqueues _ _)
  | final => cases h; exact (fills_finalStep s).trans (fills_beginEnqueues _ _)
  | qempty port => cases hi; cases h; exact fills_respond _ s
  | qfull port => cases hi; cases h; exact fills_respond _ s
  | qovf port => cases hi; cases h; exact fills_respond _ s
  | _ => cases hi

/-- A step of P uses up its turn and perhaps a word of P; the rest is a move of the producer. -/
theorem step_fills {s t : State} {rest : List Port} (ht : s.turns = .p :: rest) (h : step s = .next t) :
    ∃ ws, Fills { s with turns := rest, pCmds := ws } t := by
  rcases step_cases s with ⟨hno, _⟩ | ⟨_, hother, _⟩ | ⟨rest', hturns, hstep⟩
  · rw [ht] at hno; cases hno
  · rw [ht] at hother; cases hother
  · obtain rfl : rest = rest' := by rw [ht] at hturns; cases hturns; rfl
    rcases hstep with ⟨v, vs, _, e⟩ | ⟨_, _, e⟩ | ⟨w, ws, hidle, _, e⟩ <;> rw [e] at h
    · cases h
      exact ⟨s.pCmds, fills_continueProducer v vs _⟩
    · cases h
      exact ⟨s.pCmds, .of_count_eq rfl rfl⟩
    · refine ⟨ws, ?_⟩
      rcases issue_cases .p w { s with turns := rest, pCmds := ws } with ⟨i, hd, e⟩ | ⟨_, _, e⟩ <;> rw [e] at h
      · rw [noteIssue_quiescent i _ (by exact hidle)] at h
        exact exec_fills h (encode_of_decode hd).2
      · cases h
        exact fills_respond _ _

/-! ### The steps of the consumer -/

/-- A move of the consumer that brings no byte into the queue and leaves the turns and P's words alone. -/
structure Draws (s t : State) : Prop where
  turns : t.turns = s.turns
  pCmds : t.pCmds = s.pCmds
  count_le : t.count.toNat ≤ s.count.toNat

theorem Draws.of_count_eq {s t : State} (ht : t.turns = s.turns) (hp : t.pCmds = s.pCmds) (hc : t.count = s.count) :
    Draws s t := ⟨ht, hp, by rw [hc]⟩

theorem Draws.refl (s : State) : Draws s s := ⟨rfl, rfl, le_rfl⟩

theorem Draws.trans {s t u : State} (h : Draws s t) (g : Draws t u) : Draws s u :=
  ⟨g.turns.trans h.turns, g.pCmds.trans h.pCmds, g.count_le.trans h.count_le⟩

theorem draws_respond (port : Port) (r : RespWord) (s : State) : Draws s (respond port r s) :=
  .of_count_eq (respond_turns port r s) (respond_pCmds port r s) (respond_count port r s)

/-- Taking the oldest byte of a queue that is not empty is a move of the consumer. -/
theorem draws_take {s : State} (x : BitVec 12) (hc : s.count ≠ 0) :
    Draws s { s with head := x, count := s.count - 1 } := by
  refine ⟨rfl, rfl, ?_⟩
  have hpos : s.count.toNat ≠ 0 := fun h => hc (BitVec.eq_of_toNat_eq h)
  have hsub : (s.count - 1).toNat = (8192 - 1 + s.count.toNat) % 8192 := BitVec.toNat_sub s.count 1
  have hlt := s.count.isLt
  simp only [hsub]
  omega

theorem draws_clearQueue (P : Params) (s : State) : Draws s (clearQueue P s) := ⟨rfl, rfl, Nat.zero_le _⟩

theorem draws_flushCompressor (P : Params) (s : State) : Draws s (flushCompressor P s) := by
  rw [flushCompressor_frame]
  exact .of_count_eq rfl rfl rfl

theorem compressByte_draws {P : Params} {b : Byte} {s t : State} (h : compressByte P b s = .next t) : Draws s t := by
  rw [(compressByte_frame h).1]
  exact .of_count_eq rfl rfl rfl

theorem runDeq_draws {P : Params} {s t : State} (h : runDeq P s = .next t) : Draws s t := by
  unfold runDeq at h
  rcases deq_cases P s with ⟨_, e⟩ | ⟨hc, e⟩ <;> rw [e] at h <;> cases h
  · exact draws_respond _ _ s
  · exact (draws_take _ hc).trans (draws_respond _ _ _)

theorem runCinit_draws {P : Params} {s t : State} (h : runCinit P s = .next t) : Draws s t := by
  unfold runCinit at h
  split at h <;> cases h
  · exact .of_count_eq rfl rfl rfl
  · exact .of_count_eq rfl rfl rfl

theorem runCbyte_draws {P : Params} {b : Byte} {s t : State} (h : runCbyte P b s = .next t) : Draws s t := by
  unfold runCbyte at h
  split at h
  · obtain ⟨u, hu, e⟩ := andThen_eq_next h
    cases e
    exact (compressByte_draws hu).trans (draws_respond _ _ u)
  · cases h; exact draws_respond _ _ s

theorem runCflush_draws {P : Params} {s t : State} (h : runCflush P s = .next t) : Draws s t := by
  unfold runCflush at h
  split at h <;> cases h
  · exact (draws_flushCompressor P s).trans (draws_respond _ _ _)
  · exact draws_respond _ _ s

/-- A configuration command is a move of the consumer when its register write is. -/
theorem configure_draws {legal : Bool} {s t u : State} (h : configure legal u s = .next t) (hu : Draws s u) :
    Draws s t := by
  rcases configure_cases legal u s with ⟨_, e⟩ | ⟨_, _, e⟩ | ⟨_, _, e⟩ <;> rw [e] at h <;> cases h
  · exact draws_respond _ _ s
  · exact hu.trans (draws_respond _ _ u)
  · exact draws_respond _ _ s

theorem runStart_draws {P : Params} {s t : State} (h : runStart P s = .next t) : Draws s t := by
  unfold runStart at h
  split at h <;> cases h
  · refine (draws_clearQueue P s).trans ?_
    rcases startSession_cases P s with ⟨_, _, e⟩ | ⟨_, _, e⟩ | ⟨_, e⟩ <;> rw [e]
    · exact .of_count_eq rfl rfl rfl
    · exact .of_count_eq rfl rfl rfl
    · exact .of_count_eq rfl rfl rfl
  · exact draws_respond _ _ s

theorem refillSink_draws {P : Params} {s t : State} (h : refillSink P s = .next t) : Draws s t := by
  rcases refillSink_cases P s with ⟨_, e⟩ | ⟨_, _, hc, e⟩ | ⟨_, _, _, _, e⟩ | ⟨_, _, _, _, e⟩ <;> rw [e] at h
  · cases h; exact .refl s
  · exact (draws_take _ hc).trans (compressByte_draws h)
  · cases h; exact draws_flushCompressor P s
  · cases h; exact .refl s

theorem draws_deliverSink (s : State) : Draws s (deliverSink s) := by
  rcases deliverSink_cases s with ⟨_, _, _, e⟩ | ⟨_, _, _, e⟩ | ⟨_, _, e⟩ <;> rw [e]
  · exact .of_count_eq rfl rfl rfl
  · exact .of_count_eq rfl rfl rfl
  · exact draws_respond _ _ s

theorem draws_popQueue (P : Params) (s : State) : Draws s (popQueue P s) := by
  rcases popQueue_cases P s with ⟨_, e⟩ | ⟨hc, e⟩ <;> rw [e]
  · split
    · exact .of_count_eq rfl rfl rfl
    · exact draws_respond _ _ s
  · exact (draws_take _ hc).trans (draws_respond _ _ _)

theorem runPop_draws {P : Params} {s t : State} (h : runPop P s = .next t) : Draws s t := by
  rcases runPop_eq_next h with ⟨_, u, hu, rfl⟩ | ⟨_, rfl⟩
  · exact (refillSink_draws hu).trans (draws_deliverSink u)
  · exact draws_popQueue P s

/-- Every command of port C but `STOP`, which enqueues the final records, is such a move of the consumer. -/
theorem exec_draws {i : Instr} {s t : State} (h : exec i s = .next t) (hi : i.port = .c) (hstop : i ≠ .stop) :
    Draws s t := by
  cases i with
  | enq v => cases hi
  | push raw => cases hi
  | final => cases hi
  | deq => exact runDeq_draws h
  | qempty port => cases h; exact draws_respond _ _ s
  | qfull port => cases h; exact draws_respond _ _ s
  | qovf port => cases h; exact draws_respond _ _ s
  | qclear => cases h; exact (draws_clearQueue reference s).trans (draws_respond _ _ _)
  | cinit => exact runCinit_draws (P := reference) h
  | cbyte b => exact runCbyte_draws h
  | cflush => exact runCflush_draws h
  | cfgch n => exact configure_draws h (.of_count_eq rfl rfl rfl)
  | cfgrate n => exact configure_draws h (.of_count_eq rfl rfl rfl)
  | cfgdur n => exact configure_draws h (.of_count_eq rfl rfl rfl)
  | cfgmode n => exact configure_draws h (.of_count_eq rfl rfl rfl)
  | cfgcmp n => exact configure_draws h (.of_count_eq rfl rfl rfl)
  | start => exact runStart_draws h
  | stop => exact absurd rfl hstop
  | pop => exact runPop_draws h
  | sstat => cases h; exact draws_respond _ _ s

/-- `STOP` leaves the turns and P's words alone. -/
theorem runStop_keepsTurns {P : Params} {s t : State} (h : runStop P s = .next t) :
    t.turns = s.turns ∧ t.pCmds = s.pCmds := by
  by_cases ha : s.session = .active
  · rw [runStop_active P ha] at h
    cases h
    rw [enqAll_frame, finalStep_frame]
    exact ⟨rfl, rfl⟩
  · simp only [runStop, if_neg ha] at h
    cases h
    exact ⟨rfl, rfl⟩

/-- Every command of port C leaves what is P's alone: the turns, P's words, its answers and the bytes that wait. -/
theorem exec_keepsProducer {i : Instr} {s t : State} (h : exec i s = .next t) (hi : i.port = .c) :
    t.turns = s.turns ∧ t.pCmds = s.pCmds ∧ t.pResponses = s.pResponses ∧ t.pPending = s.pPending := by
  have hturns : t.turns = s.turns ∧ t.pCmds = s.pCmds := by
    by_cases hstop : i = .stop
    · subst hstop; exact runStop_keepsTurns h
    · have hd := exec_draws h hi hstop
      exact ⟨hd.turns, hd.pCmds⟩
  rcases exec_answers_or_awaits h with ha | ⟨hp, _⟩
  · rw [hi] at ha
    obtain ⟨hpend, hresp, _⟩ := ha.at_c
    exact ⟨hturns.1, hturns.2, hresp, hpend⟩
  · rw [hi] at hp; cases hp

/-- What a step of C can do: it holds the state, answers an error, or runs the command that its next word encodes. The
turn, the word and the note of a hazard are the model's bookkeeping. -/
theorem step_c_cases {s : State} {rest : List Port} (ht : s.turns = .c :: rest) :
    step s = .next { s with turns := rest } ∨
    (∃ ws e, step s = .next (raiseError .c e { s with turns := rest, cCmds := ws })) ∨
    (∃ i ws, i.port = .c ∧ s.cCmds = encode i :: ws ∧
      step s = exec i (noteIssue i { s with turns := rest, cCmds := ws })) := by
  rcases step_cases s with ⟨hno, _⟩ | ⟨rest', hturns, hstep⟩ | ⟨_, hother, _⟩
  · rw [ht] at hno; cases hno
  · obtain rfl : rest = rest' := by rw [ht] at hturns; cases hturns; rfl
    rcases hstep with ⟨_, e⟩ | ⟨w, ws, hc, e⟩
    · exact .inl e
    · rcases issue_cases .c w { s with turns := rest, cCmds := ws } with ⟨i, hd, e'⟩ | ⟨_, _, e'⟩
      · obtain ⟨henc, hport⟩ := encode_of_decode hd
        exact .inr (.inr ⟨i, ws, hport, henc ▸ hc, e.trans e'⟩)
      · exact .inr (.inl ⟨ws, _, e.trans e'⟩)
  · rw [ht] at hother; cases hother

/-! ### What each agent leaves alone (R80, R275), and the stability of the occupancy (R84) -/

/-- A step of C uses up its turn and leaves P's words, answers and command in progress alone. -/
theorem step_c_keepsProducer {s t : State} {rest : List Port} (ht : s.turns = .c :: rest) (h : step s = .next t) :
    t.turns = rest ∧ t.pCmds = s.pCmds ∧ t.pResponses = s.pResponses ∧ t.pPending = s.pPending := by
  rcases step_c_cases ht with e | ⟨ws, st, e⟩ | ⟨i, ws, hi, _, e⟩ <;> rw [e] at h
  · cases h; exact ⟨rfl, rfl, rfl, rfl⟩
  · cases h; exact ⟨rfl, rfl, rfl, rfl⟩
  · simpa using exec_keepsProducer h hi

/-- Settles O51: the frames of the two agents' steps. -/
theorem agentsMoveOnlyTheirOwnState : Obligations.AgentsMoveOnlyTheirOwnState := by
  intro s t rest h
  constructor <;> intro ht
  · obtain ⟨hturns, hcmds, hresp, hpend⟩ := step_c_keepsProducer ht h
    exact ⟨hcmds, hresp, hpend, hturns⟩
  · obtain ⟨ws, hf⟩ := step_fills ht h
    rw [hf.frame]
    exact ⟨rfl, rfl, rfl, rfl, rfl, rfl, rfl, rfl, rfl, rfl, rfl, rfl, rfl, rfl, rfl, rfl, rfl, rfl, rfl, rfl, rfl⟩

/-- A step of C whose next word is not `STOP` brings no byte into the queue. -/
theorem step_c_count_le {s t : State} {rest : List Port} (ht : s.turns = .c :: rest)
    (hw : ∀ w ∈ s.cCmds.head?, w ≠ encode .stop) (h : step s = .next t) : t.count.toNat ≤ s.count.toNat := by
  rcases step_c_cases ht with e | ⟨ws, st, e⟩ | ⟨i, ws, hi, hc, e⟩ <;> rw [e] at h
  · cases h; exact le_rfl
  · cases h; exact le_rfl
  · have hstop : i ≠ .stop := fun heq => hw (encode i) (by simp [hc]) (by rw [heq])
    simpa using (exec_draws h hi hstop).count_le

/-- Settles O14: P's steps fill the queue only, and C's steps but those of `STOP` draw from it only. -/
theorem occupancyObservationsAreStable : Obligations.OccupancyObservationsAreStable := by
  constructor
  · intro s t rest ht hs h
    obtain ⟨ws, hf⟩ := step_fills ht h
    exact hf.count hs
  · intro s t rest ht hw h
    have hstop : encode .stop = 0x49000000 := by decide
    refine step_c_count_le ht (fun w hmem => ?_) h
    obtain ⟨_, _, hne⟩ := hw w hmem
    rwa [hstop]

/-! ### The races of R85 -/

theorem exec_enq_of_full {v : Byte} {s : State} (h : s.count.toNat = 4096) :
    exec (.enq v) s = .next { s with overflow := true, pResponses := s.pResponses ++ [0x1000] } := by
  change runEnq reference v s = _
  unfold runEnq
  rcases enq_cases reference v s with ⟨_, e⟩ | ⟨hroom, _⟩
  · rw [e, ← respError_queueOverflow]
    rfl
  · exact absurd h hroom

theorem exec_enq_of_room {v : Byte} {s : State} (h : s.count.toNat ≠ 4096) :
    exec (.enq v) s = .next { s with
      buf := s.buf.write 0 s.tail.toNat v
      tail := s.tail + 1
      count := s.count + 1
      pResponses := s.pResponses ++ [0x0000] } := by
  change runEnq reference v s = _
  unfold runEnq
  rcases enq_cases reference v s with ⟨hfull, _⟩ | ⟨_, e⟩
  · exact absurd hfull h
  · rw [e, advance_reference, ← respOk_eq]
    rfl

theorem exec_deq_of_empty {s : State} (h : s.count = 0) :
    exec .deq s = .next { s with cResponses := s.cResponses ++ [0x0000] } := by
  change runDeq reference s = _
  unfold runDeq
  rcases deq_cases reference s with ⟨_, e⟩ | ⟨hne, _⟩
  · rw [e, ← respNone_eq]
    rfl
  · exact absurd h hne

theorem exec_deq_of_ne {s : State} (h : s.count ≠ 0) :
    exec .deq s = .next { s with
      head := s.head + 1
      count := s.count - 1
      cResponses := s.cResponses ++ [0x0100 ||| (s.buf.read 0 s.head.toNat).zeroExtend 16] } := by
  change runDeq reference s = _
  unfold runDeq
  rcases deq_cases reference s with ⟨he, _⟩ | ⟨_, e⟩
  · exact absurd he h
  · rw [e, advance_reference, ← respSome_eq]
    rfl

theorem decode_enqWord (v : Byte) : decode .p (0x10000000 ||| v.zeroExtend 32) = .ok (.enq v) := by
  revert v
  decide +kernel

theorem decode_deqWord : decode .c 0x20000000 = .ok .deq := by decide +kernel

/-- The step of P with `ENQ v` to issue. -/
theorem step_enqWord {s : State} {v : Byte} {rest : List Port} (ht : s.turns = .p :: rest) (hp : s.pPending = [])
    (hc : s.pCmds = [0x10000000 ||| v.zeroExtend 32]) : step s = exec (.enq v) { s with turns := rest, pCmds := [] } :=
  step_of_pCmds ht hp hc (decode_enqWord v)

/-- The step of C with `DEQ` to issue; `DEQ` needs no quiescent producer, so no hazard is noted. -/
theorem step_deqWord {s : State} {rest : List Port} (ht : s.turns = .c :: rest) (hc : s.cCmds = [0x20000000]) :
    step s = exec .deq { s with turns := rest, cCmds := [] } :=
  step_of_cCmds ht hc decode_deqWord

/-- Two steps that each execute one command. -/
theorem run_two {s s' u u' t : State} {i j : Instr} (hs : step s = exec i s') (hi : exec i s' = .next u)
    (hu : step u = exec j u') (hj : exec j u' = .next t) : Host.Core.run core 2 s = .next t := by
  have hfirst : core.step s = .next u := hs.trans hi
  have hsecond : core.step u = .next t := hu.trans hj
  simp only [Host.Core.run, hfirst, hsecond]

/-- Settles O13: the two steps of each order, run on the queue they meet. -/
theorem racingEnqAndDeq : Obligations.RacingEnqAndDeq := by
  intro s v
  refine ⟨?_, ?_, ?_, ?_⟩
  · -- a full queue, P first: the byte is dropped, then one is taken
    rintro ⟨ht, hp, hpw, hcw⟩ hfull
    have hcount : s.count = 4096 := BitVec.eq_of_toNat_eq hfull
    have hne : s.count ≠ 0 := by rw [hcount]; decide
    refine ⟨_, run_two (step_enqWord ht hp hpw) (exec_enq_of_full hfull)
      (step_deqWord rfl hcw) (exec_deq_of_ne hne), rfl, ?_, rfl, rfl, rfl, rfl, rfl⟩
    simp only [hcount]
    decide
  · -- a full queue, C first: the byte taken makes room
    rintro ⟨ht, hp, hpw, hcw⟩ hfull
    have hcount : s.count = 4096 := BitVec.eq_of_toNat_eq hfull
    have hne : s.count ≠ 0 := by rw [hcount]; decide
    have hroom : (s.count - 1).toNat ≠ 4096 := by rw [hcount]; decide
    refine ⟨_, run_two (step_deqWord ht hcw) (exec_deq_of_ne hne)
      (step_enqWord rfl hp hpw) (exec_enq_of_room hroom), rfl, ?_, rfl, rfl, rfl, rfl⟩
    simp only [hcount]
    decide
  · -- an empty queue, P first: C takes the byte just stored, since `head` meets `tail`
    rintro ⟨ht, hp, hpw, hcw⟩ hempty hmeet
    have hroom : s.count.toNat ≠ 4096 := by rw [hempty]; decide
    have hne : s.count + 1 ≠ 0 := by rw [hempty]; decide
    refine ⟨_, run_two (step_enqWord ht hp hpw) (exec_enq_of_room hroom)
      (step_deqWord rfl hcw) (exec_deq_of_ne hne), ?_, rfl, ?_⟩
    · simp only [hempty]
      decide
    · simp only [hmeet, Memory.read_write_same]
  · -- an empty queue, C first: nothing to take, then one byte is stored
    rintro ⟨ht, hp, hpw, hcw⟩ hempty
    have hroom : s.count.toNat ≠ 4096 := by rw [hempty]; decide
    refine ⟨_, run_two (step_deqWord ht hcw) (exec_deq_of_empty hempty)
      (step_enqWord rfl hp hpw) (exec_enq_of_room hroom), ?_, rfl, rfl⟩
    simp only [hempty]
    decide

end Sys2Proof.Machine

/-! Scope: the family of spec/30_encoding.md. The decoder of R121 is the search for a row of the command table R120, and
the legal words are the words that match a row; both round trips and the answer to an illegal word are read off the rows.
`CONFIGURE` of R131 is a run of five register writes, and the layout of R101 is an induction over the samples. -/

namespace Sys2Proof.Machine

open Sys2Proof.Claims

/-! ### The decoder as a search in the command table (R120, R121) -/

/-- The opcode of the word is the row's, the row is legal at the port, and the operand has the row's shape. -/
def Matches (port : Port) (w : Word) (r : OpRow) : Prop :=
  rowOf (opField w) = some r ∧ r.legalAt port = true ∧ r.operand.accepts (immField w) = true

theorem decode_of_matches {port : Port} {w : Word} {r : OpRow} (h : Matches port w r) :
    decode port w = .ok (r.build port (immField w)) := by
  obtain ⟨hrow, hlegal, haccepts⟩ := h
  simp [decode, hrow, hlegal, haccepts]

theorem matches_of_decode {port : Port} {w : Word} {i : Instr} (h : decode port w = .ok i) :
    ∃ r, Matches port w r := by
  unfold decode at h
  split at h
  · cases h
  · rename_i r hrow
    split at h
    · cases h
    · split at h
      · cases h
      · rename_i hlegal haccepts
        exact ⟨r, hrow, by simpa using hlegal, by simpa using haccepts⟩

/-- What an operand class asks of the field, as a number (R118). -/
theorem accepts_iff (c : OperandClass) (n : Imm) :
    c.accepts n = true ↔ (c = .none → n.toNat = 0) ∧ (c = .byte → n.toNat < 256) := by
  cases c with
  | none => simp [OperandClass.accepts, ← BitVec.toNat_inj]
  | byte =>
    have hn := n.isLt
    have hhigh : n.extractLsb' 8 16 = 0 ↔ n.toNat / 256 % 65536 = 0 := by
      simp [← BitVec.toNat_inj, Nat.shiftRight_eq_div_pow]
    simp only [OperandClass.accepts, beq_iff_eq, hhigh, reduceCtorEq, forall_true_left, IsEmpty.forall_iff, true_and]
    omega
  | val => simp [OperandClass.accepts]

/-! ### Encoding, then decoding -/

theorem accepts_byte_zeroExtend (v : Byte) : OperandClass.byte.accepts (v.zeroExtend 24) = true := by
  have hv := v.isLt
  refine (accepts_iff _ _).2 ⟨nofun, fun _ => ?_⟩
  rw [BitVec.zeroExtend, BitVec.toNat_setWidth]
  omega

theorem byteAt_zeroExtend (v : Byte) : byteAt (v.zeroExtend 24 : Imm) 0 = v := by
  have hv := v.isLt
  apply BitVec.eq_of_toNat_eq
  simp only [byteAt, BitVec.extractLsb'_toNat, BitVec.zeroExtend, BitVec.toNat_setWidth]
  omega

/-- Every command has its row in the command table, legal at its port, and the row builds it again from its operand. -/
theorem exists_row (i : Instr) : ∃ r, rowOf i.opcode = some r ∧ r.legalAt i.port = true ∧
    r.operand.accepts i.operand = true ∧ r.build i.port i.operand = i := by
  cases i with
  | enq v => exact ⟨_, rfl, rfl, accepts_byte_zeroExtend v, congrArg _ (byteAt_zeroExtend v)⟩
  | push v => exact ⟨_, rfl, rfl, accepts_byte_zeroExtend v, congrArg _ (byteAt_zeroExtend v)⟩
  | cbyte v => exact ⟨_, rfl, rfl, accepts_byte_zeroExtend v, congrArg _ (byteAt_zeroExtend v)⟩
  | qempty port => cases port <;> exact ⟨_, rfl, rfl, rfl, rfl⟩
  | qfull port => cases port <;> exact ⟨_, rfl, rfl, rfl, rfl⟩
  | qovf port => cases port <;> exact ⟨_, rfl, rfl, rfl, rfl⟩
  | _ => exact ⟨_, rfl, rfl, rfl, rfl⟩

/-- The encoding of a command decodes to it at its port. -/
theorem decode_encode (i : Instr) : decode i.port (encode i) = .ok i := by
  obtain ⟨hop, himm⟩ : opField (encode i) = i.opcode ∧ immField (encode i) = i.operand :=
    Laws.EncodedFields.fields i.opcode i.operand
  obtain ⟨r, hrow, hlegal, haccepts, hbuild⟩ := exists_row i
  have h : Matches i.port (encode i) r := ⟨by rwa [hop], hlegal, by rwa [himm]⟩
  rw [decode_of_matches h, himm, hbuild]

/-- Settles O1: the two round trips. -/
theorem decodeInvertsEncode : Obligations.DecodeInvertsEncode := by
  intro port w i
  constructor
  · exact encode_of_decode
  · rintro ⟨rfl, rfl⟩
    exact decode_encode i

/-- Settles O3, by running the decoder. -/
theorem wordsOfTheVectorsDecode : Obligations.WordsOfTheVectorsDecode := by
  unfold Obligations.WordsOfTheVectorsDecode
  decide +kernel

/-! ### The legal words are those that match a row (R121 steps 1 to 3) -/

theorem opField_toNat (w : Word) : (opField w).toNat = w.toNat / 2 ^ 24 := by
  have hw := w.isLt
  simp only [opField, BitVec.extractLsb'_toNat, Nat.shiftRight_eq_div_pow]
  omega

theorem immField_toNat (w : Word) : (immField w).toNat = w.toNat % 2 ^ 24 := by
  simp [immField]

/-- The opcodes written out for a port are those of its rows. -/
theorem opcodesAt_eq (port : Port) :
    opcodesAt port = (opcodeRows.filter (·.legalAt port)).map (·.op.toNat) := by
  cases port <;> rfl

/-- The opcodes written out for the operand classes none and byte are those of the rows of the class. -/
theorem opcodeRows_operand : ∀ r ∈ opcodeRows,
    (r.op.toNat ∈ opcodesWithoutOperand ↔ r.operand = .none) ∧ (r.op.toNat ∈ opcodesWithByte ↔ r.operand = .byte) := by
  decide

/-- The search by opcode finds a row of the table exactly: no two rows share an opcode. -/
theorem rowOf_eq_some_iff {op : Byte} {r : OpRow} : rowOf op = some r ↔ r ∈ opcodeRows ∧ r.op = op := by
  constructor
  · exact fun h => ⟨List.mem_of_find?_eq_some h, by simpa using List.find?_some h⟩
  · rintro ⟨hr, rfl⟩
    fin_cases hr <;> rfl

theorem mem_opcodesAt_iff (port : Port) (w : Word) :
    w.toNat / 2 ^ 24 ∈ opcodesAt port ↔ ∃ r, rowOf (opField w) = some r ∧ r.legalAt port = true := by
  rw [opcodesAt_eq, ← opField_toNat]
  simp only [List.mem_map, List.mem_filter, BitVec.toNat_inj, rowOf_eq_some_iff, and_right_comm]

/-- At a row the numbers of the statement say that the operand has the row's shape. -/
theorem accepts_immField_iff {w : Word} {r : OpRow} (hrow : rowOf (opField w) = some r) :
    r.operand.accepts (immField w) = true ↔
      (w.toNat / 2 ^ 24 ∈ opcodesWithoutOperand → w.toNat % 2 ^ 24 = 0) ∧
      (w.toNat / 2 ^ 24 ∈ opcodesWithByte → w.toNat % 2 ^ 24 < 256) := by
  obtain ⟨hr, hop⟩ := rowOf_eq_some_iff.1 hrow
  obtain ⟨hnone, hbyte⟩ := opcodeRows_operand r hr
  rw [accepts_iff, ← hnone, ← hbyte, hop, opField_toNat, immField_toNat]

theorem legalWord_iff_matches (port : Port) (w : Word) : legalWord port w ↔ ∃ r, Matches port w r := by
  rw [legalWord, mem_opcodesAt_iff]
  constructor
  · rintro ⟨⟨r, hrow, hlegal⟩, hoperand⟩
    exact ⟨r, hrow, hlegal, (accepts_immField_iff hrow).2 hoperand⟩
  · rintro ⟨r, hrow, hlegal, haccepts⟩
    exact ⟨⟨r, hrow, hlegal⟩, (accepts_immField_iff hrow).1 haccepts⟩

/-! ### The answer to an illegal word -/

theorem issue_of_not_legal {port : Port} {w : Word} (h : ¬ legalWord port w) (s : State) :
    issue port w s = .next (respond port 0xF000 s) := by
  rcases issue_cases port w s with ⟨i, hd, _⟩ | ⟨e, _, hi⟩
  · exact absurd ((legalWord_iff_matches port w).2 (matches_of_decode hd)) h
  · rw [hi, raiseError_eq, respError_illegalCommand]

/-- Settles O2: the legal words match a row, and a word that matches none decodes to no command. -/
theorem illegalWordsAreAnsweredAndChangeNothing : Obligations.IllegalWordsAreAnsweredAndChangeNothing := by
  refine ⟨?_, ?_, ?_⟩
  · intro port w hw
    obtain ⟨r, hr⟩ := (legalWord_iff_matches port w).1 hw
    exact ⟨_, decode_of_matches hr⟩
  · intro s w ws rest ht hc hw
    have hstep : step s = issue .c w { s with turns := rest, cCmds := ws } := by
      simp [step, stepAt, stepC, ht, hc]
    rw [hstep, issue_of_not_legal hw, respond_c_eq]
  · intro s w ws rest ht hp hc hw
    have hstep : step s = issue .p w { s with turns := rest, pCmds := ws } := by
      simp [step, stepAt, stepP, ht, hp, hc]
    rw [hstep, issue_of_not_legal hw, respond_p_eq]

/-- Settles O4: the note of the hazard is the model's own part at port C; at port P nothing is pending to note. -/
theorem stepExecutesDecodedCommand : Obligations.StepExecutesDecodedCommand := by
  constructor
  · intro s w ws rest i ht hc hd
    rw [step_of_cCmds ht hc hd, noteIssue_eq]
  · intro s w ws rest i ht hp hc hd
    exact step_of_pCmds ht hp hc hd

/-! ### `CONFIGURE` (R131) -/

/-- In `Idle` an operand in range is accepted: the register write and `Ok` (spec/43_session.md R230). -/
theorem configure_of_legal {legal : Bool} {s : State} (t : State) (hl : legal = true) (hi : s.session = .idle) :
    configure legal t s = .next { t with cResponses := t.cResponses ++ [0x0000] } := by
  rcases configure_cases legal t s with ⟨h, _⟩ | ⟨_, _, e⟩ | ⟨_, h, _⟩
  · exact absurd hl (by simp [h])
  · rw [e, respOk_eq, respond_c_eq]
  · exact absurd hi h

section
variable {s : State} {n : Imm} (hi : s.session = .idle)
include hi

theorem exec_cfgch_of_legal (hlo : 1 ≤ n.toNat) (hhi : n.toNat ≤ 8) :
    exec (.cfgch n) s = .next { s with
      cfgChannelCount := BitVec.ofNat 4 n.toNat
      cResponses := s.cResponses ++ [0x0000] } := by
  rw [BitVec.ofNat_toNat]
  exact configure_of_legal _ ((inRange_iff 1 8 n).2 ⟨hlo, hhi⟩) hi

theorem exec_cfgrate_of_legal (hlo : 10 ≤ n.toNat) (hhi : n.toNat ≤ 10000000) :
    exec (.cfgrate n) s = .next { s with cfgSampleRateHz := n, cResponses := s.cResponses ++ [0x0000] } :=
  configure_of_legal _ ((inRange_iff 10 10000000 n).2 ⟨hlo, hhi⟩) hi

theorem exec_cfgdur_of_legal (hlo : 10 ≤ n.toNat) (hhi : n.toNat ≤ 100000) :
    exec (.cfgdur n) s = .next { s with
      cfgSessionDurationMs := BitVec.ofNat 17 n.toNat
      cResponses := s.cResponses ++ [0x0000] } := by
  rw [BitVec.ofNat_toNat]
  exact configure_of_legal _ ((inRange_iff 10 100000 n).2 ⟨hlo, hhi⟩) hi

theorem exec_cfgmode_of_bit (transition : Bool) :
    exec (.cfgmode (if transition then 1 else 0)) s = .next { s with
      cfgMode := if transition then .transitionOnly else .continuous
      cResponses := s.cResponses ++ [0x0000] } := by
  cases transition <;> exact configure_of_legal _ rfl hi

theorem exec_cfgcmp_of_bit (on : Bool) :
    exec (.cfgcmp (if on then 1 else 0)) s = .next { s with
      cfgCompressionEnabled := on
      cResponses := s.cResponses ++ [0x0000] } := by
  cases on <;> exact configure_of_legal _ rfl hi

end

/-- Settles O39: five accepted register writes in a row; each leaves the session `Idle` for the next. -/
theorem configureSetsFiveRegisters : Obligations.ConfigureSetsFiveRegisters := by
  intro s cc rate dur mode cmpr hi hcLo hcHi hrLo hrHi hdLo hdHi
  simp only [Pseudo.expand, runCommands, andThen, hi, exec_cfgch_of_legal, hcLo, hcHi, exec_cfgrate_of_legal, hrLo, hrHi,
    exec_cfgdur_of_legal, hdLo, hdHi, exec_cfgmode_of_bit, exec_cfgcmp_of_bit, List.append_assoc, List.cons_append,
    List.nil_append]

/-! ### The stacked byte (R101, spec/41_encoder.md R163) -/

theorem runCommands_cons {i : Instr} {is : List Instr} {s t : State} (h : exec i s = .next t) :
    runCommands (i :: is) s = runCommands is t := by
  simp only [runCommands, h, andThen]

/-- Bit `j` of the byte is line `j mod cc` of sample `j / cc`, and 0 beyond the samples. -/
def Stacks (cc : Nat) (samples : List Byte) (byte : Byte) : Prop :=
  ∀ j, j < 8 → byte.getLsbD j = (samples.getD (j / cc) 0).getLsbD (j % cc)

theorem maskOfChannels_getLsbD {cc : Nat} (hcc : cc ≤ 4) {j : Nat} (hj : j < 8) :
    (maskOfChannels cc).getLsbD j = decide (j < cc) := by
  rw [maskOfChannels, if_pos hcc, BitVec.getLsbD_ofNat, Nat.testBit_two_pow_sub_one]
  simp [hj]

/-- The masked sample, shifted past the earlier ones, adds its lines to the layout. -/
theorem Stacks.append {cc : Nat} {samples : List Byte} {byte : Byte} (h : Stacks cc samples byte) (hpos : 1 ≤ cc)
    (hcc : cc ≤ 4) (raw : Byte) :
    Stacks cc (samples ++ [raw]) (byte ||| ((raw &&& maskOfChannels cc) <<< (cc * samples.length))) := by
  intro j hj
  have hdm := Nat.div_add_mod j cc
  have hmod := Nat.mod_lt j hpos
  rw [BitVec.getLsbD_or, BitVec.getLsbD_shiftLeft, BitVec.getLsbD_and,
    maskOfChannels_getLsbD hcc (by omega : j - cc * samples.length < 8), h j hj]
  rcases Nat.lt_trichotomy (j / cc) samples.length with hlt | heq | hgt
  · -- a line of an earlier sample: the shifted sample has a 0 there
    have hle : cc * (j / cc + 1) ≤ cc * samples.length := Nat.mul_le_mul_left cc hlt
    have hbelow : j < cc * samples.length := by rw [Nat.mul_add] at hle; omega
    simp [hbelow, List.getElem?_append_left hlt]
  · -- a line of the new sample
    have hsub : j - cc * samples.length = j % cc := by rw [← heq]; omega
    have hge : ¬ j < cc * samples.length := by rw [← heq]; omega
    simp [hj, hsub, hge, hmod, heq]
  · -- a line of no sample yet: the mask has cleared it
    have hle : cc * (samples.length + 1) ≤ cc * (j / cc) := Nat.mul_le_mul_left cc hgt
    have hbeyond : ¬ j - cc * samples.length < cc := by rw [Nat.mul_add] at hle; omega
    have hnone : (samples ++ [raw])[j / cc]? = none := by simp; omega
    simp [hbeyond, hnone, List.getElem?_eq_none (Nat.le_of_lt hgt)]

/-- The encoder stacks `cc` channels and holds the given samples, its fill offset past the last of them. -/
structure Accumulates (cc : Nat) (samples : List Byte) (s : State) : Prop where
  mode : s.cfgMode = .continuous
  channels : s.cfgChannelCount.toNat = cc
  mask : s.stackMask = maskOfChannels cc
  fill : s.stackFill.toNat = cc * samples.length
  bits : Stacks cc samples s.stackedBits
  pending : s.pPending = []

/-- In continuous mode with at most 4 channels `PUSH` counts the interrupt and stacks its sample (R162, R163, R166). -/
theorem exec_push_of_stack {s u : State} {raw : Byte} {out : List Byte} (hm : s.cfgMode = .continuous)
    (hc : s.cfgChannelCount.toNat ≤ 4)
    (e : stackSample raw { s with interruptCount := s.interruptCount + 1 } = (out, u)) :
    exec (.push raw) s = .next (beginEnqueues out u) := by
  have henc : encStep reference raw s = (out, u) := by
    rw [← e]
    simp [encStep, hm, hc]
  simp only [exec, execPush, runPush, henc]

section
variable {cc : Nat} {samples : List Byte} {s : State} (h : Accumulates cc samples s) (hpos : 1 ≤ cc) (hcc : cc ≤ 4)
  (raw : Byte)
include h hpos hcc

/-- The accumulator with one sample more. -/
theorem Accumulates.bits_append :
    Stacks cc (samples ++ [raw]) (s.stackedBits ||| ((raw &&& s.stackMask) <<< s.stackFill.toNat)) := by
  rw [h.mask, h.fill]
  exact h.bits.append hpos hcc raw

omit hpos in
theorem Accumulates.fill_add (hroom : cc * samples.length < 8) :
    (s.stackFill + s.cfgChannelCount).toNat = cc * (samples.length + 1) := by
  rw [BitVec.toNat_add, h.fill, h.channels, Nat.mul_add]
  omega

/-- A sample that does not fill the byte is held. -/
theorem Accumulates.push (hroom : cc * (samples.length + 1) < 8) :
    ∃ t, exec (.push raw) s = .next t ∧ Accumulates cc (samples ++ [raw]) t := by
  have hfill := h.fill_add hcc (by rw [Nat.mul_add] at hroom; omega)
  rcases stackSample_cases raw { s with interruptCount := s.interruptCount + 1 } with ⟨hfull, _⟩ | ⟨_, e⟩
  · exact absurd (hfill ▸ hfull : 8 ≤ cc * (samples.length + 1)) (by omega)
  · exact ⟨_, exec_push_of_stack h.mode (h.channels ▸ hcc) e, h.mode, h.channels, h.mask,
      by rw [List.length_append]; exact hfill, h.bits_append hpos hcc raw, h.pending⟩

/-- A sample that fills the byte leaves it to enqueue, and an empty accumulator. -/
theorem Accumulates.push_full (hroom : cc * samples.length < 8) (hfull : 8 ≤ cc * (samples.length + 1)) :
    ∃ t byte, exec (.push raw) s = .next t ∧ t.pPending = [byte] ∧ t.stackedBits = 0 ∧ t.stackFill = 0 ∧
      Stacks cc (samples ++ [raw]) byte := by
  have hfill := h.fill_add hcc hroom
  rcases stackSample_cases raw { s with interruptCount := s.interruptCount + 1 } with ⟨_, e⟩ | ⟨hle, _⟩
  · exact ⟨_, _, exec_push_of_stack h.mode (h.channels ▸ hcc) e, rfl, rfl, rfl, h.bits_append hpos hcc raw⟩
  · exact absurd (hfill ▸ hle : cc * (samples.length + 1) ≤ 7) (by omega)

end

/-- The `PUSH`es that fill the byte begun with `held`: all but the last are held, the last makes the byte. -/
theorem Accumulates.pushAll {cc : Nat} (hpos : 1 ≤ cc) (hcc : cc ≤ 4) {more : List Byte} :
    ∀ {held : List Byte} {s : State} {raw : Byte}, Accumulates cc held s →
      cc * (held.length + more.length) < 8 → 8 ≤ cc * (held.length + more.length + 1) →
      ∃ t byte, runCommands ((raw :: more).map .push) s = .next t ∧ t.pPending = [byte] ∧ t.stackedBits = 0 ∧
        t.stackFill = 0 ∧ Stacks cc (held ++ raw :: more) byte := by
  induction more with
  | nil =>
    intro held s raw h hroom hfull
    obtain ⟨t, byte, hexec, hrest⟩ := h.push_full hpos hcc raw hroom hfull
    exact ⟨t, byte, runCommands_cons hexec, hrest⟩
  | cons next more ih =>
    intro held s raw h hroom hfull
    have hlen : (held ++ [raw]).length + more.length = held.length + (next :: more).length := by
      simp only [List.length_append, List.length_cons, List.length_nil]
      omega
    have hheld : cc * (held.length + 1) ≤ cc * (held.length + (next :: more).length) :=
      Nat.mul_le_mul_left cc (by simp)
    obtain ⟨u, hexec, hu⟩ := h.push hpos hcc raw (by omega)
    obtain ⟨t, byte, hrun, hp, hb, hf, hs⟩ := ih (raw := next) hu (by rwa [hlen]) (by rwa [hlen])
    refine ⟨t, byte, (runCommands_cons hexec).trans hrun, hp, hb, hf, ?_⟩
    simpa using hs

/-- Settles O22: the samples fill the byte exactly with the last of ⌈8/cc⌉. -/
theorem stackedByteLayout : Obligations.StackedByteLayout := by
  intro s cc samples hpos hcc hm hch hmask hbits hfill hp hlen
  have hstart : Accumulates cc [] s :=
    ⟨hm, hch, hmask, by simp [hfill], fun j _ => by simp [hbits], hp⟩
  have hroom : cc * (samples.length - 1) < 8 ∧ 8 ≤ cc * samples.length := by
    rw [hlen]
    interval_cases cc <;> decide
  cases samples with
  | nil => simp at hroom
  | cons raw more => exact hstart.pushAll hpos hcc (by simpa using hroom.1) (by simpa using hroom.2)

end Sys2Proof.Machine

/-! Scope: the family of spec/40_queue.md, and the invariant of the block (R140, R200). Every step is made of moves of
the queue, the encoder and the compressor (`Move`, `step_moves`). A move keeps the invariant, since each unit keeps its own
part of it; and no move but the clearing one takes `overflow` back. The one hard part is the dictionary: a phrase is
learned at an empty slot, which the probe of no learned phrase passes, so every phrase is found after it as before. -/

namespace Sys2Proof.Machine

open Sys2Proof.Claims

/-! ### Keys (spec/42_compressor.md R194) -/

theorem phraseKey_toNat (c : Code) (b : Byte) : (phraseKey c b).toNat = c.toNat * 65536 + b.toNat := by
  have hc := c.isLt
  have hb := b.isLt
  have hhigh : (c.zeroExtend 32 <<< 16).toNat = c.toNat <<< 16 := by
    simp only [BitVec.zeroExtend, BitVec.toNat_shiftLeft, BitVec.toNat_setWidth, Nat.shiftLeft_eq]
    omega
  have hlow : (b.zeroExtend 32).toNat = b.toNat := by
    simp only [BitVec.zeroExtend, BitVec.toNat_setWidth]
    omega
  rw [phraseKey, BitVec.toNat_or, hhigh, hlow, ← Nat.shiftLeft_add_eq_or_of_lt (by omega), Nat.shiftLeft_eq]

@[simp] theorem keyCode_phraseKey (c : Code) (b : Byte) : keyCode (phraseKey c b) = c := by
  have hc := c.isLt
  have hb := b.isLt
  apply BitVec.eq_of_toNat_eq
  simp only [keyCode, BitVec.extractLsb'_toNat, phraseKey_toNat, Nat.shiftRight_eq_div_pow]
  omega

@[simp] theorem keyByte_phraseKey (c : Code) (b : Byte) : keyByte (phraseKey c b) = b := by
  have hb := b.isLt
  apply BitVec.eq_of_toNat_eq
  simp only [keyByte, byteAt, BitVec.extractLsb'_toNat, phraseKey_toNat, Nat.shiftRight_eq_div_pow]
  omega

/-- No phrase has the key `EMPTY`: bits 15:8 of a key are 0. -/
theorem phraseKey_ne_empty (c : Code) (b : Byte) : phraseKey c b ≠ reference.empty := by
  intro h
  have hb := b.isLt
  have hnat := congrArg BitVec.toNat h
  rw [phraseKey_toNat] at hnat
  change _ = 4294967295 at hnat
  omega

/-! ### An entry at a free index -/

namespace Memory

variable {w : Nat} {d : BitVec w}

/-- No entry stands at an index that reads as `d`. -/
theorem ne_of_read_eq {size : Nat} {m : Memory w} (h : Memory.wf d size m) {a : Nat} (ha : Memory.read d m a = d) :
    ∀ c ∈ m, c.1 ≠ a := by
  rintro c hc rfl
  exact (h.2 c hc).2 ((read_of_mem h hc).symm.trans ha)

/-- Writing at an index with no entry lists one entry more. -/
theorem write_perm {m : Memory w} {a : Nat} {v : BitVec w} (hfresh : ∀ c ∈ m, c.1 ≠ a) (hv : v ≠ d) :
    (Memory.write d m a v).Perm ((a, v) :: m) := by
  rw [Memory.write, if_neg hv]
  induction m with
  | nil => exact .refl _
  | cons e m ih =>
    obtain ⟨k, x⟩ := e
    have hk : a ≠ k := fun h => hfresh (k, x) List.mem_cons_self h.symm
    simp only [Memory.insert, if_neg hk]
    split
    · exact .refl _
    · exact ((ih fun c hc => hfresh c (List.mem_cons_of_mem _ hc)).cons (k, x)).trans (.swap _ _ m)

end Memory

/-! ### The probe after a change of the tables (R195) -/

section
variable {P : Params} {s t : State} {key : Key} {r r' : LookupResult}
  (hnone : ∀ x, checkSlot P s key x = none → checkSlot P t key x = none)
  (hsome : ∀ x, checkSlot P s key x = some r → checkSlot P t key x = some r')
  (hr : ∀ f, r ≠ .fault f)
include hnone hsome hr

/-- A probe that passes the same slots as before, and ends at the same slot with a new answer, has the new answer. -/
theorem probe_transfer (d fuel x : Nat) (h : probe P s key d fuel x = r) : probe P t key d fuel x = r' := by
  induction fuel generalizing x with
  | zero => exact absurd h.symm (hr _)
  | succ fuel ih =>
    unfold probe at h ⊢
    split at h
    · rename_i hc
      subst h
      rw [hsome _ hc]
    · rename_i hc
      rw [hnone _ hc]
      exact ih _ h

theorem lookup_transfer {code : Code} {b : Byte} (hkey : phraseKey code b = key) (h : lookup P s code b = r) :
    lookup P t code b = r' := by
  subst hkey
  unfold lookup at h ⊢
  split at h
  · exact absurd h.symm (hr _)
  · rw [if_neg ‹_›]
    split at h
    · rename_i hc
      subst h
      rw [hsome _ hc]
    · rename_i hc
      rw [hnone _ hc]
      exact probe_transfer hnone hsome hr _ _ _ h

end

/-! ### The dictionary (R200 (a) to (e)) -/

/-- The invariants of R200 that speak of the two tables and `free_entry` alone. -/
structure DictionaryInv (P : Params) (s : State) : Prop where
  freeEntry : FreeEntryInv P s
  codes : CodesInv P s
  keys : KeysInv P s
  reach : ReachInv P s

theorem DictionaryInv.congr {P : Params} {s t : State} (h : DictionaryInv P s) (hh : t.hashTable = s.hashTable)
    (hc : t.codeTable = s.codeTable) (hf : t.freeEntry = s.freeEntry) : DictionaryInv P t where
  freeEntry := by rw [FreeEntryInv, hh, hf]; exact h.freeEntry
  codes := by
    have hslots : slotCodes t = slotCodes s := by simp only [slotCodes, hh, hc]
    rw [CodesInv, hslots, hh, hf]
    exact h.codes
  keys := by rw [KeysInv, hh, hc]; exact h.keys
  reach := by
    rw [ReachInv, hh, hc]
    exact fun e he => (lookup_congr P hh hc _ _).trans (h.reach e he)

/-- The dictionary is empty after `TableReset` (R193). -/
theorem dictionaryInv_of_empty {s : State} (hh : s.hashTable = []) (hf : s.freeEntry = 257) :
    DictionaryInv reference s where
  freeEntry := by rw [FreeEntryInv, hh, hf]; decide
  codes := by rw [CodesInv, slotCodes, hh, hf]; simp
  keys := by rw [KeysInv, hh]; simp
  reach := by rw [ReachInv, hh]; simp

/-- A lookup hits on a learned code only. -/
theorem DictionaryInv.hit_range {s : State} (h : DictionaryInv reference s) {old c : Code} {b : Byte}
    (hl : lookup reference s old b = .hit c) : 257 ≤ c.toNat ∧ c.toNat < s.freeEntry.toNat := by
  rcases lookup_cases reference s old b with ⟨c', e, slot, _, hread, hc⟩ | ⟨_, e, _⟩ | ⟨_, e⟩ <;> rw [e] at hl <;>
    cases hl
  obtain ⟨hlo, _, _⟩ := h.freeEntry
  rw [reference_firstFree] at hlo
  have hlisted : (slot, s.hashTable.read reference.empty slot) ∈ s.hashTable :=
    Memory.mem_of_read_ne (by rw [hread]; exact phraseKey_ne_empty old b)
  have hcode : c.toNat ∈ slotCodes s := by
    rw [hc]
    exact List.mem_map_of_mem (f := fun e => (s.codeTable.read codeUnlisted e.1).toNat) hlisted
  have hrange := h.codes.1.mem_iff.1 hcode
  rw [List.mem_range'_1, reference_firstFree] at hrange
  omega

/-! ### Learning a phrase (R196) -/

theorem learnPhrase_checkSlot_other (P : Params) (old : Code) (b : Byte) {slot : Nat} (s : State) (key : Key) {x : Nat}
    (hx : x ≠ slot) : checkSlot P (learnPhrase P old b slot s) key x = checkSlot P s key x := by
  simp only [checkSlot, learnPhrase, Memory.read_write_other _ _ hx]

section
variable {s : State} {old : Code} {b : Byte} {slot : Nat} (hm : MemoryInv reference s)
  (hmiss : lookup reference s old b = .miss slot)
include hmiss

theorem missAt_of_lookup : MissAt reference s slot := by
  rcases lookup_cases reference s old b with ⟨_, e, _⟩ | ⟨_, e, hs⟩ | ⟨_, e⟩ <;> rw [e] at hmiss <;> cases hmiss
  exact hs

/-- A slot that a probe passes by is not the one that is written. -/
theorem learnPhrase_checkSlot_none {key : Key} {x : Nat} (hx : checkSlot reference s key x = none) :
    checkSlot reference (learnPhrase reference old b slot s) key x = none := by
  rw [learnPhrase_checkSlot_other, hx]
  rintro rfl
  rcases checkSlot_cases reference s key x with ⟨_, e⟩ | ⟨_, _, e⟩ | ⟨_, hne, _⟩
  · rw [e] at hx; cases hx
  · rw [e] at hx; cases hx
  · exact hne (missAt_of_lookup hmiss).2

/-- A phrase that was found is found again: its probe passes occupied slots only. -/
theorem learnPhrase_lookup_old {code : Code} {v : Byte} {c : Code} (hl : lookup reference s code v = .hit c) :
    lookup reference (learnPhrase reference old b slot s) code v = .hit c := by
  refine lookup_transfer (r := .hit c) (fun x => learnPhrase_checkSlot_none hmiss) (fun x hx => ?_) nofun rfl hl
  rw [learnPhrase_checkSlot_other, hx]
  rintro rfl
  rcases checkSlot_cases reference s (phraseKey code v) x with ⟨hread, _⟩ | ⟨_, _, e⟩ | ⟨_, _, e⟩
  · exact phraseKey_ne_empty code v (hread.symm.trans (missAt_of_lookup hmiss).2)
  · rw [e] at hx; cases hx
  · rw [e] at hx; cases hx

/-- The phrase just learned is found where its lookup missed. -/
theorem learnPhrase_lookup_new :
    lookup reference (learnPhrase reference old b slot s) old b = .hit s.freeEntry := by
  refine lookup_transfer (r := .miss slot) (fun x => learnPhrase_checkSlot_none hmiss) (fun x hx => ?_) nofun rfl hmiss
  rcases checkSlot_cases reference s (phraseKey old b) x with ⟨_, e⟩ | ⟨_, _, e⟩ | ⟨_, _, e⟩ <;> rw [e] at hx <;>
    cases hx
  simp [checkSlot, learnPhrase]

/-- A phrase whose lookup misses is not in the table. -/
theorem phraseKey_not_mem_of_miss (h : DictionaryInv reference s) :
    phraseKey old b ∉ s.hashTable.map Prod.snd := by
  intro hmem
  obtain ⟨e, he, hkey⟩ := List.mem_map.1 hmem
  have hhit := h.reach e he
  rw [hkey, keyCode_phraseKey, keyByte_phraseKey, hmiss] at hhit
  cases hhit

include hm

theorem learnPhrase_memoryInv : MemoryInv reference (learnPhrase reference old b slot s) := by
  obtain ⟨hbuf, hhash, hcode⟩ := hm
  have hslot := (missAt_of_lookup hmiss).1
  exact ⟨hbuf, Memory.write_wf _ hhash hslot, Memory.write_wf _ hcode hslot⟩

theorem learnPhrase_hashTable_perm :
    (learnPhrase reference old b slot s).hashTable.Perm ((slot, phraseKey old b) :: s.hashTable) :=
  Memory.write_perm (Memory.ne_of_read_eq hm.2.1 (missAt_of_lookup hmiss).2) (phraseKey_ne_empty old b)

/-- The codes of the older entries stay. -/
theorem learnPhrase_codeTable_other : ∀ e ∈ s.hashTable,
    (learnPhrase reference old b slot s).codeTable.read codeUnlisted e.1 = s.codeTable.read codeUnlisted e.1 :=
  fun e he => Memory.read_write_other _ _ (Memory.ne_of_read_eq hm.2.1 (missAt_of_lookup hmiss).2 e he)

theorem learnPhrase_slotCodes_perm :
    (slotCodes (learnPhrase reference old b slot s)).Perm (s.freeEntry.toNat :: slotCodes s) := by
  have hnew : (learnPhrase reference old b slot s).codeTable.read codeUnlisted slot = s.freeEntry :=
    Memory.read_write_same _ _ _
  have hold : s.hashTable.map (fun e => ((learnPhrase reference old b slot s).codeTable.read codeUnlisted
      e.1).toNat) = slotCodes s :=
    List.map_congr_left fun e he => congrArg BitVec.toNat (learnPhrase_codeTable_other hm hmiss e he)
  refine ((learnPhrase_hashTable_perm hm hmiss).map _).trans ?_
  rw [List.map_cons, hnew, hold]

/-- Learning the phrase that a lookup missed keeps the dictionary's invariants (R200). -/
theorem learnPhrase_dictionaryInv (h : DictionaryInv reference s) (hold : old.toNat < s.freeEntry.toNat)
    (hclear : old.toNat ≠ 256) (hroom : s.freeEntry.toNat < 8191) :
    DictionaryInv reference (learnPhrase reference old b slot s) := by
  have hperm := learnPhrase_hashTable_perm hm hmiss
  have hother := learnPhrase_codeTable_other hm hmiss
  have hnew : (learnPhrase reference old b slot s).codeTable.read codeUnlisted slot = s.freeEntry :=
    Memory.read_write_same _ _ _
  have hfree : (learnPhrase reference old b slot s).freeEntry.toNat = s.freeEntry.toNat + 1 := by
    change (s.freeEntry + 1).toNat = _
    rw [BitVec.toNat_add]
    change (s.freeEntry.toNat + 1) % 65536 = _
    omega
  obtain ⟨hlo, _, hlen⟩ := h.freeEntry
  rw [reference_firstFree] at hlo hlen
  have hentry : ∀ e ∈ (learnPhrase reference old b slot s).hashTable,
      e = (slot, phraseKey old b) ∨ e ∈ s.hashTable := fun e he => List.mem_cons.1 (hperm.mem_iff.1 he)
  refine ⟨⟨?_, ?_, ?_⟩, ⟨?_, ?_⟩, ?_, ?_⟩
  · rw [hfree, reference_firstFree]; omega
  · rw [hfree, reference_maxCode]; omega
  · rw [hperm.length_eq, List.length_cons, hlen, hfree, reference_firstFree]; omega
  · -- the new code follows those stored so far
    have hrange : List.range' 257 (s.freeEntry.toNat + 1 - 257) =
        List.range' 257 (s.freeEntry.toNat - 257) ++ [s.freeEntry.toNat] := by
      rw [show s.freeEntry.toNat + 1 - 257 = s.freeEntry.toNat - 257 + 1 by omega, List.range'_1_concat,
        show 257 + (s.freeEntry.toNat - 257) = s.freeEntry.toNat by omega]
    rw [hfree, reference_firstFree, hrange]
    exact (learnPhrase_slotCodes_perm hm hmiss).trans
      ((h.codes.1.cons _).trans (List.perm_append_singleton _ _).symm)
  · rw [(hperm.map Prod.snd).nodup_iff, List.map_cons, List.nodup_cons]
    exact ⟨phraseKey_not_mem_of_miss hmiss h, h.codes.2⟩
  · intro e he
    rcases hentry e he with rfl | he
    · simp only [keyCode_phraseKey, keyByte_phraseKey, hnew, reference_clearCode]
      exact ⟨trivial, hold, hclear⟩
    · rw [hother e he]
      exact h.keys e he
  · intro e he
    rcases hentry e he with rfl | he
    · simp only [keyCode_phraseKey, keyByte_phraseKey, hnew]
      exact learnPhrase_lookup_new hmiss
    · rw [hother e he]
      exact learnPhrase_lookup_old hmiss (h.reach e he)

end

/-! ### The compressor's steps (R196, R197, R200) -/

/-- The invariants of R200 by what they speak of: the dictionary, the packer, the pending code. -/
theorem compressorInv_iff (P : Params) (s : State) : CompressorInv P s ↔
    (s.cmpReady = true → DictionaryInv P s ∧ PackerInv s ∧ PhraseInv P s) := by
  constructor
  · intro h hr
    obtain ⟨hfree, hcodes, hkeys, hreach, hpacker, hphrase⟩ := h hr
    exact ⟨⟨hfree, hcodes, hkeys, hreach⟩, hpacker, hphrase⟩
  · intro h hr
    obtain ⟨⟨hfree, hcodes, hkeys, hreach⟩, hpacker, hphrase⟩ := h hr
    exact ⟨hfree, hcodes, hkeys, hreach, hpacker, hphrase⟩

/-- The invariants of R200 read the compressor's registers and tables alone, and not the `sink`. -/
theorem CompressorInv.of_frame {P : Params} {s t : State} (h : CompressorInv P s)
    (hf : t.withCompressorOf s = { t with sink := s.sink }) : CompressorInv P t := by
  have hh : t.hashTable = s.hashTable := (congrArg State.hashTable hf).symm
  have hc : t.codeTable = s.codeTable := (congrArg State.codeTable hf).symm
  have hfree : t.freeEntry = s.freeEntry := (congrArg State.freeEntry hf).symm
  have hcode : t.currentPhraseCode = s.currentPhraseCode := (congrArg State.currentPhraseCode hf).symm
  have hbyte : t.outByte = s.outByte := (congrArg State.outByte hf).symm
  have hbits : t.outBits = s.outBits := (congrArg State.outBits hf).symm
  have hfirst : t.firstByte = s.firstByte := (congrArg State.firstByte hf).symm
  have hready : t.cmpReady = s.cmpReady := (congrArg State.cmpReady hf).symm
  rw [compressorInv_iff, PackerInv, PhraseInv, hfree, hcode, hbyte, hbits, hfirst, hready]
  intro hr
  obtain ⟨hdict, hpacker, hphrase⟩ := (compressorInv_iff P s).1 h hr
  exact ⟨hdict.congr hh hc hfree, hpacker, hphrase⟩

theorem compressorInv_of_not_ready {P : Params} {s : State} (h : s.cmpReady = false) : CompressorInv P s :=
  fun hr => absurd hr (by simp [h])

theorem initCompressor_compressorInv (s : State) : CompressorInv reference (initCompressor reference s) :=
  (compressorInv_iff _ _).2 fun _ =>
    ⟨dictionaryInv_of_empty rfl rfl, (by decide : (0 : Nat) % 2 ^ (8 - 0) = 0), nofun⟩

theorem literalCode_toNat_lt (b : Byte) : (literalCode b).toNat < 256 := by
  have hb := b.isLt
  rw [literalCode, BitVec.zeroExtend, BitVec.toNat_setWidth]
  omega

theorem tableReset_memoryInv {P : Params} {s : State} (h : MemoryInv P s) : MemoryInv P (tableReset P s) :=
  ⟨h.1, Memory.nil_wf _, h.2.2⟩

theorem initCompressor_memoryInv {P : Params} {s : State} (h : MemoryInv P s) : MemoryInv P (initCompressor P s) :=
  ⟨h.1, Memory.nil_wf _, h.2.2⟩

theorem tableReset_dictionaryInv (s : State) : DictionaryInv reference (tableReset reference s) :=
  dictionaryInv_of_empty rfl rfl

@[simp] theorem putCode_hashTable (P : Params) (c : Code) (s : State) : (putCode P c s).hashTable = s.hashTable := by
  rw [putCode_frame, State.withPackerOf_hashTable]

@[simp] theorem putCode_codeTable (P : Params) (c : Code) (s : State) : (putCode P c s).codeTable = s.codeTable := by
  rw [putCode_frame, State.withPackerOf_codeTable]

@[simp] theorem putCode_freeEntry (P : Params) (c : Code) (s : State) : (putCode P c s).freeEntry = s.freeEntry := by
  rw [putCode_frame, State.withPackerOf_freeEntry]

@[simp] theorem putCode_currentPhraseCode (P : Params) (c : Code) (s : State) :
    (putCode P c s).currentPhraseCode = s.currentPhraseCode := by
  rw [putCode_frame, State.withPackerOf_currentPhraseCode]

theorem putCode_packerInv (P : Params) (c : Code) {s : State} (h : PackerInv s) : PackerInv (putCode P c s) :=
  (putBits_packs c P.nbits h).2.1

theorem putCode_memoryInv {P : Params} (c : Code) {s : State} (h : MemoryInv P s) : MemoryInv P (putCode P c s) := by
  rw [putCode_frame]
  exact h

/-- A state whose pending code is emitted and replaced by the literal of the byte: the first part of a miss (R196). -/
def restartPhrase (P : Params) (b : Byte) (s : State) : State :=
  { putCode P s.currentPhraseCode s with currentPhraseCode := literalCode b }

section
variable {P : Params} {s : State} (b : Byte)

@[simp] theorem restartPhrase_freeEntry : (restartPhrase P b s).freeEntry = s.freeEntry :=
  putCode_freeEntry P s.currentPhraseCode s

theorem restartPhrase_memoryInv (h : MemoryInv P s) : MemoryInv P (restartPhrase P b s) :=
  putCode_memoryInv s.currentPhraseCode h

theorem restartPhrase_packerInv (h : PackerInv s) : PackerInv (restartPhrase P b s) :=
  putCode_packerInv P s.currentPhraseCode h

theorem restartPhrase_dictionaryInv (h : DictionaryInv P s) : DictionaryInv P (restartPhrase P b s) :=
  h.congr (putCode_hashTable P _ s) (putCode_codeTable P _ s) (putCode_freeEntry P _ s)

theorem restartPhrase_lookup (code : Code) (v : Byte) :
    lookup P (restartPhrase P b s) code v = lookup P s code v :=
  lookup_congr P (t := restartPhrase P b s) (putCode_hashTable P s.currentPhraseCode s)
    (putCode_codeTable P s.currentPhraseCode s) code v

end

/-- Everything a miss can do (R196). -/
theorem missPhrase_cases (P : Params) (b : Byte) (slot : Nat) (s : State) :
    (s.freeEntry.toNat < P.maxCode ∧
      missPhrase P b slot s = learnPhrase P s.currentPhraseCode b slot (restartPhrase P b s)) ∨
    (P.maxCode ≤ s.freeEntry.toNat ∧
      missPhrase P b slot s = tableReset P (putCode P (BitVec.ofNat 16 P.clearCode) (restartPhrase P b s))) := by
  rw [← restartPhrase_freeEntry (P := P) b]
  unfold missPhrase restartPhrase
  simp only
  split
  · exact .inl ⟨‹_›, rfl⟩
  · exact .inr ⟨Nat.le_of_not_lt ‹_›, rfl⟩

/-- After a miss the pending code is the literal of the byte. -/
theorem missPhrase_currentPhraseCode (P : Params) (b : Byte) (slot : Nat) (s : State) :
    (missPhrase P b slot s).currentPhraseCode = literalCode b := by
  rcases missPhrase_cases P b slot s with ⟨_, e⟩ | ⟨_, e⟩ <;> rw [e]
  · rfl
  · rw [tableReset, putCode_currentPhraseCode]
    rfl

theorem missPhrase_packerInv (P : Params) (b : Byte) (slot : Nat) {s : State} (h : PackerInv s) :
    PackerInv (missPhrase P b slot s) := by
  have hrestart := restartPhrase_packerInv (P := P) b h
  rcases missPhrase_cases P b slot s with ⟨_, e⟩ | ⟨_, e⟩ <;> rw [e]
  · exact hrestart
  · exact putCode_packerInv P _ hrestart

/-- A miss keeps the tables in order: it learns its phrase, or with no code left starts the dictionary again. -/
theorem missPhrase_keeps_tables {s : State} {b : Byte} {slot : Nat} (hm : MemoryInv reference s)
    (hd : DictionaryInv reference s) (hphrase : PhraseInv reference s) (hfirst : s.firstByte = false)
    (hmiss : lookup reference s s.currentPhraseCode b = .miss slot) :
    MemoryInv reference (missPhrase reference b slot s) ∧ DictionaryInv reference (missPhrase reference b slot s) := by
  have hm' := restartPhrase_memoryInv b hm
  have hmiss' := (restartPhrase_lookup b s.currentPhraseCode b).trans hmiss
  have hcur := hphrase hfirst
  obtain ⟨hlo, _, _⟩ := hd.freeEntry
  rw [reference_firstFree] at hlo hcur
  rcases missPhrase_cases reference b slot s with ⟨hroom, e⟩ | ⟨_, e⟩ <;> rw [e]
  · rw [← restartPhrase_freeEntry (P := reference) b] at hcur hlo hroom
    exact ⟨learnPhrase_memoryInv hm' hmiss',
      learnPhrase_dictionaryInv hm' hmiss' (restartPhrase_dictionaryInv b hd) (by omega) (by omega) hroom⟩
  · exact ⟨tableReset_memoryInv (putCode_memoryInv _ hm'), tableReset_dictionaryInv _⟩

/-- The steps of `CBYTE` on an initialised compressor keep its invariants (R196, R200). -/
theorem compressByte_keeps {s t : State} {b : Byte} (h : compressByte reference b s = .next t)
    (hr : s.cmpReady = true) (hm : MemoryInv reference s) (hc : CompressorInv reference s) :
    MemoryInv reference t ∧ CompressorInv reference t := by
  obtain ⟨hd, hp, hphrase⟩ := (compressorInv_iff _ _).1 hc hr
  rcases compressByte_cases reference b s with ⟨_, e⟩ | ⟨_, c, hhit, e⟩ | ⟨hfirst, slot, hmiss, e⟩ | ⟨_, _, _, e⟩ <;>
    rw [e] at h
  · cases h
    exact ⟨hm, (compressorInv_iff _ _).2 fun _ =>
      ⟨hd.congr rfl rfl rfl, hp, fun _ => .inl (literalCode_toNat_lt b)⟩⟩
  · cases h
    exact ⟨hm, (compressorInv_iff _ _).2 fun _ => ⟨hd.congr rfl rfl rfl, hp, fun _ => .inr (hd.hit_range hhit)⟩⟩
  · rw [← Host.Outcome.next.inj h]
    obtain ⟨hm', hd'⟩ := missPhrase_keeps_tables hm hd hphrase hfirst hmiss
    refine ⟨hm', (compressorInv_iff _ _).2 fun _ => ⟨hd', missPhrase_packerInv _ b slot hp, fun _ => .inl ?_⟩⟩
    rw [missPhrase_currentPhraseCode]
    exact literalCode_toNat_lt b
  · cases h

/-! ### The moves every step is made of -/

/-- `s` with everything that no queue, encoder or compressor step writes taken from `t`: the configuration registers,
`session`, `sink` and the bookkeeping of the ports but for the bytes that wait. -/
def State.withGlueOf (s t : State) : State :=
  { s with
    cfgChannelCount := t.cfgChannelCount
    cfgSampleRateHz := t.cfgSampleRateHz
    cfgSessionDurationMs := t.cfgSessionDurationMs
    cfgCompressionEnabled := t.cfgCompressionEnabled
    cfgMode := t.cfgMode
    session := t.session
    sink := t.sink
    pCmds := t.pCmds
    cCmds := t.cCmds
    pResponses := t.pResponses
    cResponses := t.cResponses
    turns := t.turns
    producerRaced := t.producerRaced }

/-- The moves of the block's units. `clears` says when the queue may be cleared. -/
inductive Move (clears : Prop) : State → State → Prop
  /-- A change of what no unit writes: a response, a configuration register, `session`, a delivery from the `sink`. -/
  | glue (s t : State) : Move clears s (s.withGlueOf t)
  /-- One `Enq` (R145). -/
  | enq (v : Byte) (s : State) : Move clears s (enq reference v s).2
  /-- One `Deq` of a queue that is not empty (R146). -/
  | take {s : State} (hc : s.count ≠ 0) :
      Move clears s { s with head := advance reference s.head, count := s.count - 1 }
  /-- The session-start reset (R141). -/
  | clear (s : State) (hc : clears) : Move clears s (clearQueue reference s)
  /-- One `EncStep` (spec/41_encoder.md R162). -/
  | sample (raw : Byte) (s : State) : Move clears s (encStep reference raw s).2
  /-- The bytes of an encoder step begin to wait (spec/20_memory.md R81, spec/41_encoder.md R172). -/
  | await {out : List Byte} (s : State) (hlen : out.length ≤ 8) : Move clears s { s with pPending := out }
  /-- The first of the waiting bytes is no longer waited for (R81). -/
  | resume {s : State} {v : Byte} {vs : List Byte} (hp : s.pPending = v :: vs) : Move clears s { s with pPending := vs }
  /-- The steps of `CINIT` (spec/42_compressor.md R192). -/
  | initialise (s : State) : Move clears s (initCompressor reference s)
  /-- The steps of `CBYTE` on an initialised compressor (R196). -/
  | compress {s t : State} {b : Byte} (hr : s.cmpReady = true) (h : compressByte reference b s = .next t) :
      Move clears s t
  /-- The steps of `CFLUSH` (R198). -/
  | flush (s : State) : Move clears s (flushCompressor reference s)
  /-- The compressor is no longer initialised (R192, spec/43_session.md R232). -/
  | tearDown (s : State) : Move clears s { s with cmpReady := false }

/-- Any number of moves, one after the other. -/
def Moves (clears : Prop) : State → State → Prop := Relation.ReflTransGen (Move clears)

section
variable {clears : Prop} {s t u : State}

theorem Moves.refl : Moves clears s s := Relation.ReflTransGen.refl

theorem Moves.trans (h : Moves clears s t) (g : Moves clears t u) : Moves clears s u := Relation.ReflTransGen.trans h g

theorem Move.moves (h : Move clears s t) : Moves clears s t := Relation.ReflTransGen.single h

/-- What every move keeps, any number of them does. -/
theorem Moves.keeps {p : State → Prop} (hp : ∀ s t, Move clears s t → p s → p t) (h : Moves clears s t) (hs : p s) :
    p t := by
  induction h with
  | refl => exact hs
  | tail _ hmove ih => exact hp _ _ hmove ih

theorem Move.mono {clears' : Prop} (hc : clears → clears') (h : Move clears s t) : Move clears' s t := by
  cases h with
  | glue _ t => exact .glue s t
  | enq v => exact .enq v s
  | take hne => exact .take hne
  | clear _ h => exact .clear s (hc h)
  | sample raw => exact .sample raw s
  | await _ hlen => exact .await s hlen
  | resume hp => exact .resume hp
  | initialise => exact .initialise s
  | compress hr h => exact .compress hr h
  | flush => exact .flush s
  | tearDown => exact .tearDown s

theorem Moves.mono {clears' : Prop} (hc : clears → clears') (h : Moves clears s t) : Moves clears' s t :=
  h.keeps (p := Moves clears' s) (fun _ _ hmove hs => hs.trans (hmove.mono hc).moves) .refl

/-- Moves, and then a change of nothing but what no unit writes. -/
theorem Moves.glue (h : Moves clears s t) (hu : u = t.withGlueOf u) : Moves clears s u := by
  rw [hu]
  exact h.trans (Move.glue t u).moves

theorem Moves.respond (h : Moves clears s t) (port : Port) (r : RespWord) : Moves clears s (respond port r t) :=
  h.glue (by cases port <;> rfl)

theorem Moves.setSession (h : Moves clears s t) (x : Session) : Moves clears s { t with session := x } := h.glue rfl

theorem moves_glue (h : t = s.withGlueOf t) : Moves clears s t := Moves.refl.glue h

theorem moves_respond (port : Port) (r : RespWord) (s : State) : Moves clears s (respond port r s) :=
  Moves.refl.respond port r

end

variable {clears : Prop}

theorem moves_noteIssue (i : Instr) (s : State) : Moves clears s (noteIssue i s) :=
  moves_glue (by rw [noteIssue_eq]; rfl)

theorem moves_enqAll (vs : List Byte) (s : State) : Moves clears s (enqAll reference vs s) := by
  induction vs generalizing s with
  | nil => exact .refl
  | cons v vs ih => exact (Move.enq v s).moves.trans (ih _)

theorem moves_finalStep (s : State) : Moves clears s (finalStep reference s).2 := by
  unfold finalStep
  split
  · exact .refl
  · exact (Move.sample _ s).moves

theorem moves_beginEnqueues {out : List Byte} (s : State) (hlen : out.length ≤ 8) :
    Moves clears s (beginEnqueues out s) := by
  rcases beginEnqueues_cases out s with ⟨_, e⟩ | ⟨_, e⟩ <;> rw [e]
  · exact moves_respond _ _ s
  · exact (Move.await s hlen).moves

theorem moves_continueProducer {v : Byte} {vs : List Byte} {s : State} (hp : s.pPending = v :: vs) :
    Moves clears s (continueProducer reference v vs s) := by
  have hwait : (enq reference v s).2.pPending = v :: vs := (samePorts_enq reference v s).pPending.trans hp
  have h : Moves clears s { (enq reference v s).2 with pPending := vs } := 
    (Move.enq v s).moves.trans (Move.resume hwait).moves
  unfold continueProducer
  simp only
  split
  · exact h.respond _ _
  · exact h

/-! ### The commands as moves -/

section
variable {s t : State}

theorem runEnq_moves {v : Byte} (h : runEnq reference v s = .next t) : Moves clears s t := by
  have hs : Moves clears s (enq reference v s).2 := (Move.enq v s).moves
  unfold runEnq at h
  rcases enq_cases reference v s with ⟨_, e⟩ | ⟨_, e⟩ <;> rw [e] at h hs <;> cases h
  · exact hs.respond _ _
  · exact hs.respond _ _

theorem runDeq_moves (h : runDeq reference s = .next t) : Moves clears s t := by
  unfold runDeq at h
  rcases deq_cases reference s with ⟨_, e⟩ | ⟨hc, e⟩ <;> rw [e] at h <;> cases h
  · exact moves_respond _ _ s
  · exact (Move.take hc).moves.respond _ _

theorem runCinit_moves (h : runCinit reference s = .next t) : Moves clears s t := by
  unfold runCinit at h
  split at h <;> rw [← Host.Outcome.next.inj h]
  · exact (Move.initialise s).moves.respond _ _
  · exact (Move.tearDown s).moves.respond _ _

theorem runCbyte_moves {b : Byte} (h : runCbyte reference b s = .next t) : Moves clears s t := by
  unfold runCbyte at h
  split at h
  · obtain ⟨u, hu, e⟩ := andThen_eq_next h
    cases e
    exact (Move.compress ‹_› hu).moves.respond _ _
  · cases h; exact moves_respond _ _ s

theorem runCflush_moves (h : runCflush reference s = .next t) : Moves clears s t := by
  unfold runCflush at h
  split at h <;> rw [← Host.Outcome.next.inj h]
  · exact (Move.flush s).moves.respond _ _
  · exact moves_respond _ _ s

/-- A configuration command is a glue move when its register write is. -/
theorem configure_moves {legal : Bool} {u : State} (h : configure legal u s = .next t) (hu : u = s.withGlueOf u) :
    Moves clears s t := by
  rcases configure_cases legal u s with ⟨_, e⟩ | ⟨_, _, e⟩ | ⟨_, _, e⟩ <;> rw [e] at h <;> cases h
  · exact moves_respond _ _ s
  · exact (moves_glue hu).respond _ _
  · exact moves_respond _ _ s

theorem runStart_moves (hc : clears) (h : runStart reference s = .next t) : Moves clears s t := by
  have hclear : Moves clears s { clearQueue reference s with sink := [] } :=
    (Move.clear s hc).moves.glue rfl
  unfold runStart at h
  split at h <;> rw [← Host.Outcome.next.inj h]
  · rcases startSession_cases reference s with ⟨_, _, e⟩ | ⟨_, _, e⟩ | ⟨_, e⟩ <;> rw [e]
    · exact ((hclear.trans (Move.initialise _).moves).setSession _).respond _ _
    · exact (hclear.trans (Move.tearDown _).moves).respond _ _
    · exact ((hclear.trans (Move.tearDown _).moves).setSession _).respond _ _
  · exact moves_respond _ _ s

theorem runStop_moves (h : runStop reference s = .next t) : Moves clears s t := by
  unfold runStop at h
  split at h <;> rw [← Host.Outcome.next.inj h]
  · have hfinal : Moves clears s (finalStep reference { s with session := .draining }).2 :=
      (Moves.refl.setSession _).trans (moves_finalStep _)
    exact (hfinal.trans (moves_enqAll _ _)).respond _ _
  · exact moves_respond _ _ s

theorem popQueue_moves (s : State) : Moves clears s (popQueue reference s) := by
  rcases popQueue_cases reference s with ⟨_, e⟩ | ⟨hc, e⟩ <;> rw [e]
  · split
    · exact moves_glue rfl
    · exact moves_respond _ _ s
  · exact (Move.take hc).moves.respond _ _

theorem refillSink_moves (h : refillSink reference s = .next t) : Moves clears s t := by
  rcases refillSink_cases reference s with ⟨_, e⟩ | ⟨_, hr, hc, e⟩ | ⟨_, _, _, _, e⟩ | ⟨_, _, _, _, e⟩ <;> rw [e] at h
  · cases h; exact .refl
  · exact (Move.take hc).moves.trans (Move.compress (by exact hr) h).moves
  · rw [← Host.Outcome.next.inj h]; exact (Move.flush s).moves
  · cases h; exact .refl

theorem deliverSink_moves (s : State) : Moves clears s (deliverSink s) := by
  rcases deliverSink_cases s with ⟨_, _, _, e⟩ | ⟨_, _, _, e⟩ | ⟨_, _, e⟩ <;> rw [e]
  · exact moves_glue rfl
  · exact moves_glue rfl
  · exact moves_respond _ _ s

theorem runPop_moves (h : runPop reference s = .next t) : Moves clears s t := by
  rcases runPop_eq_next h with ⟨_, u, hu, rfl⟩ | ⟨_, rfl⟩
  · exact (refillSink_moves hu).trans (deliverSink_moves u)
  · exact popQueue_moves s

/-- Every command is made of moves, and of those that clear the queue for `QCLEAR` and `START` only. -/
theorem exec_moves {i : Instr} (h : exec i s = .next t) : Moves (i = .qclear ∨ i = .start) s t := by
  cases i with
  | enq v => exact runEnq_moves h
  | push raw =>
    cases h
    exact (Move.sample raw s).moves.trans (moves_beginEnqueues _ (encStep_length reference raw s))
  | final =>
    cases h
    exact (moves_finalStep s).trans (moves_beginEnqueues _ (finalStep_length reference s))
  | deq => exact runDeq_moves h
  | qempty port => cases h; exact moves_respond _ _ s
  | qfull port => cases h; exact moves_respond _ _ s
  | qovf port => cases h; exact moves_respond _ _ s
  | qclear => cases h; exact (Move.clear s (.inl rfl)).moves.respond _ _
  | cinit => exact runCinit_moves h
  | cbyte b => exact runCbyte_moves h
  | cflush => exact runCflush_moves h
  | cfgch n => exact configure_moves h rfl
  | cfgrate n => exact configure_moves h rfl
  | cfgdur n => exact configure_moves h rfl
  | cfgmode n => exact configure_moves h rfl
  | cfgcmp n => exact configure_moves h rfl
  | start => exact runStart_moves (.inr rfl) h
  | stop => exact runStop_moves h
  | pop => exact runPop_moves h
  | sstat => cases h; exact moves_respond _ _ s

end

/-- It is C's turn, and its next word is `QCLEAR` or `START`. -/
def ClearsNext (s : State) : Prop :=
  ∃ rest, s.turns = .c :: rest ∧ (s.cCmds.head? = some 0x24000000 ∨ s.cCmds.head? = some 0x48000000)

/-- Every step is made of moves, and clears the queue only where C issues `QCLEAR` or `START`. -/
theorem step_moves {s t : State} (h : step s = .next t) : Moves (ClearsNext s) s t := by
  rcases step_cases s with ⟨_, e⟩ | ⟨rest, hturns, _⟩ | ⟨rest, _, hstep⟩
  · rw [e] at h; cases h; exact .refl
  · rcases step_c_cases hturns with e | ⟨ws, st, e⟩ | ⟨i, ws, _, hc, e⟩ <;> rw [e] at h
    · cases h; exact moves_glue rfl
    · cases h; exact moves_glue rfl
    · have hclears : i = .qclear ∨ i = .start → ClearsNext s := by
        rintro (rfl | rfl)
        · exact ⟨rest, hturns, .inl (by rw [hc]; rfl)⟩
        · exact ⟨rest, hturns, .inr (by rw [hc]; rfl)⟩
      exact ((moves_glue rfl).trans (moves_noteIssue i _)).trans ((exec_moves h).mono hclears)
  · rcases hstep with ⟨v, vs, hp, e⟩ | ⟨_, _, e⟩ | ⟨w, ws, _, _, e⟩ <;> rw [e] at h
    · cases h
      exact (moves_glue rfl).trans (moves_continueProducer (s := { s with turns := rest }) hp)
    · cases h; exact moves_glue rfl
    · rcases issue_cases .p w { s with turns := rest, pCmds := ws } with ⟨i, hd, e⟩ | ⟨_, _, e⟩ <;> rw [e] at h
      · have hport : i.port = .p := (encode_of_decode hd).2
        have hclears : i = .qclear ∨ i = .start → ClearsNext s := by rintro (rfl | rfl) <;> cases hport
        exact ((moves_glue rfl).trans (moves_noteIssue i _)).trans ((exec_moves h).mono hclears)
      · cases h
        exact moves_glue rfl

/-! ### The queue under `Enq` (spec/40_queue.md R140, R145, R147) -/

section
variable {s : State} (h : QueueInv reference s) (v : Byte)
include h

theorem enq_queueInv : QueueInv reference (enq reference v s).2 := by
  by_cases hc : s.count.toNat = 4096
  · rcases enq_cases reference v s with ⟨_, e⟩ | ⟨hroom, _⟩
    · rw [e]; exact h
    · exact absurd hc hroom
  · exact (enq_appends v h hc).2.1

/-- An `Enq` keeps the byte as far as it fits. -/
theorem queueBytes_enq : queueBytes reference (enq reference v s).2 = (queueBytes reference s ++ [v]).take 4096 := by
  have hlen := queueBytes_length reference s
  by_cases hc : s.count.toNat = 4096
  · rcases enq_cases reference v s with ⟨_, e⟩ | ⟨hroom, _⟩
    · rw [e, List.take_left' (hlen.trans hc)]
      exact queueBytes_congr reference rfl rfl rfl
    · exact absurd hc hroom
  · have hle : s.count.toNat ≤ 4096 := h.1
    rw [(enq_appends v h hc).1, List.take_of_length_le]
    rw [List.length_append, hlen, List.length_singleton]
    omega

end

theorem enq_overflow (v : Byte) (s : State) :
    (enq reference v s).2.overflow = true ↔ s.overflow = true ∨ s.count.toNat = 4096 := by
  rcases enq_cases reference v s with ⟨hfull, e⟩ | ⟨hroom, e⟩ <;> rw [e]
  · exact ⟨fun _ => .inr hfull, fun _ => rfl⟩
  · exact ⟨.inl, fun h => h.resolve_right hroom⟩

/-! ### The invariant of the block -/

theorem queueInv_clearQueue (s : State) : QueueInv reference (clearQueue reference s) :=
  ⟨Nat.zero_le 4096, (by decide : 0 < 4096), rfl⟩

/-- `CFLUSH` writes the packer and tears the compressor down (spec/42_compressor.md R198). -/
theorem flushCompressor_writes (P : Params) (s : State) :
    ∃ u, flushCompressor P s = { s.withPackerOf u with cmpReady := false } := ⟨_, flushCompressor_frame P s⟩

/-- Every move keeps the invariant: each unit keeps its own part, and no other unit writes what that part reads. -/
theorem Move.keeps_inv {clears : Prop} {s t : State} (h : Move clears s t) (hs : Inv reference s) :
    Inv reference t := by
  obtain ⟨hq, hm, he, hc⟩ := hs
  cases h with
  | glue _ u => exact ⟨hq, hm, he, hc.of_frame rfl⟩
  | enq v =>
    have hframe := enq_frame reference v s
    refine ⟨enq_queueInv hq v, ⟨?_, ?_⟩, ?_, ?_⟩
    · rcases enq_cases reference v s with ⟨_, e⟩ | ⟨_, e⟩ <;> rw [e]
      · exact hm.1
      · exact Memory.write_wf v hm.1 s.tail.isLt
    · rw [hframe]; exact hm.2
    · rw [hframe]; exact he
    · rw [hframe]; exact hc.of_frame rfl
  | take hne =>
    have htake := (deq_takes hq hne).2.1
    rcases deq_cases reference s with ⟨hz, _⟩ | ⟨_, e⟩
    · exact absurd hz hne
    · rw [e] at htake
      exact ⟨htake, hm, he, hc.of_frame rfl⟩
  | clear => exact ⟨queueInv_clearQueue s, hm, ⟨Nat.zero_le 7, he.2⟩, hc.of_frame rfl⟩
  | sample raw =>
    have hfill := encStep_fill reference raw he.1
    rw [encStep_frame] at hfill ⊢
    exact ⟨hq, hm, ⟨hfill, he.2⟩, hc.of_frame rfl⟩
  | await _ hlen => exact ⟨hq, hm, ⟨he.1, hlen⟩, hc.of_frame rfl⟩
  | resume hp =>
    have hlen := he.2
    rw [hp, List.length_cons] at hlen
    exact ⟨hq, hm, ⟨he.1, by simp only; omega⟩, hc.of_frame rfl⟩
  | initialise => exact ⟨hq, initCompressor_memoryInv hm, he, initCompressor_compressorInv s⟩
  | compress hr h =>
    obtain ⟨hm', hc'⟩ := compressByte_keeps h hr hm hc
    have hframe := (compressByte_frame h).1
    refine ⟨?_, hm', ?_, hc'⟩
    · rw [hframe]; exact hq
    · rw [hframe]; exact he
  | flush =>
    obtain ⟨u, hu⟩ := flushCompressor_writes reference s
    rw [hu]
    exact ⟨hq, hm, he, compressorInv_of_not_ready rfl⟩
  | tearDown => exact ⟨hq, hm, he, compressorInv_of_not_ready rfl⟩

/-- Settles O56: a step is made of moves, and every move keeps the invariant. -/
theorem everyStepKeepsTheInvariant : Obligations.EveryStepKeepsTheInvariant := by
  intro s t hs h
  exact (step_moves h).keeps (fun _ _ hmove => hmove.keeps_inv) hs

/-! ### The overflow flag (R148) -/

/-- No move but the clearing one takes `overflow` back. -/
theorem Move.keeps_overflow {s t : State} (h : Move False s t) (hs : s.overflow = true) : t.overflow = true := by
  cases h with
  | enq v => exact (enq_overflow v s).2 (.inl hs)
  | clear _ hfalse => exact hfalse.elim
  | sample raw => rw [encStep_frame]; exact hs
  | compress _ h => rw [(compressByte_frame h).1]; exact hs
  | flush =>
    obtain ⟨u, hu⟩ := flushCompressor_writes reference s
    rw [hu]
    exact hs
  | _ => exact hs

/-- Settles O15: a step that is not C's issue of `QCLEAR` or `START` has no move that clears the flag. -/
theorem overflowIsSticky : Obligations.OverflowIsSticky := by
  intro s t h hs ht
  by_contra hclears
  have hkeep : t.overflow = true := ((step_moves h).mono hclears).keeps (fun _ _ hmove => hmove.keeps_overflow) hs
  rw [ht] at hkeep
  cases hkeep

/-! ### The encodings of the queue commands (R118, R120) -/

/-- The encoding of a command decodes at its own port only. -/
theorem encodedAt_of_encode {w : Word} {i : Instr} (h : encode i = w) : encodedAt i.port w i := by
  intro port
  rw [decodeInvertsEncode port w i]
  exact ⟨fun hi => hi.2.symm, fun hport => ⟨h, hport.symm⟩⟩

/-- A byte operand stands in `imm[7:0]`, below 16 zeros. -/
theorem commandWord_zeroExtend (op : Byte) (v : Byte) : commandWord op (v.zeroExtend 24) = byteWord op v := by
  have hv : v.toNat % 2 ^ 24 = v.toNat := by omega
  apply BitVec.eq_of_toNat_eq
  simp only [commandWord, byteWord, BitVec.zeroExtend, BitVec.toNat_append, BitVec.toNat_setWidth, hv]
  change op.toNat <<< 24 ||| _ = (op.toNat <<< 16 ||| 0) <<< 8 ||| _
  rw [Nat.or_zero, ← Nat.shiftLeft_add]

/-- Settles O7: the two cases of `ENQ`. -/
theorem enqStoresOrOverflows : Obligations.EnqStoresOrOverflows :=
  fun v _ => ⟨encodedAt_of_encode (i := .enq v) (commandWord_zeroExtend 0x10 v), exec_enq_of_room, exec_enq_of_full⟩

/-- Settles O8: the two cases of `DEQ`. -/
theorem deqTakesOldestByte : Obligations.DeqTakesOldestByte :=
  fun _ => ⟨encodedAt_of_encode (i := .deq) rfl, exec_deq_of_ne, exec_deq_of_empty⟩

/-! ### The reads of the queue's state (R142 to R144) -/

/-- The two answers of a status read. -/
theorem respBool_eq (b : Bool) : respBool b = if b = true then 0x0101 else 0x0100 := by
  cases b with
  | true => exact respBool_true
  | false => exact respBool_false

/-- Settles O9: each command answers its predicate, at either port. -/
theorem queuePredicatesReadOnly : Obligations.QueuePredicatesReadOnly := by
  refine ⟨fun port => ?_, fun s => ?_⟩
  · exact ⟨(decodeInvertsEncode port _ _).2 ⟨(rfl : commandWord 0x21 0 = 0x21000000), rfl⟩,
      (decodeInvertsEncode port _ _).2 ⟨(rfl : commandWord 0x22 0 = 0x22000000), rfl⟩,
      (decodeInvertsEncode port _ _).2 ⟨(rfl : commandWord 0x23 0 = 0x23000000), rfl⟩⟩
  · have hempty := respBool_eq (isEmpty s)
    have hfull := respBool_eq (isFull reference s)
    have hovf := respBool_eq s.overflow
    simp only [isEmpty_iff] at hempty
    simp only [isFull_iff, reference_qsize] at hfull
    rw [← hempty, ← hfull, ← hovf]
    exact ⟨⟨rfl, rfl⟩, ⟨rfl, rfl⟩, ⟨rfl, rfl⟩⟩

/-! ### `QCLEAR` (R141) -/

theorem stackMaskOf_reference (cc : BitVec 4) : stackMaskOf reference cc = maskOfChannels cc.toNat := by
  revert cc
  decide

/-- Settles O10: the steps of the session-start reset, with the mask of R42. -/
theorem qclearResetsQueueAndEncoder : Obligations.QclearResetsQueueAndEncoder := by
  refine fun s => ⟨encodedAt_of_encode (i := .qclear) rfl, ?_⟩
  rw [← stackMaskOf_reference, ← respOk_eq]
  rfl

/-! ### The queue as a sequence of bytes (R140, R147) -/

/-- `ENQ` completes with one `Enq` and its answer. -/
theorem exec_enq (v : Byte) (s : State) : ∃ r, exec (.enq v) s = .next (respond .p r (enq reference v s).2) := by
  change ∃ r, runEnq reference v s = _
  unfold runEnq
  rcases enq_cases reference v s with ⟨_, e⟩ | ⟨_, e⟩ <;> rw [e]
  · exact ⟨_, rfl⟩
  · exact ⟨_, rfl⟩

/-- `DEQ` of a queue that is not empty takes its first byte and answers it. -/
theorem exec_deq_takes {s : State} (h : QueueInv reference s) {v : Byte} {vs : List Byte}
    (hq : queueBytes reference s = v :: vs) :
    ∃ t, exec .deq s = .next t ∧ queueBytes reference t = vs ∧
      t.cResponses = s.cResponses ++ [0x0100 ||| v.zeroExtend 16] := by
  have hne : s.count ≠ 0 := by
    intro h0
    have hlen := queueBytes_length reference s
    rw [hq, h0] at hlen
    cases hlen
  have htake := (deq_takes h hne).1
  rw [hq, List.cons.injEq] at htake
  obtain ⟨hv, hvs⟩ := htake
  refine ⟨_, exec_deq_of_ne hne, ?_, by rw [hv]; rfl⟩
  rcases deq_cases reference s with ⟨h0, _⟩ | ⟨_, e⟩
  · exact absurd h0 hne
  · rw [hvs, e, advance_reference]
    exact queueBytes_congr reference rfl rfl rfl

/-- Settles O11: `Enq` appends, and `Deq` takes the first byte. -/
theorem queueIsFirstInFirstOut : Obligations.QueueIsFirstInFirstOut := by
  intro s h
  refine ⟨fun v hroom => ?_, fun v hfull => ?_, fun v vs => exec_deq_takes h, fun hnil => ?_⟩
  · obtain ⟨r, e⟩ := exec_enq v s
    refine ⟨_, e, ?_⟩
    rw [← (enq_appends v h (by omega)).1]
    exact queueBytes_congr reference rfl rfl rfl
  · exact ⟨_, exec_enq_of_full hfull, queueBytes_congr reference rfl rfl rfl⟩
  · have hempty : s.count = 0 := by
      have hlen := queueBytes_length reference s
      rw [hnil] at hlen
      exact BitVec.eq_of_toNat_eq hlen.symm
    exact ⟨_, exec_deq_of_empty hempty, (queueBytes_congr reference rfl rfl rfl).trans hnil, rfl⟩

/-- The number of bytes after an `Enq`. -/
theorem enq_count (v : Byte) {s : State} (h : QueueInv reference s) :
    (enq reference v s).2.count.toNat = min (s.count.toNat + 1) 4096 := by
  have hlen := congrArg List.length (queueBytes_enq h v)
  rw [List.length_take, List.length_append, queueBytes_length, queueBytes_length, List.length_singleton,
    Nat.min_comm] at hlen
  exact hlen

/-- Bytes cut off at `n` do not come back in a longer list cut off at `n`. -/
theorem take_append_take {α : Type} (n : Nat) (l m : List α) : (l.take n ++ m).take n = (l ++ m).take n := by
  have hlen : n - (l.take n).length = n - l.length := by
    rw [List.length_take]
    omega
  rw [List.take_append, List.take_append, List.take_take, Nat.min_self, hlen]

/-- Settles O12: an induction over the string; every `Enq` keeps its byte as far as it fits. -/
theorem enqueuedStringIsKeptUpToCapacity : Obligations.EnqueuedStringIsKeptUpToCapacity := by
  intro s vs h
  have hle : s.count.toNat ≤ 4096 := h.1
  induction vs generalizing s with
  | nil =>
    refine ⟨s, rfl, h, rfl, ?_, ?_⟩
    · rw [List.append_nil, List.take_of_length_le (by rwa [queueBytes_length])]
    · rw [List.length_nil]
      exact ⟨.inl, fun ho => ho.resolve_right (by omega)⟩
  | cons v vs ih =>
    obtain ⟨r, e⟩ := exec_enq v s
    have hcount := enq_count v h
    have hq := enq_queueInv h v
    obtain ⟨t, hrun, hinv, hhead, hbytes, hovf⟩ := ih (respond .p r (enq reference v s).2) hq hq.1
    have hsame : queueBytes reference (respond .p r (enq reference v s).2) =
        queueBytes reference (enq reference v s).2 := queueBytes_congr reference rfl rfl rfl
    refine ⟨t, (runCommands_cons e).trans hrun, hinv, hhead.trans ?_, ?_, ?_⟩
    · rw [respond_head, enq_frame, State.withQueueOf_head]
    · rw [hbytes, hsame, queueBytes_enq h v, take_append_take, List.append_assoc, List.singleton_append]
    · rw [hovf, respond_overflow, enq_overflow, respond_count, hcount, List.length_cons, or_assoc]
      exact or_congr_right (by omega)

/-! ### Where the bytes of a run of `Enq`s go (R145, R82) -/

/-- `m'` holds the first `n` of the bytes at `tail` and the elements after it, modulo 4096, and else reads as `m`. -/
def Stores (tail n : Nat) (vs : List Byte) (m m' : Memory 8) : Prop :=
  (∀ k, k < n → m'.read 0 ((tail + k) % 4096) = vs.getD k 0) ∧
    ∀ a, (∀ k, k < n → a ≠ (tail + k) % 4096) → m'.read 0 a = m.read 0 a

theorem Stores.zero (tail : Nat) (vs : List Byte) (m : Memory 8) : Stores tail 0 vs m m := ⟨nofun, fun _ _ => rfl⟩

/-- One byte at `tail` and then fewer than 4096 after it: these do not come round to `tail` again. -/
theorem Stores.cons {tail n : Nat} {v : Byte} {vs : List Byte} {m m' : Memory 8}
    (h : Stores ((tail + 1) % 4096) n vs (m.write 0 tail v) m') (ht : tail < 4096) (hn : n < 4096) :
    Stores tail (n + 1) (v :: vs) m m' := by
  obtain ⟨hstored, hother⟩ := h
  constructor
  · intro k hk
    cases k with
    | zero =>
      rw [Nat.add_zero, Nat.mod_eq_of_lt ht, hother tail (fun k hk => by omega), Memory.read_write_same]
      rfl
    | succ k =>
      rw [show (tail + (k + 1)) % 4096 = ((tail + 1) % 4096 + k) % 4096 by omega, hstored k (by omega)]
      rfl
  · intro a ha
    have hne : a ≠ tail := by
      have h0 := ha 0 (by omega)
      rwa [Nat.add_zero, Nat.mod_eq_of_lt ht] at h0
    rw [hother a (fun k hk => by have hk' := ha (k + 1) (by omega); omega), Memory.read_write_other _ _ hne]

theorem enqAll_buf_of_full (vs : List Byte) {s : State} (h : s.count.toNat = 4096) :
    (enqAll reference vs s).buf = s.buf := by
  induction vs generalizing s with
  | nil => rfl
  | cons v vs ih =>
    rcases enq_cases reference v s with ⟨_, e⟩ | ⟨hroom, _⟩
    · rw [enqAll, e]
      exact ih h
    · exact absurd h hroom

/-- A run of `Enq`s stores at `tail` on, as many bytes as there is room for. -/
theorem enqAll_stores (vs : List Byte) {s : State} (h : s.count.toNat ≤ 4096) :
    Stores s.tail.toNat (min vs.length (4096 - s.count.toNat)) vs s.buf (enqAll reference vs s).buf := by
  induction vs generalizing s with
  | nil => rw [List.length_nil, Nat.zero_min]; exact Stores.zero _ _ _
  | cons v vs ih =>
    rcases enq_cases reference v s with ⟨hfull, _⟩ | ⟨hroom, e⟩
    · rw [enqAll_buf_of_full _ hfull, show 4096 - s.count.toNat = 0 by rw [hfull]; rfl, Nat.min_zero]
      exact Stores.zero _ _ _
    · rw [reference_qsize] at hroom
      have htail : (s.tail + 1).toNat = (s.tail.toNat + 1) % 4096 := by rw [BitVec.toNat_add]; rfl
      have hcount : (s.count + 1).toNat = s.count.toNat + 1 := by
        rw [BitVec.toNat_add]
        change (s.count.toNat + 1) % 8192 = _
        omega
      have hrest := ih (s := (enq reference v s).2) (by rw [e]; simp only [hcount]; omega)
      rw [e] at hrest
      simp only [advance_reference, htail, hcount] at hrest
      have hn : min (v :: vs).length (4096 - s.count.toNat) = min vs.length (4096 - (s.count.toNat + 1)) + 1 := by
        rw [List.length_cons]
        omega
      rw [hn, enqAll, e, advance_reference]
      exact hrest.cons s.tail.isLt (by omega)

/-! ### The frame of `ENQ` and `STOP` (R145, R170, R233) -/

/-- The records of one transition-only sample (spec/41_encoder.md R165, R104, R105). -/
theorem transitionSample_bytes (raw : Byte) (s : State) :
    (transitionSample reference raw s).1 = transitionBytes s.interruptCount (sampleDue raw s) raw := by
  simp only [transitionBytes, ← rolloverDue_reference]
  rcases transitionSample_cases reference raw s with ⟨hd, e⟩ | ⟨hd, e⟩ <;> rw [e, hd]
  · rfl
  · exact (List.append_nil _).symm

theorem encStep_of_transitionOnly (P : Params) (raw : Byte) {s : State} (hm : s.cfgMode = .transitionOnly) :
    encStep P raw s = transitionSample P raw (countInterrupt P s) := by
  have hm' : (countInterrupt P s).cfgMode = .transitionOnly := hm
  simp only [encStep, hm']

/-- The bytes of `FINAL`: the synthetic sample's records at the counted interrupt, in transition-only mode (R170). -/
theorem finalStep_bytes (s : State) : (finalStep reference s).1 =
    if s.cfgMode = .transitionOnly then
      transitionBytes (s.interruptCount + 1) true (if s.previousSample = 0x00 then 0xFF else 0x00)
    else [] := by
  unfold finalStep
  cases hm : s.cfgMode with
  | continuous => rfl
  | transitionOnly =>
    have hdue : sampleDue (finalSample s) (countInterrupt reference s) = true := finalSample_due s
    change (encStep reference (finalSample s) s).1 = _
    rw [encStep_of_transitionOnly reference _ hm, transitionSample_bytes, hdue, countInterrupt_reference]
    rfl

theorem runStop_of_not_active (P : Params) {s : State} (h : s.session ≠ .active) :
    runStop P s = .next (raiseError .c .refused s) := by
  unfold runStop
  rw [if_neg h]

/-- The memories after `STOP` in `Active`: its records stored at `tail`, and both tables as they were. -/
theorem runStop_memories {s : State} (h : s.count.toNat ≤ 4096) (ha : s.session = .active) :
    ∃ t, runStop reference s = .next t ∧ t.hashTable = s.hashTable ∧ t.codeTable = s.codeTable ∧
      let out := (finalStep reference { s with session := .draining }).1
      Stores s.tail.toNat (min out.length (4096 - s.count.toNat)) out s.buf t.buf := by
  obtain ⟨out, u, hf⟩ : ∃ out u, finalStep reference { s with session := .draining } = (out, u) := ⟨_, _, rfl⟩
  have hframe := finalStep_frame reference { s with session := .draining }
  refine ⟨_, runStop_active reference ha, ?_⟩
  simp only [hf] at hframe ⊢
  rw [respond_hashTable, respond_codeTable, respond_buf, hframe]
  refine ⟨?_, ?_, enqAll_stores out (s := { s with session := .draining }.withEncoderOf u) h⟩
  · rw [enqAll_frame]; rfl
  · rw [enqAll_frame]; rfl

/-- Settles O42: `ENQ` writes one element or none, and `STOP` runs its `Enq`s, or none when it is refused. -/
theorem storingCommandsWriteOnlyAtTail : Obligations.StoringCommandsWriteOnlyAtTail := by
  constructor
  · intro v s
    by_cases hfull : s.count.toNat = 4096
    · exact ⟨_, exec_enq_of_full hfull, rfl, rfl, fun h => absurd hfull h, fun a _ => rfl⟩
    · refine ⟨_, exec_enq_of_room hfull, rfl, rfl, fun _ => Memory.read_write_same _ _ _, fun a ha => ?_⟩
      exact Memory.read_write_other _ _ (ha.resolve_left hfull)
  · intro s h
    by_cases ha : s.session = .active
    · obtain ⟨t, hexec, hhash, hcode, hstores⟩ := runStop_memories h.1 ha
      rw [finalStep_bytes] at hstores
      refine ⟨t, hexec, hhash, hcode, ?_⟩
      simp only [ha, true_and]
      exact hstores
    · refine ⟨_, runStop_of_not_active reference ha, rfl, rfl, ?_⟩
      simp only [ha, false_and, if_false, List.length_nil, Nat.zero_min]
      exact Stores.zero _ _ _

end Sys2Proof.Machine

/-! Scope: the family of spec/41_encoder.md. A composite P command is its encoder step and a run of `Enq`s. The first
half says what one encoder step produces and leaves, in each mode; the second runs the producer to the end of its command
and reads the queue off the law for strings of `ENQ`s. -/

namespace Sys2Proof.Machine

open Sys2Proof.Claims

/-! ### The two composite commands (R166, R170) -/

theorem beginEnqueues_eq_withProduced (out : List Byte) (s : State) : beginEnqueues out s = withProduced out s := by
  unfold withProduced
  rcases beginEnqueues_cases out s with ⟨hnil, e⟩ | ⟨hne, e⟩ <;> rw [e]
  · rw [if_pos hnil, respOk_eq, respond_p_eq]
  · rw [if_neg hne]

theorem exec_push_of_encStep {s u : State} {raw : Byte} {out : List Byte} (h : encStep reference raw s = (out, u)) :
    exec (.push raw) s = .next (withProduced out u) := by
  rw [← beginEnqueues_eq_withProduced]
  simp only [exec, execPush, runPush, h]

theorem exec_final_of_finalStep {s u : State} {out : List Byte} (h : finalStep reference s = (out, u)) :
    exec .final s = .next (withProduced out u) := by
  rw [← beginEnqueues_eq_withProduced]
  simp only [exec, execFinal, runFinal, h]

/-! ### The encoder step in continuous mode (R163, R164) -/

theorem encStep_of_narrow (raw : Byte) {s : State} (hm : s.cfgMode = .continuous) (hc : s.cfgChannelCount.toNat ≤ 4) :
    encStep reference raw s = stackSample raw { s with interruptCount := s.interruptCount + 1 } := by
  simp [encStep, hm, hc]

theorem encStep_of_wide (raw : Byte) {s : State} (hm : s.cfgMode = .continuous) (hc : 4 < s.cfgChannelCount.toNat) :
    encStep reference raw s = ([raw], { s with interruptCount := s.interruptCount + 1 }) := by
  simp [encStep, hm, Nat.not_le.2 hc]

/-- Settles O16: the counted state is stacked, with and without a full byte. -/
theorem pushStacksNarrowSamples : Obligations.PushStacksNarrowSamples := by
  intro raw s hm hc
  have henc := encStep_of_narrow raw hm hc
  rcases stackSample_cases raw { s with interruptCount := s.interruptCount + 1 } with ⟨hfull, e⟩ | ⟨hroom, e⟩
  · exact (exec_push_of_encStep (henc.trans e)).trans (congrArg _ (if_pos hfull).symm)
  · exact (exec_push_of_encStep (henc.trans e)).trans (congrArg _ (if_neg (Nat.not_le.2 (Nat.lt_succ_of_le hroom))).symm)

/-- Settles O17: the raw byte is what the encoder step produces. -/
theorem pushPassesWideSamples : Obligations.PushPassesWideSamples :=
  fun raw _ hm hc => exec_push_of_encStep (encStep_of_wide raw hm hc)

/-! ### The encoder step in transition-only mode (R165, R170) -/

theorem transitionSample_countInterrupt (raw : Byte) (s : State) :
    (transitionSample reference raw (countInterrupt reference s)).2 = transitionEffect raw s := by
  have hdue : sampleDue raw (countInterrupt reference s) = true ↔ s.firstSample = true ∨ raw ≠ s.previousSample := by
    simp [sampleDue]
  unfold transitionEffect
  rcases transitionSample_cases reference raw (countInterrupt reference s) with ⟨hd, e⟩ | ⟨hd, e⟩ <;> rw [e]
  · rw [if_pos (hdue.1 hd), countInterrupt_reference]
  · have hsuppressed := mt hdue.2 (by rw [hd]; decide)
    rw [if_neg hsuppressed, countInterrupt_reference]

/-- The records at the counted interrupt, and the effect on the encoder. -/
theorem encStep_transitionOnly_eq (raw : Byte) {s : State} (hm : s.cfgMode = .transitionOnly) :
    encStep reference raw s =
      (transitionBytes (s.interruptCount + 1) (s.firstSample || raw != s.previousSample) raw,
        transitionEffect raw s) := by
  rw [encStep_of_transitionOnly reference raw hm]
  refine Prod.ext ?_ (transitionSample_countInterrupt raw s)
  rw [transitionSample_bytes, countInterrupt_reference]
  rfl

/-- Settles O18: the encoder step in transition-only mode. -/
theorem pushRecordsTransitions : Obligations.PushRecordsTransitions :=
  fun raw _ hm => exec_push_of_encStep (encStep_transitionOnly_eq raw hm)

theorem finalStep_of_continuous (P : Params) {s : State} (hm : s.cfgMode = .continuous) : finalStep P s = ([], s) := by
  simp only [finalStep, hm]

theorem finalStep_of_transitionOnly (P : Params) {s : State} (hm : s.cfgMode = .transitionOnly) :
    finalStep P s = encStep P (finalSample s) s := by
  simp only [finalStep, hm]

/-- A recorded sample leaves bytes to enqueue. -/
theorem transitionBytes_recorded_ne_nil (ic : BitVec 32) (raw : Byte) : transitionBytes ic true raw ≠ [] := by
  simp [transitionBytes]

/-- Settles O19: nothing in continuous mode; else the encoder step of a sample that is always recorded. -/
theorem finalInjectsSyntheticSample : Obligations.FinalInjectsSyntheticSample := by
  refine fun s => ⟨fun hm => exec_final_of_finalStep (finalStep_of_continuous reference hm), fun hm => ?_⟩
  have hdue : (s.firstSample || finalSample s != s.previousSample) = true := finalSample_due s
  have heffect : s.firstSample = true ∨ finalSample s ≠ s.previousSample := by simpa using hdue
  have hfinal := exec_final_of_finalStep
    ((finalStep_of_transitionOnly reference hm).trans (encStep_transitionOnly_eq (finalSample s) hm))
  rw [hdue, withProduced, if_neg (transitionBytes_recorded_ne_nil _ _), transitionEffect, if_pos heffect] at hfinal
  exact hfinal

/-! ### The number of bytes of a `PUSH` (R172) -/

theorem withProduced_pPending (out : List Byte) {s : State} (h : s.pPending = []) :
    (withProduced out s).pPending = out := by
  unfold withProduced
  split
  · exact h.trans (Eq.symm ‹_›)
  · rfl

/-- With no P command in progress, the bytes that wait after `PUSH` are those of its encoder step. -/
theorem exec_push_pPending {raw : Byte} {s t : State} (hp : s.pPending = []) (h : exec (.push raw) s = .next t) :
    t.pPending = (encStep reference raw s).1 := by
  have hframe : (encStep reference raw s).2.pPending = [] := by
    rw [encStep_frame, State.withEncoderOf_pPending, hp]
  rw [exec_push_of_encStep (u := (encStep reference raw s).2) rfl] at h
  cases h
  exact withProduced_pPending _ hframe

theorem stackSample_length (raw : Byte) {s : State} (hf : s.stackFill.toNat ≤ 7) (hc : s.cfgChannelCount.toNat ≤ 4) :
    (stackSample raw s).1.length = if s.stackFill.toNat + s.cfgChannelCount.toNat < 8 then 0 else 1 := by
  have hsum : (s.stackFill + s.cfgChannelCount).toNat = s.stackFill.toNat + s.cfgChannelCount.toNat := by
    rw [BitVec.toNat_add]
    omega
  rcases stackSample_cases raw s with ⟨hfull, e⟩ | ⟨hroom, e⟩ <;> rw [e]
  · rw [if_neg (by omega), List.length_singleton]
  · rw [if_pos (by omega), List.length_nil]

/-- Each of the two records has 4 bytes. -/
theorem transitionBytes_length (ic : BitVec 32) (recorded : Bool) (raw : Byte) :
    (transitionBytes ic recorded raw).length =
      (if ic.toNat % 65536 = 0 then 4 else 0) + if recorded = true then 4 else 0 := by
  have hrollover : ic.extractLsb' 0 16 = 0 ↔ ic.toNat % 65536 = 0 := by simp [← BitVec.toNat_inj]
  simp only [transitionBytes, hrollover, List.length_append, apply_ite List.length, List.length_cons, List.length_nil]

/-- Settles O21: the bytes of the encoder step, counted in each mode. -/
theorem bytesProducedPerPush : Obligations.BytesProducedPerPush := by
  intro raw s t hp hf h
  rw [exec_push_pPending hp h]
  cases hm : s.cfgMode with
  | continuous =>
    simp only
    split
    · rename_i hc
      rw [encStep_of_narrow raw hm hc]
      exact stackSample_length raw hf hc
    · rename_i hc
      rw [encStep_of_wide raw hm (Nat.not_le.1 hc), List.length_singleton]
  | transitionOnly =>
    have hcounted : (s.interruptCount + 1).toNat % 65536 = (s.interruptCount.toNat + 1) % 65536 := by
      rw [BitVec.toNat_add]
      exact Nat.mod_mod_of_dvd _ (by decide)
    rw [encStep_transitionOnly_eq raw hm, transitionBytes_length, hcounted]
    simp only [Bool.or_eq_true, bne_iff_ne]

/-! ### A P command in progress, run to its end (R166, R167, R81) -/

/-- A run of `Enq`s does the same on any two states with the same queue. -/
theorem enqAll_of_queue_eq (vs : List Byte) {s t : State} (h : t = t.withQueueOf s) :
    enqAll reference vs t = t.withQueueOf (enqAll reference vs s) := by
  calc enqAll reference vs t
    _ = enqAll reference vs (t.withQueueOf s) := by rw [← h]
    _ = t.withQueueOf (enqAll reference vs s) := enqAll_withQueueOf reference vs s t

/-- The producer's step with bytes to enqueue: one `Enq`, and `Ok` after the last byte. -/
theorem step_of_pPending_frame {s : State} {v : Byte} {vs : List Byte} {rest : List Port} (ht : s.turns = .p :: rest)
    (hp : s.pPending = v :: vs) : step s = .next { s.withQueueOf (enq reference v s).2 with
      turns := rest
      pPending := vs
      pResponses := if vs = [] then s.pResponses ++ [0x0000] else s.pResponses } := by
  have hturns : (enq reference v { s with turns := rest }).2 =
      { s with turns := rest }.withQueueOf (enq reference v s).2 :=
    enq_withQueueOf reference v s { s with turns := rest }
  rw [step_of_pPending ht hp, continueProducer_frame, hturns, respOk_eq]
  rfl

theorem run_succ {s t : State} (n : Nat) (h : step s = .next t) :
    Host.Core.run core (n + 1) s = Host.Core.run core n t := by
  have hcore : core.step s = .next t := h
  simp only [Host.Core.run, hcore]

/-- The steps of a P command in progress, with no step of C in between, are a run of `Enq`s and then `Ok`. -/
theorem run_of_pPending {vs : List Byte} {rest : List Port} : ∀ {s : State} {v : Byte}, s.pPending = v :: vs →
    s.turns = List.replicate (v :: vs).length .p ++ rest →
    Host.Core.run core (v :: vs).length s = .next { s.withQueueOf (enqAll reference (v :: vs) s) with
      turns := rest
      pPending := []
      pResponses := s.pResponses ++ [0x0000] } := by
  induction vs with
  | nil => exact fun hp ht => run_succ 0 (step_of_pPending_frame ht hp)
  | cons w ws ih =>
    intro s v hp ht
    refine (run_succ (w :: ws).length (step_of_pPending_frame ht hp)).trans ((ih rfl rfl).trans ?_)
    rw [enqAll_of_queue_eq (w :: ws) (s := (enq reference v s).2)]
    · rfl
    · rfl

/-- `ENQ` of each byte of a string has the same effect on the queue as the run of `Enq`s. -/
theorem runCommands_enq_queue {vs : List Byte} {s t : State} (h : runCommands (vs.map .enq) s = .next t) :
    t = t.withQueueOf (enqAll reference vs s) := by
  induction vs generalizing s with
  | nil =>
    cases h
    rfl
  | cons v vs ih =>
    obtain ⟨r, e⟩ := exec_enq v s
    have hrest : runCommands (vs.map .enq) (respond .p r (enq reference v s).2) = .next t :=
      (runCommands_cons e).symm.trans h
    rw [ih hrest, enqAll_of_queue_eq vs (s := (enq reference v s).2) rfl]
    rfl

/-- A run of `Enq`s keeps what fits and sets `overflow` exactly if not all of it does (R147, R149). -/
theorem enqAll_keeps_up_to_capacity (vs : List Byte) {s : State} (h : QueueInv reference s) :
    queueBytes reference (enqAll reference vs s) = (queueBytes reference s ++ vs).take 4096 ∧
    ((enqAll reference vs s).overflow = true ↔ s.overflow = true ∨ 4096 < s.count.toNat + vs.length) := by
  obtain ⟨t, hrun, -, hhead, hbytes, hovf⟩ := enqueuedStringIsKeptUpToCapacity s vs h
  have hqueue := runCommands_enq_queue hrun
  rw [← hbytes, ← hovf, hqueue]
  refine ⟨queueBytes_congr reference rfl ?_ rfl, Iff.rfl⟩
  rw [enqAll_frame, State.withQueueOf_head, State.withQueueOf_head, hhead]

/-- Settles O20: the run of `Enq`s, and the law of the queue for a string. -/
theorem producerFinishesItsCommand : Obligations.ProducerFinishesItsCommand := by
  intro s rest hne ht h
  obtain ⟨v, vs, hp⟩ := List.exists_cons_of_ne_nil hne
  rw [hp] at ht ⊢
  obtain ⟨hbytes, hovf⟩ := enqAll_keeps_up_to_capacity (v :: vs) h
  refine ⟨_, run_of_pPending hp ht, rfl, rfl, rfl, ?_, hovf, rfl, rfl, rfl, rfl, rfl, rfl, rfl, rfl⟩
  rw [← hbytes, enqAll_frame]
  exact queueBytes_congr reference rfl rfl rfl

end Sys2Proof.Machine

/-! Scope: the family of spec/42_compressor.md. The probe of R195 visits `HASH_SIZE` distinct slots, because `HASH_SIZE`
is prime, and the table holds fewer phrases than that, so the lookup never exhausts it: it hits on the phrases of the
table and misses on the others. The stream is then followed by the abstract coder of R199, whose dictionary is what the
lookup answers, and the abstract coder by the decoder of R202, which is one phrase behind it. -/

namespace Sys2Proof.Machine

open Sys2Proof.Claims

/-! ### Keys and hash indices under R8 (R194) -/

theorem phraseKey_eq_append (c : Code) (b : Byte) : phraseKey c b = c ++ (0 : BitVec 8) ++ b := by
  have hb := b.isLt
  apply BitVec.eq_of_toNat_eq
  rw [phraseKey_toNat, BitVec.toNat_append, BitVec.toNat_append, ← Nat.shiftLeft_add_eq_or_of_lt hb]
  change _ = (c.toNat <<< 8 ||| 0) <<< 8 + _
  rw [Nat.or_zero, Nat.shiftLeft_eq, Nat.shiftLeft_eq]
  omega

theorem phraseKey_injective {c c' : Code} {b b' : Byte} (h : phraseKey c b = phraseKey c' b') : c = c' ∧ b = b' := by
  constructor
  · rw [← keyCode_phraseKey c b, h, keyCode_phraseKey]
  · rw [← keyByte_phraseKey c b, h, keyByte_phraseKey]

/-- Settles O36: a key gives back its code and its byte, and its bits 15:8 are 0. -/
theorem keysAreInjectiveAndNeverEmpty : Obligations.KeysAreInjectiveAndNeverEmpty :=
  fun c _ b _ => ⟨phraseKey_injective, phraseKey_ne_empty c b, phraseKey_eq_append c b⟩

/-- The constraints of R8, one by one. -/
theorem meetsR8_iff (P : Params) : P.meetsR8 = true ↔
    P.widthOk = true ∧ P.reservedOk = true ∧ P.tableOk = true ∧ P.indexOk = true ∧ P.emptyOk = true := by
  simp only [Params.meetsR8, Bool.and_eq_true, and_assoc]

section
variable {P : Params} (hP : P.meetsR8 = true)
include hP

theorem hashSize_prime : P.hashSize.Prime := by
  obtain ⟨_, _, htable, _, _⟩ := (meetsR8_iff P).1 hP
  rw [Params.tableOk, Bool.and_eq_true] at htable
  exact isPrime_sound htable.1

/-- R8 (c): the table is larger than the largest dictionary. -/
theorem dictionary_lt_hashSize : P.maxCode - P.firstFree < P.hashSize := by
  obtain ⟨_, _, htable, _, _⟩ := (meetsR8_iff P).1 hP
  rw [Params.tableOk, Bool.and_eq_true, decide_eq_true_eq] at htable
  exact htable.2

/-- R8 (d): the hash index of a code of `NBITS` bits is a slot of the table. -/
theorem phraseHash_lt {code : Code} (b : Byte) (hcode : code.toNat < 2 ^ P.nbits) :
    phraseHash P code b < P.hashSize := by
  obtain ⟨_, _, _, hindex, _⟩ := (meetsR8_iff P).1 hP
  refine lt_of_lt_of_le ?_ (of_decide_eq_true hindex)
  have hshift : (b.zeroExtend 16 <<< P.hshift).toNat < 2 ^ (8 + P.hshift) := by
    rw [BitVec.toNat_shiftLeft, Nat.shiftLeft_eq, pow_add]
    refine lt_of_le_of_lt (Nat.mod_le _ _) (Nat.mul_lt_mul_of_pos_right ?_ (by positivity))
    rw [BitVec.zeroExtend, BitVec.toNat_setWidth]
    exact lt_of_le_of_lt (Nat.mod_le _ _) b.isLt
  rw [phraseHash, BitVec.toNat_xor]
  exact Nat.xor_lt_two_pow (lt_of_lt_of_le hshift (Nat.pow_le_pow_right (by omega) (Nat.le_max_left _ _)))
    (lt_of_lt_of_le hcode (Nat.pow_le_pow_right (by omega) (Nat.le_max_right _ _)))

/-- R8 (e): the key of a code of `NBITS` bits is not `EMPTY`, which has a 1 in bits 15:8 or in bit 31. -/
theorem phraseKey_ne_params_empty {code : Code} (b : Byte) (hcode : code.toNat < 2 ^ P.nbits) :
    phraseKey code b ≠ P.empty := by
  obtain ⟨hwidth, _, _, _, hempty⟩ := (meetsR8_iff P).1 hP
  rw [Params.widthOk, Bool.and_eq_true, decide_eq_true_eq, decide_eq_true_eq] at hwidth
  have hsmall : code.toNat < 2 ^ 15 := lt_of_lt_of_le hcode (Nat.pow_le_pow_right (by omega) hwidth.2)
  have hb := b.isLt
  intro h
  have hmiddle : P.empty.extractLsb' 8 8 = 0 := by
    rw [← h]
    apply BitVec.eq_of_toNat_eq
    rw [BitVec.extractLsb'_toNat, phraseKey_toNat, Nat.shiftRight_eq_div_pow]
    change _ = 0
    omega
  have htop : P.empty.getLsbD 31 = false := by
    rw [← h, BitVec.getLsbD, phraseKey_toNat, Nat.testBit_lt_two_pow]
    omega
  rw [Params.emptyOk, hmiddle, htop] at hempty
  exact absurd hempty (by decide)

end

/-! ### The probe visits every slot (R195, R204) -/

section
variable {P : Params} {s : State} {key : Key} {d index : Nat}

/-- The slot that the probe looks at after `n` steps back. -/
def probeSlot (P : Params) (index d n : Nat) : Nat := (fun x => probeBack P x d)^[n] index

theorem probeSlot_succ (n : Nat) : probeSlot P index d (n + 1) = probeSlot P (probeBack P index d) d n := rfl

theorem probeSlot_lt (hi : index < P.hashSize) (n : Nat) : probeSlot P index d n < P.hashSize := by
  induction n generalizing index with
  | zero => exact hi
  | succ n ih => exact ih (Nat.mod_lt _ (by omega))

/-- Modulo `HASH_SIZE` the probe goes back by `d` at each step. -/
theorem probeSlot_cast (hd : d ≤ P.hashSize) (n : Nat) :
    (probeSlot P index d n : ZMod P.hashSize) = index - n * d := by
  induction n generalizing index with
  | zero => simp [probeSlot]
  | succ n ih =>
    rw [probeSlot_succ, ih, probeBack, ZMod.natCast_mod, Nat.cast_sub (by omega)]
    push_cast
    rw [ZMod.natCast_self]
    ring

/-- The first `HASH_SIZE` slots of a probe are distinct: `d` is no multiple of the prime `HASH_SIZE`. -/
theorem probeSlot_injOn (hprime : P.hashSize.Prime) (hd0 : 0 < d) (hd : d < P.hashSize) :
    Set.InjOn (probeSlot P index d) (Finset.range P.hashSize) := by
  intro m hm n hn h
  have : Fact P.hashSize.Prime := ⟨hprime⟩
  have hne : (d : ZMod P.hashSize) ≠ 0 := by
    rw [Ne, ZMod.natCast_eq_zero_iff]
    exact Nat.not_dvd_of_pos_of_lt hd0 hd
  have hcast := congrArg (Nat.cast : Nat → ZMod P.hashSize) h
  rw [probeSlot_cast hd.le, probeSlot_cast hd.le, sub_right_inj, mul_left_inj' hne, ZMod.natCast_eq_natCast_iff'] at hcast
  rwa [Nat.mod_eq_of_lt (by simpa using hm), Nat.mod_eq_of_lt (by simpa using hn)] at hcast

theorem probeStride_range (hi : index < P.hashSize) (h2 : 2 ≤ P.hashSize) :
    0 < probeStride P index ∧ probeStride P index < P.hashSize := by
  unfold probeStride
  split <;> omega

/-- A slot without an answer is occupied. -/
theorem read_ne_of_checkSlot_none (h : checkSlot P s key index = none) : s.hashTable.read P.empty index ≠ P.empty := by
  rcases checkSlot_cases P s key index with ⟨_, e⟩ | ⟨_, _, e⟩ | ⟨_, hne, _⟩
  · rw [h] at e; cases e
  · rw [h] at e; cases e
  · exact hne

/-- An exhausted probe has looked at occupied slots only. -/
theorem occupied_of_probe_exhausted {fuel : Nat} (h : probe P s key d fuel index = .fault .probeExhausted) {n : Nat}
    (hn : n < fuel) : s.hashTable.read P.empty (probeSlot P index d (n + 1)) ≠ P.empty := by
  induction fuel generalizing index n with
  | zero => omega
  | succ fuel ih =>
    unfold probe at h
    split at h
    · rename_i r hr
      rcases checkSlot_cases P s key (probeBack P index d) with ⟨_, e⟩ | ⟨_, _, e⟩ | ⟨_, _, e⟩ <;> rw [e] at hr <;>
        cases hr <;> cases h
    · rename_i hnone
      cases n with
      | zero => exact read_ne_of_checkSlot_none hnone
      | succ n => exact ih h (by omega)

/-- Distinct occupied slots are at most as many as the entries of the table. -/
theorem card_occupied_le {slots : Finset Nat} (h : ∀ x ∈ slots, s.hashTable.read P.empty x ≠ P.empty) :
    slots.card ≤ s.hashTable.length := by
  have hsub : slots ⊆ (s.hashTable.map Prod.fst).toFinset := fun x hx =>
    List.mem_toFinset.2 (List.mem_map.2 ⟨_, Memory.mem_of_read_ne (h x hx), rfl⟩)
  calc slots.card
    _ ≤ (s.hashTable.map Prod.fst).toFinset.card := Finset.card_le_card hsub
    _ ≤ (s.hashTable.map Prod.fst).length := List.toFinset_card_le _
    _ = s.hashTable.length := List.length_map _

/-- A probe from an occupied slot of a table that is not full ends at a hit or at an empty slot. -/
theorem probe_not_exhausted (hprime : P.hashSize.Prime) (hi : index < P.hashSize)
    (hroom : s.hashTable.length < P.hashSize) (hfirst : s.hashTable.read P.empty index ≠ P.empty) :
    probe P s key (probeStride P index) (P.hashSize - 1) index ≠ .fault .probeExhausted := by
  intro h
  obtain ⟨hd0, hd⟩ := probeStride_range hi hprime.two_le
  have hocc : ∀ x ∈ (Finset.range P.hashSize).image (probeSlot P index (probeStride P index)),
      s.hashTable.read P.empty x ≠ P.empty := by
    intro x hx
    obtain ⟨n, hn, rfl⟩ := Finset.mem_image.1 hx
    rw [Finset.mem_range] at hn
    cases n with
    | zero => exact hfirst
    | succ n => exact occupied_of_probe_exhausted h (by omega)
  have hcard := card_occupied_le hocc
  rw [Finset.card_image_of_injOn (probeSlot_injOn hprime hd0 hd), Finset.card_range] at hcard
  omega

end

/-! ### The lookup is the dictionary's (R195, R199) -/

section
variable {P : Params} {s : State} {code : Code} {b : Byte}

/-- A lookup whose hash index is a slot, in a table that is not full, does not fault. -/
theorem lookup_ne_fault (hprime : P.hashSize.Prime) (hi : phraseHash P code b < P.hashSize)
    (hroom : s.hashTable.length < P.hashSize) (f : Fault) : lookup P s code b ≠ .fault f := by
  unfold lookup
  rw [if_neg (by omega)]
  split
  · rename_i r hr
    rcases checkSlot_sound hi hr with ⟨_, rfl, _⟩ | ⟨_, rfl, _⟩ <;> nofun
  · rename_i hnone
    have hne := probe_not_exhausted (key := phraseKey code b) hprime hi hroom (read_ne_of_checkSlot_none hnone)
    rcases probe_cases P s (phraseKey code b) (probeStride P (phraseHash P code b)) (by omega) (P.hashSize - 1)
      (phraseHash P code b) with ⟨_, e, _⟩ | ⟨_, e, _⟩ | e
    · rw [e]; nofun
    · rw [e]; nofun
    · exact absurd e hne

/-- A phrase whose key no entry holds is missed at an empty slot. -/
theorem lookup_misses (hP : P.meetsR8 = true) (hcode : code.toNat < 2 ^ P.nbits)
    (hroom : s.hashTable.length < P.hashSize) (hnew : phraseKey code b ∉ s.hashTable.map Prod.snd) :
    ∃ slot, MissAt P s slot ∧ lookup P s code b = .miss slot := by
  rcases lookup_cases P s code b with ⟨_, _, slot, _, hread, _⟩ | ⟨slot, e, hs⟩ | ⟨f, e⟩
  · have hlisted : (slot, s.hashTable.read P.empty slot) ∈ s.hashTable :=
      Memory.mem_of_read_ne (by rw [hread]; exact phraseKey_ne_params_empty hP b hcode)
    exact absurd (hread ▸ List.mem_map_of_mem (f := Prod.snd) hlisted) hnew
  · exact ⟨slot, hs, e⟩
  · exact absurd e (lookup_ne_fault (hashSize_prime hP) (phraseHash_lt hP b hcode) hroom f)

/-- A phrase of the table is found with its code: its entry is reached by the lookup of its key (R200 (e)). -/
theorem lookup_hit_of_tableFind (hreach : ReachInv P s) {c : Code} (h : tableFind s code b = some c) :
    lookup P s code b = .hit c := by
  obtain ⟨e, hfind, rfl⟩ := Option.map_eq_some_iff.1 h
  have hkey : e.2 = phraseKey code b := by simpa using List.find?_some hfind
  have hhit := hreach e (List.mem_of_find?_eq_some hfind)
  rwa [hkey, keyCode_phraseKey, keyByte_phraseKey] at hhit

theorem not_mem_keys_of_tableFind (h : tableFind s code b = none) : phraseKey code b ∉ s.hashTable.map Prod.snd := by
  rw [tableFind, Option.map_eq_none_iff, List.find?_eq_none] at h
  intro hmem
  obtain ⟨e, he, hkey⟩ := List.mem_map.1 hmem
  exact h e he (beq_iff_eq.2 hkey)

/-- R200 (a), (b) with R8 (c): the table is never full. -/
theorem hashTable_length_lt (hP : P.meetsR8 = true) (h : FreeEntryInv P s) : s.hashTable.length < P.hashSize := by
  obtain ⟨_, hhi, hlen⟩ := h
  have := dictionary_lt_hashSize hP
  omega

/-- A phrase that is not in the table is missed at an empty slot. -/
theorem lookup_miss_of_tableFind (hP : P.meetsR8 = true) (hfree : FreeEntryInv P s) (hcode : code.toNat < 2 ^ P.nbits)
    (h : tableFind s code b = none) : ∃ slot, MissAt P s slot ∧ lookup P s code b = .miss slot :=
  lookup_misses hP hcode (hashTable_length_lt hP hfree) (not_mem_keys_of_tableFind h)

end

/-- Settles O32: the lookup hits on the table's phrases, and the probe of any other ends at an empty slot. -/
theorem lookupFindsExactlyLearnedPhrases : Obligations.LookupFindsExactlyLearnedPhrases := by
  intro P s code b hP hready hinv _ hcode
  obtain ⟨hdict, _, _⟩ := (compressorInv_iff P s).1 hinv hready
  refine ⟨fun _ => lookup_hit_of_tableFind hdict.reach, fun hnone => ?_⟩
  obtain ⟨slot, ⟨hslot, hempty⟩, hmiss⟩ := lookup_miss_of_tableFind hP hdict.freeEntry hcode hnone
  exact ⟨slot, hslot, hempty, hmiss⟩

/-! ### The three commands on an initialised compressor -/

theorem exec_cinit (s : State) : exec .cinit s = .next (respond .c respOk (initCompressor reference s)) := by
  change runCinit reference s = _
  rw [runCinit, if_pos reference_cmpInitOk]

section
variable {s t : State} {b : Byte}

theorem exec_cbyte_of_next (hr : s.cmpReady = true) (h : compressByte reference b s = .next t) :
    exec (.cbyte b) s = .next (respond .c respOk t) := by
  change runCbyte reference b s = _
  rw [runCbyte, if_pos hr, h]
  rfl

theorem exec_cflush_of_ready (hr : s.cmpReady = true) :
    exec .cflush s = .next (respond .c respOk (flushCompressor reference s)) := by
  change runCflush reference s = _
  rw [runCflush, if_pos hr]

theorem compressByte_of_first (P : Params) (b : Byte) (h : s.firstByte = true) :
    compressByte P b s = .next { s with currentPhraseCode := literalCode b, firstByte := false } := by
  simp [compressByte, h]

theorem compressByte_of_hit {P : Params} (hfirst : s.firstByte = false) {c : Code}
    (h : lookup P s s.currentPhraseCode b = .hit c) :
    compressByte P b s = .next { s with currentPhraseCode := c } := by
  simp [compressByte, hfirst, h]

theorem compressByte_of_miss {P : Params} (hfirst : s.firstByte = false) {slot : Nat}
    (h : lookup P s s.currentPhraseCode b = .miss slot) : compressByte P b s = .next (missPhrase P b slot s) := by
  simp [compressByte, hfirst, h]

/-- `CBYTE` of an initialised compressor has run the steps of R196. -/
theorem compressByte_of_exec_cbyte (hr : s.cmpReady = true) (h : exec (.cbyte b) s = .next t) :
    ∃ u, compressByte reference b s = .next u ∧ t = respond .c respOk u := by
  change runCbyte reference b s = .next t at h
  rw [runCbyte, if_pos hr] at h
  obtain ⟨u, hu, e⟩ := andThen_eq_next h
  exact ⟨u, hu, (Host.Outcome.next.inj e).symm⟩

end

/-- Settles O23: the steps of `CINIT`, and its failure for parameters that break R8. -/
theorem cinitResetsCompressor : Obligations.CinitResetsCompressor := by
  refine ⟨encodedAt_of_encode (i := .cinit) rfl, fun s => ?_, fun P s hP => ?_⟩
  · rw [exec_cinit, respOk_eq]
    rfl
  · have hfails : ¬ P.cmpInitOk = true := by rw [Params.cmpInitOk, hP]; decide
    rw [runCinit, if_neg hfails, raiseError_eq, respError_compressorInitFailure]
    rfl

/-- Settles O24: `CINIT` leaves no entry in `hash_table`, and `code_table` as it was. -/
theorem cinitEmptiesEverySlot : Obligations.CinitEmptiesEverySlot :=
  fun s => ⟨_, exec_cinit s, fun slot => ⟨Memory.read_nil slot, rfl⟩⟩

/-- Settles O27: the first byte of a stream becomes the pending code. -/
theorem cbyteRemembersFirstByte : Obligations.CbyteRemembersFirstByte := by
  intro s b hr hfirst
  rw [exec_cbyte_of_next hr (compressByte_of_first reference b hfirst), respOk_eq]
  rfl

/-! ### A byte under the invariants (R196, R200, R204) -/

/-- R200 (g): the pending code is below 2^`NBITS`. -/
theorem currentPhraseCode_lt {s : State} (hd : DictionaryInv reference s) (hp : PhraseInv reference s)
    (hfirst : s.firstByte = false) : s.currentPhraseCode.toNat < 2 ^ reference.nbits := by
  have hcur := hp hfirst
  obtain ⟨_, hhi, _⟩ := hd.freeEntry
  rw [reference_maxCode] at hhi
  change _ < 8192
  omega

section
variable {s : State} (hinv : CompressorInv reference s) (hr : s.cmpReady = true) (hfirst : s.firstByte = false)
include hinv hr

/-- The lookup of the pending code finds the phrases of the table. -/
theorem lookup_pending_hit {b : Byte} {c : Code} (h : tableFind s s.currentPhraseCode b = some c) :
    lookup reference s s.currentPhraseCode b = .hit c := by
  obtain ⟨hd, _, _⟩ := (compressorInv_iff _ s).1 hinv hr
  exact lookup_hit_of_tableFind hd.reach h

include hfirst

/-- The lookup of the pending code misses the phrases that are not in the table. -/
theorem lookup_pending_miss {b : Byte} (h : tableFind s s.currentPhraseCode b = none) :
    ∃ slot, MissAt reference s slot ∧ lookup reference s s.currentPhraseCode b = .miss slot := by
  obtain ⟨hd, _, hp⟩ := (compressorInv_iff _ s).1 hinv hr
  exact lookup_miss_of_tableFind reference_cmpInitOk hd.freeEntry (currentPhraseCode_lt hd hp hfirst) h

end

/-- The steps of `CBYTE` complete: the probe is never exhausted (R204). -/
theorem compressByte_completes {s : State} (b : Byte) (hinv : CompressorInv reference s) (hr : s.cmpReady = true) :
    ∃ t, compressByte reference b s = .next t := by
  cases hfirst : s.firstByte with
  | true => exact ⟨_, compressByte_of_first reference b hfirst⟩
  | false =>
    cases hfind : tableFind s s.currentPhraseCode b with
    | some c => exact ⟨_, compressByte_of_hit hfirst (lookup_pending_hit hinv hr hfind)⟩
    | none =>
      obtain ⟨slot, _, hmiss⟩ := lookup_pending_miss hinv hr hfirst hfind
      exact ⟨_, compressByte_of_miss hfirst hmiss⟩

/-- Settles O28: the lookup of a phrase of the table is a hit. -/
theorem cbyteExtendsKnownPhrase : Obligations.CbyteExtendsKnownPhrase := by
  intro s b c hinv _ hr hfirst hfind
  rw [exec_cbyte_of_next hr (compressByte_of_hit hfirst (lookup_pending_hit hinv hr hfind)), respOk_eq]
  rfl

@[simp] theorem putCode_cResponses (P : Params) (c : Code) (s : State) :
    (putCode P c s).cResponses = s.cResponses := by
  rw [putCode_frame, State.withPackerOf_cResponses]

/-- The packer does not read the pending code. -/
theorem putCode_setPhraseCode (P : Params) (c x : Code) (s : State) :
    putCode P c { s with currentPhraseCode := x } = { putCode P c s with currentPhraseCode := x } := by
  refine (putCode_withPackerOf P c s { s with currentPhraseCode := x }).trans ?_
  rw [putCode_frame P c s]
  rfl

/-- A miss with a free code learns the phrase at the slot (R196). -/
theorem missPhrase_of_room (b : Byte) (slot : Nat) {s : State} (h : s.freeEntry.toNat < 8191) :
    missPhrase reference b slot s = { putCode reference s.currentPhraseCode s with
      currentPhraseCode := literalCode b
      hashTable := s.hashTable.write reference.empty slot (phraseKey s.currentPhraseCode b)
      codeTable := s.codeTable.write codeUnlisted slot s.freeEntry
      freeEntry := s.freeEntry + 1 } := by
  rcases missPhrase_cases reference b slot s with ⟨_, e⟩ | ⟨hfull, _⟩
  · rw [e]
    simp only [learnPhrase, restartPhrase, putCode_hashTable, putCode_codeTable, putCode_freeEntry]
  · rw [reference_maxCode] at hfull
    omega

/-- A miss with the code space exhausted puts out the clear code and empties the table (R196, R201). -/
theorem missPhrase_of_full (b : Byte) (slot : Nat) {s : State} (h : 8191 ≤ s.freeEntry.toNat) :
    missPhrase reference b slot s = { putCode reference 256 (putCode reference s.currentPhraseCode s) with
      currentPhraseCode := literalCode b
      hashTable := []
      freeEntry := 257 } := by
  rcases missPhrase_cases reference b slot s with ⟨hroom, _⟩ | ⟨_, e⟩
  · rw [reference_maxCode] at hroom
    omega
  · have hclear : BitVec.ofNat 16 reference.clearCode = 256 := rfl
    rw [e, restartPhrase, hclear, putCode_setPhraseCode]
    simp only [tableReset, reference_firstFree]
    rfl

/-- Settles O29: the lookup of a phrase that is not in the table is a miss, with a free code or without. -/
theorem cbyteEmitsOnNewPhrase : Obligations.CbyteEmitsOnNewPhrase := by
  intro s b hinv _ hr hfirst hfind
  obtain ⟨slot, ⟨hslot, hempty⟩, hmiss⟩ := lookup_pending_miss hinv hr hfirst hfind
  have hexec := exec_cbyte_of_next hr (compressByte_of_miss hfirst hmiss)
  rw [hexec, respOk_eq, respond_c_eq]
  constructor
  · intro hroom
    refine ⟨slot, hslot, hempty, ?_⟩
    rw [missPhrase_of_room b slot hroom, phraseKey_eq_append]
    simp only [putCode_cResponses]
    rfl
  · intro hfull
    rw [missPhrase_of_full b slot hfull.ge]
    simp only [putCode_cResponses]
    rfl

/-- Settles O43: a miss with a free code writes its slot in both tables; a refusal, a first byte and a hit write neither. -/
theorem cbyteWritesOnlyTheMissedSlot : Obligations.CbyteWritesOnlyTheMissedSlot := by
  intro b s t h
  cases hr : s.cmpReady with
  | false =>
    cases (runCbyte_of_not_ready reference b hr).symm.trans h
    exact ⟨rfl, nofun, fun _ => ⟨rfl, rfl⟩⟩
  | true =>
    obtain ⟨u, hu, rfl⟩ := compressByte_of_exec_cbyte hr h
    rw [respond_buf, respond_hashTable, respond_codeTable, (compressByte_frame hu).1, State.withCompressorOf_buf]
    refine ⟨rfl, fun slot _ hfirst hmiss hroom => ?_, fun hcase => ?_⟩
    · rw [compressByte_of_miss hfirst hmiss, missPhrase_of_room b slot hroom] at hu
      rw [← Host.Outcome.next.inj hu]
      exact ⟨Memory.read_write_same _ _ _, Memory.read_write_same _ _ _,
        fun a ha => ⟨Memory.read_write_other _ _ ha, Memory.read_write_other _ _ ha⟩⟩
    · rcases compressByte_cases reference b s with ⟨_, e⟩ | ⟨_, c, _, e⟩ | ⟨hfirst, slot, hmiss, _⟩ | ⟨_, _, _, e⟩
      · rw [e] at hu; cases hu; exact ⟨rfl, rfl⟩
      · rw [e] at hu; cases hu; exact ⟨rfl, rfl⟩
      · simp [hfirst, hmiss] at hcase
      · rw [e] at hu; cases hu

/-! ### No step faults (R204, R266) -/

/-- `POP` completes: its refill runs the steps of `CBYTE` or of `CFLUSH`, or none. -/
theorem runPop_completes {s : State} (h : CompressorInv reference s) : ∃ t, runPop reference s = .next t := by
  unfold runPop
  split
  · obtain ⟨u, hu⟩ : ∃ u, refillSink reference s = .next u := by
      rcases refillSink_cases reference s with ⟨_, e⟩ | ⟨_, hr, _, e⟩ | ⟨_, _, _, _, e⟩ | ⟨_, _, _, _, e⟩ <;> rw [e]
      · exact ⟨_, rfl⟩
      · exact compressByte_completes _ (h.of_frame rfl) hr
      · exact ⟨_, rfl⟩
      · exact ⟨_, rfl⟩
    rw [hu]
    exact ⟨_, rfl⟩
  · exact ⟨_, rfl⟩

theorem runCbyte_completes {s : State} (b : Byte) (h : CompressorInv reference s) :
    ∃ t, runCbyte reference b s = .next t := by
  cases hr : s.cmpReady with
  | false => exact ⟨_, runCbyte_of_not_ready reference b hr⟩
  | true =>
    obtain ⟨u, hu⟩ := compressByte_completes b h hr
    exact ⟨_, exec_cbyte_of_next hr hu⟩

theorem configure_completes (legal : Bool) (t s : State) : ∃ u, configure legal t s = .next u := by
  rcases configure_cases legal t s with ⟨_, e⟩ | ⟨_, _, e⟩ | ⟨_, _, e⟩ <;> exact ⟨_, e⟩

/-- Every command completes; only `CBYTE` and `POP` need the invariants of the compressor for it. -/
theorem exec_completes (i : Instr) {s : State} (h : CompressorInv reference s) : ∃ t, exec i s = .next t := by
  cases i with
  | enq v =>
    obtain ⟨r, e⟩ := exec_enq v s
    exact ⟨_, e⟩
  | push raw => exact ⟨_, rfl⟩
  | final => exact ⟨_, rfl⟩
  | deq =>
    by_cases hc : s.count = 0
    · exact ⟨_, exec_deq_of_empty hc⟩
    · exact ⟨_, exec_deq_of_ne hc⟩
  | qempty port => exact ⟨_, rfl⟩
  | qfull port => exact ⟨_, rfl⟩
  | qovf port => exact ⟨_, rfl⟩
  | qclear => exact ⟨_, rfl⟩
  | cinit => exact ⟨_, exec_cinit s⟩
  | cbyte b => exact runCbyte_completes b h
  | cflush =>
    cases hr : s.cmpReady with
    | false => exact ⟨_, runCflush_of_not_ready reference hr⟩
    | true => exact ⟨_, exec_cflush_of_ready hr⟩
  | cfgch n => exact configure_completes _ _ s
  | cfgrate n => exact configure_completes _ _ s
  | cfgdur n => exact configure_completes _ _ s
  | cfgmode n => exact configure_completes _ _ s
  | cfgcmp n => exact configure_completes _ _ s
  | start =>
    change ∃ t, runStart reference s = .next t
    unfold runStart
    split <;> exact ⟨_, rfl⟩
  | stop =>
    by_cases ha : s.session = .active
    · exact ⟨_, runStop_active reference ha⟩
    · exact ⟨_, runStop_of_not_active reference ha⟩
  | pop => exact runPop_completes h
  | sstat => exact ⟨_, rfl⟩

/-- A command word that arrives completes: it is executed, or answered with its error. -/
theorem issue_completes (port : Port) (w : Word) {s : State} (h : CompressorInv reference s) :
    ∃ t, issue port w s = .next t := by
  rcases issue_cases port w s with ⟨i, _, e⟩ | ⟨_, _, e⟩ <;> rw [e]
  · exact exec_completes i (h.of_frame (by rw [noteIssue_eq]; rfl))
  · exact ⟨_, rfl⟩

/-- Settles O57: a step issues a word or does not, and the word completes. -/
theorem noStepFaultsUnderTheInvariant : Obligations.NoStepFaultsUnderTheInvariant := by
  rintro s ⟨_, _, _, hinv⟩
  rcases step_cases s with ⟨_, e⟩ | ⟨rest, _, ⟨_, e⟩ | ⟨w, ws, _, e⟩⟩ |
    ⟨rest, _, ⟨_, _, _, e⟩ | ⟨_, _, e⟩ | ⟨w, ws, _, _, e⟩⟩ <;> rw [e]
  · exact ⟨_, rfl⟩
  · exact ⟨_, rfl⟩
  · exact issue_completes .c w (hinv.of_frame rfl)
  · exact ⟨_, rfl⟩
  · exact ⟨_, rfl⟩
  · exact issue_completes .p w (hinv.of_frame rfl)

/-! ### The packed stream (R197, R198, R75) -/

theorem putCode_packs (P : Params) (c : Code) {s : State} (h : PackerInv s) :
    packedBits (putCode P c s) = packedBits s ++ bitsMsb P.nbits c ∧ PackerInv (putCode P c s) ∧
      s.sink <+: (putCode P c s).sink := putBits_packs c P.nbits h

/-- Settles O30: `PutCode` is a run of single bits, and writes the packer alone. -/
theorem putCodePacksMostSignificantFirst : Obligations.PutCodePacksMostSignificantFirst := by
  intro s c h
  obtain ⟨hbits, hinv, hsink⟩ := putCode_packs reference c h
  exact ⟨_, rfl, hbits, hinv, hsink, putCode_frame reference c s⟩

theorem flatMap_bitsMsb_length {w : Nat} (n : Nat) (l : List (BitVec w)) :
    (l.flatMap (bitsMsb n)).length = l.length * n := by
  induction l with
  | nil => simp
  | cons v l ih => rw [List.flatMap_cons, List.length_append, bitsMsb_length, ih, List.length_cons]; ring

/-- Whole bytes before the bits to complete change nothing of the padding. -/
theorem padBits_append {l bs : List Bool} (h : l.length % 8 = 0) : padBits (l ++ bs) = l ++ padBits bs := by
  have hmod : (l ++ bs).length % 8 = bs.length % 8 := by rw [List.length_append]; omega
  rw [padBits, padBits, hmod, List.append_assoc]

/-- A byte whose unused bits are 0 is its used bits, completed with zeros. -/
theorem held_bits_pad {o : Byte} {n : Nat} (hn : n ≤ 8) (h : o.toNat % 2 ^ (8 - n) = 0) :
    (bitsMsb 8 o).take n ++ List.replicate (8 - n) false = bitsMsb 8 o := by
  obtain ⟨q, hq⟩ := Nat.dvd_of_mod_eq_zero h
  apply List.ext_getElem
  · simp [hn]
  · intro i hi _
    rw [List.getElem_append]
    split
    · exact List.getElem_take
    · rename_i hlow
      rw [List.length_take, bitsMsb_length] at hlow
      rw [List.length_append, List.length_take, bitsMsb_length, List.length_replicate] at hi
      simp only [List.getElem_replicate, bitsMsb, List.getElem_map, List.getElem_range, BitVec.getLsbD, hq,
        Nat.testBit_two_pow_mul, Bool.false_eq, Bool.and_eq_false_iff, decide_eq_false_iff_not]
      exact .inl (by omega)

/-- The padding completes the packed stream to whole bytes. -/
theorem padByte_packs {s : State} (h : PackerInv s) : (padByte s).sink.flatMap (bitsMsb 8) = padBits (packedBits s) := by
  have hwhole : (s.sink.flatMap (bitsMsb 8)).length % 8 = 0 := by
    rw [flatMap_bitsMsb_length]
    exact Nat.mul_mod_left _ 8
  have hlt := s.outBits.isLt
  unfold padByte
  split
  · rename_i h0
    simp [packedBits, h0, padBits]
  · rename_i hne
    have hpos : s.outBits.toNat ≠ 0 := fun h0 => hne (BitVec.eq_of_toNat_eq h0)
    have hheld : ((bitsMsb 8 s.outByte).take s.outBits.toNat).length = s.outBits.toNat := by
      rw [List.length_take, bitsMsb_length]
      omega
    rw [packedBits, padBits_append hwhole, padBits, hheld,
      show (8 - s.outBits.toNat % 8) % 8 = 8 - s.outBits.toNat by omega, held_bits_pad (by omega) h]
    simp

/-- The padding only appends to the `sink`. -/
theorem padByte_sink_prefix (s : State) : s.sink <+: (padByte s).sink := by
  unfold padByte
  split
  · exact List.prefix_rfl
  · exact List.prefix_append _ _

/-- A state whose pending code is packed, if any byte was seen: the first part of a flush (R198). -/
def packPending (P : Params) (s : State) : State := if s.firstByte then s else putCode P s.currentPhraseCode s

theorem flushCompressor_eq (P : Params) (s : State) : flushCompressor P s =
    { padByte (putCode P (BitVec.ofNat 16 P.eosCode) (packPending P s)) with cmpReady := false } := rfl

section
variable (P : Params) {s : State} (h : PackerInv s)
include h

theorem packPending_packs :
    packedBits (packPending P s) =
      packedBits s ++ (if s.firstByte then [] else bitsMsb P.nbits s.currentPhraseCode) ∧
    PackerInv (packPending P s) ∧ s.sink <+: (packPending P s).sink := by
  unfold packPending
  split
  · exact ⟨(List.append_nil _).symm, h, List.prefix_rfl⟩
  · exact putCode_packs P s.currentPhraseCode h

/-- The flush puts out the pending code, if any byte was seen, the end-of-stream code and the padding. -/
theorem flushCompressor_packs :
    (flushCompressor P s).sink.flatMap (bitsMsb 8) =
      padBits (packedBits s ++ (if s.firstByte then [] else bitsMsb P.nbits s.currentPhraseCode) ++
        bitsMsb P.nbits (BitVec.ofNat 16 P.eosCode)) ∧
    s.sink <+: (flushCompressor P s).sink := by
  obtain ⟨hpending, hinv, hsink⟩ := packPending_packs P h
  obtain ⟨heos, hinv', hsink'⟩ := putCode_packs P (BitVec.ofNat 16 P.eosCode) hinv
  rw [flushCompressor_eq, padByte_packs hinv', heos, hpending]
  exact ⟨rfl, (hsink.trans hsink').trans (padByte_sink_prefix _)⟩

/-- The padding leaves an empty packer. -/
theorem padByte_packer : (padByte s).outByte = 0 ∧ (padByte s).outBits = 0 := by
  unfold padByte
  split
  · rename_i h0
    refine ⟨BitVec.eq_of_toNat_eq ?_, h0⟩
    have hlow : s.outByte.toNat % 2 ^ (8 - 0) = 0 := by rwa [PackerInv, h0] at h
    have hlt := s.outByte.isLt
    change _ = 0
    omega
  · exact ⟨rfl, rfl⟩

end

/-- A flush appends the packed bits, completed to whole bytes, and leaves an empty packer and no running compressor. -/
theorem flushCompressor_flushes (P : Params) {s : State} (h : PackerInv s) : ∃ z,
    flushCompressor P s = { s with sink := z, outByte := 0, outBits := 0, cmpReady := false } ∧ s.sink <+: z ∧
    z.flatMap (bitsMsb 8) =
      padBits (packedBits s ++ (if s.firstByte then [] else bitsMsb P.nbits s.currentPhraseCode) ++
        bitsMsb P.nbits (BitVec.ofNat 16 P.eosCode)) := by
  obtain ⟨hbits, hsink⟩ := flushCompressor_packs P h
  obtain ⟨hbyte, hheld⟩ : (flushCompressor P s).outByte = 0 ∧ (flushCompressor P s).outBits = 0 :=
    padByte_packer (putCode_packerInv P _ (packPending_packs P h).2.1)
  refine ⟨_, (flushCompressor_frame P s).trans ?_, hsink, hbits⟩
  rw [State.withPackerOf, hbyte, hheld]

/-- Settles O31: the refusal, and the bits and the frame of the flush. -/
theorem cflushEmitsPendingAndEndOfStream : Obligations.CflushEmitsPendingAndEndOfStream := by
  refine ⟨encodedAt_of_encode (i := .cflush) rfl, fun s hr => ?_, fun s hr h => ?_⟩
  · rw [← raiseError_c_refused]
    exact runCflush_of_not_ready reference hr
  · have hones : bitsMsb 13 (BitVec.ofNat 16 8191) = List.replicate 13 true := by decide
    obtain ⟨z, e, hsink, hbits⟩ := flushCompressor_flushes reference h
    rw [reference_nbits, reference_eosCode, hones] at hbits
    rw [exec_cflush_of_ready hr, e, respOk_eq]
    exact ⟨_, rfl, hbits, hsink, rfl⟩

/-! ### The number of bytes (R205) -/

theorem sink_length_eq (s : State) : s.sink.length = bitsOut s / 8 := by
  have hlt := s.outBits.isLt
  rw [bitsOut]
  omega

/-- A miss puts out one code, or with the code space exhausted two. -/
theorem bitsOut_missPhrase (P : Params) (b : Byte) (slot : Nat) (s : State) : bitsOut (missPhrase P b slot s) =
    bitsOut s + (if s.freeEntry.toNat < P.maxCode then P.nbits else 2 * P.nbits) := by
  have hrestart : bitsOut (restartPhrase P b s) = bitsOut s + P.nbits := bitsOut_putCode P s.currentPhraseCode s
  rcases missPhrase_cases P b slot s with ⟨hroom, e⟩ | ⟨hfull, e⟩ <;> rw [e]
  · rw [if_pos hroom, bitsOut_learnPhrase, hrestart]
  · rw [if_neg (by omega), bitsOut_tableReset, bitsOut_putCode, hrestart]
    ring

theorem bitsOut_packPending (P : Params) (s : State) : bitsOut (packPending P s) + P.nbits =
    bitsOut s + (if s.firstByte then 1 else 2) * P.nbits := by
  unfold packPending
  split
  · rw [one_mul]
  · rw [bitsOut_putCode]
    ring

/-- The bytes of a flush: one code or two after the held bits, and the padding. -/
theorem flushCompressor_sink_length_eq (P : Params) (s : State) : (flushCompressor P s).sink.length =
    (bitsOut s + (if s.firstByte then 1 else 2) * P.nbits + 7) / 8 := by
  obtain ⟨hlo, hhi⟩ := padByte_sink_length (putCode P (BitVec.ofNat 16 P.eosCode) (packPending P s))
  rw [bitsOut_putCode, bitsOut_packPending] at hlo hhi
  rw [flushCompressor_eq]
  simp only
  omega

/-- Settles O33: `CINIT`, a first byte and a hit put out nothing; a flush and a miss put out whole codes. -/
theorem bytesEmittedPerCommand : Obligations.BytesEmittedPerCommand := by
  intro s t b
  have hlt := s.outBits.isLt
  refine ⟨fun h => ?_, fun hr h => ?_, fun hr hfirst h => ?_, fun hr hfirst h => ?_⟩
  · cases (exec_cinit s).symm.trans h
    rfl
  · rw [← Host.Outcome.next.inj ((exec_cflush_of_ready hr).symm.trans h), respond_sink,
      flushCompressor_sink_length_eq, reference_nbits, bitsOut]
    omega
  · obtain ⟨u, hu, rfl⟩ := compressByte_of_exec_cbyte hr h
    rw [compressByte_of_first reference b hfirst] at hu
    cases hu
    rfl
  · obtain ⟨u, hu, rfl⟩ := compressByte_of_exec_cbyte hr h
    rw [respond_sink]
    rcases compressByte_cases reference b s with ⟨hfirst', _⟩ | ⟨_, c, hhit, e⟩ | ⟨_, slot, hmiss, e⟩ | ⟨_, _, _, e⟩
    · rw [hfirst] at hfirst'
      cases hfirst'
    · rw [e] at hu
      cases hu
      exact .inl ⟨c, hhit, rfl⟩
    · rw [e] at hu
      rw [← Host.Outcome.next.inj hu, sink_length_eq, bitsOut_missPhrase, reference_nbits, reference_maxCode,
        bitsOut]
      refine .inr ⟨slot, hmiss, ?_⟩
      split <;> omega
    · rw [e] at hu
      cases hu

/-! ### The abstract coder (R199) -/

/-- The coder that has learned a phrase with its next free code, and goes on from the byte. -/
def Coder.learn (c : Code) (b : Byte) (k : Coder) : Coder :=
  ⟨((c, b), BitVec.ofNat 16 k.free) :: k.dict, k.free + 1, some (literalCode b)⟩

/-- The coder that has forgotten its phrases, and goes on from the byte. -/
def Coder.restart (b : Byte) : Coder := ⟨[], 257, some (literalCode b)⟩

/-- Everything one byte can do to the coder. -/
theorem Coder.feed_cases (b : Byte) (k : Coder) :
    (k.cur = none ∧ k.feed reference b = ([], { k with cur := some (literalCode b) })) ∨
    (∃ c d, k.cur = some c ∧ k.find (c, b) = some d ∧ k.feed reference b = ([], { k with cur := some d })) ∨
    (∃ c, k.cur = some c ∧ k.find (c, b) = none ∧ k.free < 8191 ∧ k.feed reference b = ([c], k.learn c b)) ∨
    (∃ c, k.cur = some c ∧ k.find (c, b) = none ∧ 8191 ≤ k.free ∧
      k.feed reference b = ([c, 256], Coder.restart b)) := by
  unfold Coder.feed
  cases hcur : k.cur with
  | none => exact .inl ⟨rfl, rfl⟩
  | some c =>
    cases hfind : k.find (c, b) with
    | some d => exact .inr (.inl ⟨c, d, rfl, hfind, by simp only [hfind]⟩)
    | none =>
      by_cases hroom : k.free < 8191
      · exact .inr (.inr (.inl ⟨c, rfl, hfind, hroom, by simp only [hfind, reference_maxCode]; exact if_pos hroom⟩))
      · exact .inr (.inr (.inr ⟨c, rfl, hfind, Nat.le_of_not_lt hroom,
          by simp only [hfind, reference_maxCode]; exact if_neg hroom⟩))

theorem Coder.codes_cons (b : Byte) (bs : List Byte) (k : Coder) :
    Coder.codes reference (b :: bs) k = (k.feed reference b).1 ++ Coder.codes reference bs (k.feed reference b).2 := rfl

theorem Coder.find_learn_same (c : Code) (b : Byte) (k : Coder) :
    (k.learn c b).find (c, b) = some (BitVec.ofNat 16 k.free) := by
  simp [Coder.find, Coder.learn]

theorem Coder.find_learn_other {c : Code} {b : Byte} {x : Code × Byte} (k : Coder) (h : x ≠ (c, b)) :
    (k.learn c b).find x = k.find x := by
  simp [Coder.find, Coder.learn, h.symm]

theorem Coder.find_restart (b : Byte) (x : Code × Byte) : (Coder.restart b).find x = none := rfl

/-- The codes of the coder are literals or have been assigned, and the next code is in its range (R191). -/
structure Coder.Bounded (k : Coder) : Prop where
  free_ge : 257 ≤ k.free
  free_le : k.free ≤ 8191
  find_lt : ∀ x d, k.find x = some d → d.toNat < k.free
  cur_lt : ∀ c, k.cur = some c → c.toNat < k.free

theorem Coder.bounded_initial : (Coder.initial reference).Bounded where
  free_ge := le_rfl
  free_le := by decide
  find_lt := nofun
  cur_lt := nofun

theorem Coder.Bounded.setCur {k : Coder} (h : k.Bounded) {d : Code} (hd : d.toNat < k.free) :
    Coder.Bounded { k with cur := some d } where
  free_ge := h.free_ge
  free_le := h.free_le
  find_lt := h.find_lt
  cur_lt := fun _ hc => Option.some.inj hc ▸ hd

theorem literalCode_lt_free {k : Coder} (h : k.Bounded) (b : Byte) : (literalCode b).toNat < k.free := by
  have hb := literalCode_toNat_lt b
  have hfree := h.free_ge
  omega

theorem toNat_ofNat_free {k : Coder} (h : k.Bounded) : (BitVec.ofNat 16 k.free).toNat = k.free := by
  have hfree := h.free_le
  rw [BitVec.toNat_ofNat]
  omega

theorem Coder.Bounded.learn {k : Coder} (h : k.Bounded) (hroom : k.free < 8191) (c : Code) (b : Byte) :
    (k.learn c b).Bounded where
  free_ge := Nat.le_succ_of_le h.free_ge
  free_le := hroom
  find_lt := by
    intro x d hfind
    change d.toNat < k.free + 1
    by_cases hx : x = (c, b)
    · rw [hx, Coder.find_learn_same] at hfind
      rw [← Option.some.inj hfind, toNat_ofNat_free h]
      omega
    · rw [Coder.find_learn_other k hx] at hfind
      exact Nat.lt_succ_of_lt (h.find_lt x d hfind)
  cur_lt := fun _ hc => Option.some.inj hc ▸ Nat.lt_succ_of_lt (literalCode_lt_free h b)

theorem Coder.bounded_restart (b : Byte) : (Coder.restart b).Bounded where
  free_ge := le_rfl
  free_le := by change 257 ≤ 8191; omega
  find_lt := nofun
  cur_lt := fun _ hc => Option.some.inj hc ▸ Nat.lt_succ_of_lt (literalCode_toNat_lt b)

theorem Coder.Bounded.feed {k : Coder} (h : k.Bounded) (b : Byte) : (k.feed reference b).2.Bounded := by
  rcases Coder.feed_cases b k with ⟨_, e⟩ | ⟨c, d, _, hfind, e⟩ | ⟨c, _, _, hroom, e⟩ | ⟨_, _, _, _, e⟩ <;> rw [e]
  · exact h.setCur (literalCode_lt_free h b)
  · exact h.setCur (h.find_lt _ d hfind)
  · exact h.learn hroom c b
  · exact Coder.bounded_restart b

/-! ### The lookup answers the coder's dictionary (R195, R199) -/

/-- The tables hold the coder's dictionary: the lookup finds its phrases, and no other key is listed. -/
structure HoldsDictionary (k : Coder) (s : State) : Prop where
  free : s.freeEntry.toNat = k.free
  wf : Memory.wf reference.empty reference.hashSize s.hashTable
  length : s.hashTable.length + 257 = k.free
  found : ∀ c b d, k.find (c, b) = some d → lookup reference s c b = .hit d
  listed : ∀ c b, k.find (c, b) = none → phraseKey c b ∉ s.hashTable.map Prod.snd

theorem HoldsDictionary.congr {k : Coder} {s t : State} (h : HoldsDictionary k s) (hh : t.hashTable = s.hashTable)
    (hc : t.codeTable = s.codeTable) (hf : t.freeEntry = s.freeEntry) : HoldsDictionary k t where
  free := by rw [hf]; exact h.free
  wf := by rw [hh]; exact h.wf
  length := by rw [hh]; exact h.length
  found := fun c b d hfind => (lookup_congr reference hh hc c b).trans (h.found c b d hfind)
  listed := by rw [hh]; exact h.listed

theorem HoldsDictionary.setCur {k : Coder} {s : State} (h : HoldsDictionary k s) (x : Option Code) :
    HoldsDictionary { k with cur := x } s := { h with }

theorem holdsDictionary_of_empty {s : State} (hh : s.hashTable = []) (hf : s.freeEntry = 257) (x : Option Code) :
    HoldsDictionary ⟨[], 257, x⟩ s where
  free := by rw [hf]; rfl
  wf := by rw [hh]; exact Memory.nil_wf _
  length := by rw [hh]; rfl
  found := nofun
  listed := by rw [hh]; exact fun _ _ _ => List.not_mem_nil

/-- A phrase the coder does not know is missed at an empty slot. -/
theorem HoldsDictionary.misses {k : Coder} {s : State} (h : HoldsDictionary k s) (hk : k.Bounded) {c : Code} {b : Byte}
    (hc : c.toNat < k.free) (hfind : k.find (c, b) = none) : ∃ slot, lookup reference s c b = .miss slot := by
  have hfree := hk.free_le
  have hlen := h.length
  have hcode : c.toNat < 2 ^ reference.nbits := by
    change _ < 8192
    omega
  have hroom : s.hashTable.length < reference.hashSize := by
    change _ < 9001
    omega
  obtain ⟨slot, _, hmiss⟩ := lookup_misses reference_cmpInitOk hcode hroom (h.listed c b hfind)
  exact ⟨slot, hmiss⟩

/-- Learning at the missed slot is the coder's learning. -/
theorem HoldsDictionary.learn {k : Coder} {s : State} (h : HoldsDictionary k s) (hroom : k.free < 8191) {c : Code}
    {b : Byte} {slot : Nat} (hmiss : lookup reference s c b = .miss slot) :
    HoldsDictionary (k.learn c b) (learnPhrase reference c b slot s) := by
  obtain ⟨hslot, hempty⟩ := missAt_of_lookup hmiss
  have hfree := h.free
  have hperm : (learnPhrase reference c b slot s).hashTable.Perm ((slot, phraseKey c b) :: s.hashTable) :=
    Memory.write_perm (Memory.ne_of_read_eq h.wf hempty) (phraseKey_ne_empty c b)
  have hcode : BitVec.ofNat 16 k.free = s.freeEntry := by rw [← hfree, BitVec.ofNat_toNat, BitVec.setWidth_eq]
  refine ⟨?_, Memory.write_wf _ h.wf hslot, ?_, fun c' b' d hfind => ?_, fun c' b' hfind => ?_⟩
  · change (s.freeEntry + 1).toNat = k.free + 1
    rw [BitVec.toNat_add]
    change (s.freeEntry.toNat + 1) % 65536 = _
    omega
  · rw [hperm.length_eq, List.length_cons, Nat.add_right_comm, h.length]
    rfl
  · by_cases hx : (c', b') = (c, b)
    · obtain ⟨rfl, rfl⟩ := Prod.mk.inj hx
      rw [Coder.find_learn_same, hcode] at hfind
      rw [learnPhrase_lookup_new hmiss, Option.some.inj hfind]
    · rw [Coder.find_learn_other k hx] at hfind
      exact learnPhrase_lookup_old hmiss (h.found c' b' d hfind)
  · have hx : (c', b') ≠ (c, b) := by
      intro hx
      rw [hx, Coder.find_learn_same] at hfind
      cases hfind
    rw [Coder.find_learn_other k hx] at hfind
    rw [(hperm.map Prod.snd).mem_iff, List.map_cons, List.mem_cons, not_or]
    refine ⟨fun hkey => hx ?_, h.listed c' b' hfind⟩
    obtain ⟨rfl, rfl⟩ := phraseKey_injective hkey
    rfl

/-! ### The compressor follows the coder (R196 to R199) -/

@[simp] theorem putCode_firstByte (P : Params) (c : Code) (s : State) : (putCode P c s).firstByte = s.firstByte := by
  rw [putCode_frame, State.withPackerOf_firstByte]

theorem restartPhrase_hashTable (P : Params) (b : Byte) (s : State) : (restartPhrase P b s).hashTable = s.hashTable :=
  putCode_hashTable P s.currentPhraseCode s

theorem restartPhrase_codeTable (P : Params) (b : Byte) (s : State) : (restartPhrase P b s).codeTable = s.codeTable :=
  putCode_codeTable P s.currentPhraseCode s

theorem missPhrase_firstByte (P : Params) (b : Byte) (slot : Nat) (s : State) :
    (missPhrase P b slot s).firstByte = s.firstByte := by
  have hrestart : (restartPhrase P b s).firstByte = s.firstByte := putCode_firstByte P s.currentPhraseCode s
  rcases missPhrase_cases P b slot s with ⟨_, e⟩ | ⟨_, e⟩ <;> rw [e]
  · exact hrestart
  · exact (putCode_firstByte P _ _).trans hrestart

theorem restartPhrase_packs (P : Params) (b : Byte) {s : State} (h : PackerInv s) :
    packedBits (restartPhrase P b s) = packedBits s ++ bitsMsb P.nbits s.currentPhraseCode ∧
      s.sink <+: (restartPhrase P b s).sink := by
  obtain ⟨hbits, _, hsink⟩ := putCode_packs P s.currentPhraseCode h
  exact ⟨hbits, hsink⟩

/-- A miss packs the pending code, and the clear code with the code space exhausted. -/
theorem missPhrase_packs (P : Params) (b : Byte) (slot : Nat) {s : State} (h : PackerInv s) :
    packedBits (missPhrase P b slot s) = packedBits s ++
      (if s.freeEntry.toNat < P.maxCode then [s.currentPhraseCode]
        else [s.currentPhraseCode, BitVec.ofNat 16 P.clearCode]).flatMap (bitsMsb P.nbits) ∧
      s.sink <+: (missPhrase P b slot s).sink := by
  obtain ⟨hbits, hsink⟩ := restartPhrase_packs P b h
  rcases missPhrase_cases P b slot s with ⟨hroom, e⟩ | ⟨hfull, e⟩ <;> rw [e]
  · rw [if_pos hroom, List.flatMap_singleton]
    exact ⟨hbits, hsink⟩
  · obtain ⟨hclear, _, hsink'⟩ := putCode_packs P (BitVec.ofNat 16 P.clearCode) (restartPhrase_packerInv (P := P) b h)
    rw [if_neg (Nat.not_lt.2 hfull), List.flatMap_cons, List.flatMap_singleton, ← List.append_assoc, ← hbits]
    exact ⟨hclear, hsink.trans hsink'⟩

/-- The compressor is where the coder is: its pending code and its dictionary. -/
structure Follows (k : Coder) (s : State) : Prop where
  bounded : k.Bounded
  ready : s.cmpReady = true
  packer : PackerInv s
  cur : k.cur = if s.firstByte then none else some s.currentPhraseCode
  dictionary : HoldsDictionary k s

theorem follows_initial (s : State) : Follows (Coder.initial reference) (initCompressor reference s) where
  bounded := Coder.bounded_initial
  ready := rfl
  packer := (by decide : (0 : Nat) % 2 ^ (8 - 0) = 0)
  cur := rfl
  dictionary := holdsDictionary_of_empty rfl rfl none

section
variable {k : Coder} {s : State} (h : Follows k s)
include h

theorem Follows.respond (port : Port) (r : RespWord) : Follows k (respond port r s) where
  bounded := h.bounded
  ready := by rw [respond_cmpReady]; exact h.ready
  packer := by rw [PackerInv, respond_outByte, respond_outBits]; exact h.packer
  cur := by rw [respond_firstByte, respond_currentPhraseCode]; exact h.cur
  dictionary := h.dictionary.congr (respond_hashTable ..) (respond_codeTable ..) (respond_freeEntry ..)

/-- A coder with a pending code is past its first byte, and the code is the compressor's. -/
theorem Follows.pending {c : Code} (hc : k.cur = some c) : s.firstByte = false ∧ s.currentPhraseCode = c := by
  have hcur := h.cur
  rw [hc] at hcur
  cases hf : s.firstByte with
  | true =>
    rw [hf, if_pos rfl] at hcur
    cases hcur
  | false =>
    rw [hf, if_neg Bool.false_ne_true] at hcur
    exact ⟨rfl, (Option.some.inj hcur).symm⟩

theorem Follows.first (hc : k.cur = none) : s.firstByte = true := by
  have hcur := h.cur
  rw [hc] at hcur
  cases hf : s.firstByte with
  | true => rfl
  | false =>
    rw [hf, if_neg Bool.false_ne_true] at hcur
    cases hcur

theorem Follows.maxCode_iff : s.freeEntry.toNat < reference.maxCode ↔ k.free < 8191 := by
  rw [h.dictionary.free, reference_maxCode]

/-- A phrase the coder does not know is a miss of the compressor, which stays with the coder. -/
theorem Follows.miss {b : Byte} {c : Code} (hc : k.cur = some c) (hfind : k.find (c, b) = none) :
    ∃ slot, compressByte reference b s = .next (missPhrase reference b slot s) ∧
      Follows (if k.free < 8191 then k.learn c b else Coder.restart b) (missPhrase reference b slot s) := by
  obtain ⟨hfirst, hcode⟩ := h.pending hc
  obtain ⟨slot, hmiss⟩ := h.dictionary.misses h.bounded (h.bounded.cur_lt c hc) hfind
  rw [← hcode] at hmiss
  have hstep := compressByte_of_miss hfirst hmiss
  have hcur : some (literalCode b) = if (missPhrase reference b slot s).firstByte then none
      else some (missPhrase reference b slot s).currentPhraseCode := by
    rw [missPhrase_firstByte, missPhrase_currentPhraseCode, hfirst]
    rfl
  refine ⟨slot, hstep, ?_⟩
  split
  · rename_i hroom
    refine ⟨h.bounded.learn hroom c b, (compressByte_frame hstep).2.trans h.ready,
      missPhrase_packerInv reference b slot h.packer, hcur, ?_⟩
    rcases missPhrase_cases reference b slot s with ⟨_, e⟩ | ⟨hfull, _⟩
    · have hdict : HoldsDictionary k (restartPhrase reference b s) := h.dictionary.congr
        (restartPhrase_hashTable reference b s) (restartPhrase_codeTable reference b s) (restartPhrase_freeEntry b)
      rw [e, hcode]
      exact hdict.learn hroom ((restartPhrase_lookup b c b).trans (hcode ▸ hmiss))
    · exact absurd (h.maxCode_iff.2 hroom) (Nat.not_lt.2 hfull)
  · rename_i hfull
    refine ⟨Coder.bounded_restart b, (compressByte_frame hstep).2.trans h.ready,
      missPhrase_packerInv reference b slot h.packer, hcur, ?_⟩
    rcases missPhrase_cases reference b slot s with ⟨hroom, _⟩ | ⟨_, e⟩
    · exact absurd (h.maxCode_iff.1 hroom) hfull
    · rw [e]
      exact holdsDictionary_of_empty rfl rfl _

/-- One byte: the compressor packs the codes that the coder emits, and stays with it. -/
theorem Follows.feed (b : Byte) : ∃ t, compressByte reference b s = .next t ∧ Follows (k.feed reference b).2 t ∧
    packedBits t = packedBits s ++ (k.feed reference b).1.flatMap (bitsMsb 13) ∧ s.sink <+: t.sink := by
  have hbounded := h.bounded.feed b
  rcases Coder.feed_cases b k with ⟨hc, e⟩ | ⟨c, d, hc, hfind, e⟩ | ⟨c, hc, hfind, hroom, e⟩ | ⟨c, hc, hfind, hfull, e⟩ <;>
    rw [e] at hbounded ⊢
  · exact ⟨_, compressByte_of_first reference b (h.first hc),
      ⟨hbounded, h.ready, h.packer, rfl, (h.dictionary.setCur _).congr rfl rfl rfl⟩,
      (List.append_nil _).symm, List.prefix_rfl⟩
  · obtain ⟨hfirst, rfl⟩ := h.pending hc
    exact ⟨_, compressByte_of_hit hfirst (h.dictionary.found _ b d hfind),
      ⟨hbounded, h.ready, h.packer, by simp [hfirst], (h.dictionary.setCur _).congr rfl rfl rfl⟩,
      (List.append_nil _).symm, List.prefix_rfl⟩
  · obtain ⟨slot, hstep, hfollows⟩ := h.miss hc hfind
    obtain ⟨hbits, hsink⟩ := missPhrase_packs reference b slot h.packer
    rw [if_pos hroom] at hfollows
    rw [if_pos (h.maxCode_iff.2 hroom), (h.pending hc).2] at hbits
    exact ⟨_, hstep, hfollows, hbits, hsink⟩
  · obtain ⟨slot, hstep, hfollows⟩ := h.miss hc hfind
    obtain ⟨hbits, hsink⟩ := missPhrase_packs reference b slot h.packer
    rw [if_neg (Nat.not_lt.2 hfull)] at hfollows
    rw [if_neg (fun hroom => Nat.not_lt.2 hfull (h.maxCode_iff.1 hroom)), (h.pending hc).2] at hbits
    exact ⟨_, hstep, hfollows, hbits, hsink⟩

/-- The flush packs the coder's last codes. -/
theorem Follows.flush : ∃ t, exec .cflush s = .next t ∧ s.sink <+: t.sink ∧
    t.sink.flatMap (bitsMsb 8) = padBits (packedBits s ++ (Coder.codes reference [] k).flatMap (bitsMsb 13)) := by
  obtain ⟨z, e, hsink, hbits⟩ := flushCompressor_flushes reference h.packer
  have hcodes : (Coder.codes reference [] k).flatMap (bitsMsb 13) =
      (if s.firstByte then [] else bitsMsb 13 s.currentPhraseCode) ++ bitsMsb 13 (BitVec.ofNat 16 reference.eosCode) := by
    rw [Coder.codes, h.cur, List.flatMap_append, List.flatMap_singleton]
    cases s.firstByte <;> simp
  rw [exec_cflush_of_ready h.ready, e]
  refine ⟨_, rfl, hsink, ?_⟩
  rw [hcodes, ← List.append_assoc]
  exact hbits

end

/-- A run of `CBYTE`s and the flush pack the coder's codes of the string. -/
theorem Follows.run {k : Coder} {s : State} (bs : List Byte) (h : Follows k s) :
    ∃ t, runCommands (bs.map .cbyte ++ [.cflush]) s = .next t ∧ s.sink <+: t.sink ∧
      t.sink.flatMap (bitsMsb 8) = padBits (packedBits s ++ (Coder.codes reference bs k).flatMap (bitsMsb 13)) := by
  induction bs generalizing k s with
  | nil =>
    obtain ⟨t, hexec, hsink, hbits⟩ := h.flush
    exact ⟨t, runCommands_cons hexec, hsink, hbits⟩
  | cons b bs ih =>
    obtain ⟨u, hstep, hfollows, hbits, hsink⟩ := h.feed b
    obtain ⟨t, hrun, hsink', hbits'⟩ := ih (hfollows.respond .c respOk)
    refine ⟨t, (runCommands_cons (exec_cbyte_of_next h.ready hstep)).trans hrun, hsink.trans hsink', ?_⟩
    rw [hbits', Coder.codes_cons, List.flatMap_append, ← List.append_assoc, ← hbits]
    rfl

/-- Settles O34: `CINIT` starts where the abstract coder does, and every byte keeps the two together. -/
theorem compressedStreamIsThatOfTheAbstractCoder : Obligations.CompressedStreamIsThatOfTheAbstractCoder := by
  intro s bs
  obtain ⟨t, hrun, ⟨z, hz⟩, hbits⟩ := ((follows_initial s).respond .c respOk).run bs
  have hstart : packedBits (respond .c respOk (initCompressor reference s)) = s.sink.flatMap (bitsMsb 8) :=
    List.append_nil _
  have hz : s.sink ++ z = t.sink := hz
  have hwhole : (s.sink.flatMap (bitsMsb 8)).length % 8 = 0 := by
    rw [flatMap_bitsMsb_length]
    exact Nat.mul_mod_left _ 8
  rw [hstart, padBits_append hwhole, ← hz, List.flatMap_append] at hbits
  exact ⟨t, z, (runCommands_cons (exec_cinit s)).trans hrun, hz.symm, List.append_cancel_left hbits⟩

/-! ### Reading the codes back from the stream (R202, R75) -/

/-- The codes of the coder fit `NBITS` bits. -/
theorem Coder.Bounded.codes_lt {k : Coder} (h : k.Bounded) (bs : List Byte) :
    ∀ c ∈ Coder.codes reference bs k, c.toNat < 2 ^ 13 := by
  induction bs generalizing k with
  | nil =>
    intro c hc
    rw [Coder.codes, List.mem_append, Option.mem_toList, List.mem_singleton] at hc
    have hfree := h.free_le
    rcases hc with hc | rfl
    · have hlt := h.cur_lt c hc
      omega
    · decide
  | cons b bs ih =>
    intro c hc
    rw [Coder.codes_cons, List.mem_append] at hc
    refine hc.elim (fun hemit => ?_) (ih (h.feed b) c)
    have hfree := h.free_le
    rcases Coder.feed_cases b k with ⟨_, e⟩ | ⟨_, _, _, _, e⟩ | ⟨c', hcur, _, _, e⟩ | ⟨c', hcur, _, _, e⟩ <;>
      rw [e] at hemit
    · cases hemit
    · cases hemit
    · have hlt := h.cur_lt c' hcur
      rw [List.mem_singleton.1 hemit]
      omega
    · have hlt := h.cur_lt c' hcur
      rw [List.mem_cons, List.mem_singleton] at hemit
      rcases hemit with rfl | rfl
      · omega
      · decide

/-- A run of bits after a number: the number shifted, and the bits as the low part. -/
theorem foldl_bitsMsb {w : Nat} (n a : Nat) (v : BitVec w) :
    (bitsMsb n v).foldl (fun a b => 2 * a + b.toNat) a = a * 2 ^ n + v.toNat % 2 ^ n := by
  induction n generalizing a with
  | zero => simp [bitsMsb, Nat.mod_one]
  | succ n ih =>
    rw [bitsMsb_succ, List.foldl_cons, ih, Nat.mod_pow_succ, BitVec.getLsbD, Nat.toNat_testBit]
    ring

theorem bitsValue_bitsMsb {n : Nat} {c : Code} (hc : c.toNat < 2 ^ n) : BitVec.ofNat 16 (bitsValue (bitsMsb n c)) = c := by
  rw [bitsValue, foldl_bitsMsb, Nat.zero_mul, Nat.zero_add, Nat.mod_eq_of_lt hc, BitVec.ofNat_toNat, BitVec.setWidth_eq]

/-- Codes of `n` bits are read back from their bits; fewer than `n` bits after them are no code. -/
theorem readCodes_flatMap_bitsMsb {n : Nat} {cs : List Code} {rest : List Bool} {fuel : Nat}
    (hcs : ∀ c ∈ cs, c.toNat < 2 ^ n) (hrest : rest.length < n) (hfuel : cs.length ≤ fuel) :
    readCodes n fuel (cs.flatMap (bitsMsb n) ++ rest) = cs := by
  induction cs generalizing fuel with
  | nil =>
    cases fuel with
    | zero => rfl
    | succ fuel => exact if_pos hrest
  | cons c cs ih =>
    cases fuel with
    | zero => exact absurd hfuel (Nat.not_succ_le_zero _)
    | succ fuel =>
      have hlen := bitsMsb_length n c
      have hlong : ¬ (bitsMsb n c ++ (cs.flatMap (bitsMsb n) ++ rest)).length < n := by
        rw [List.length_append, hlen]
        omega
      rw [List.flatMap_cons, List.append_assoc, readCodes, if_neg hlong, List.take_left' hlen, List.drop_left' hlen,
        bitsValue_bitsMsb (hcs c List.mem_cons_self),
        ih (fun c hc => hcs c (List.mem_cons_of_mem _ hc)) (Nat.le_of_succ_le_succ hfuel)]

/-- The decoder reads a stream of packed codes as those codes. -/
theorem expandStream_of_packed {z : List Byte} {cs : List Code} (hcs : ∀ c ∈ cs, c.toNat < 2 ^ 13)
    (hz : z.flatMap (bitsMsb 8) = padBits (cs.flatMap (bitsMsb 13))) :
    expandStream reference z = expandCodes reference cs ⟨[], none⟩ := by
  have hlen := congrArg List.length hz
  rw [padBits, List.length_append, flatMap_bitsMsb_length, flatMap_bitsMsb_length] at hlen
  rw [expandStream, hz, padBits, reference_nbits, readCodes_flatMap_bitsMsb hcs]
  · rw [List.length_replicate]
    omega
  · omega

/-! ### The strings of the codes (R199, R202) -/

/-- The string a code stands for, with the strings of the learned codes in a table. -/
def codeString (T : List (List Byte)) (c : Code) : Option (List Byte) :=
  if c.toNat < 256 then some [c.setWidth 8] else if c.toNat < 257 then none else T[c.toNat - 257]?

/-- What a code with a string is: a literal or a code of the table. -/
theorem codeString_eq_some_iff {T : List (List Byte)} {c : Code} {w : List Byte} : codeString T c = some w ↔
    (c.toNat < 256 ∧ w = [c.setWidth 8]) ∨ (257 ≤ c.toNat ∧ T[c.toNat - 257]? = some w) := by
  unfold codeString
  split
  · rename_i hlit
    simp [hlit, Nat.not_le.2 (Nat.lt_succ_of_lt hlit), eq_comm]
  · rename_i hlit
    split
    · rename_i hclear
      simp [hlit, Nat.not_le.2 hclear]
    · rename_i hclear
      simp [hlit, Nat.not_lt.1 hclear]

theorem codeString_literal (T : List (List Byte)) (b : Byte) : codeString T (literalCode b) = some [b] := by
  refine codeString_eq_some_iff.2 (.inl ⟨literalCode_toNat_lt b, ?_⟩)
  rw [literalCode, BitVec.zeroExtend, BitVec.setWidth_setWidth_of_le _ (by omega), BitVec.setWidth_eq]

/-- A longer table has the strings of the shorter one. -/
theorem codeString_append {T : List (List Byte)} {c : Code} {w : List Byte} (h : codeString T c = some w)
    (T' : List (List Byte)) : codeString (T ++ T') c = some w := by
  rw [codeString_eq_some_iff] at h ⊢
  exact h.imp_right fun ⟨hlo, hget⟩ =>
    ⟨hlo, (List.getElem?_append_left (List.getElem?_eq_some_iff.1 hget).1).trans hget⟩

/-- A code with a string is not reserved. -/
theorem codeString_not_reserved {T : List (List Byte)} (hT : T.length ≤ 7934) {c : Code} {w : List Byte}
    (h : codeString T c = some w) : c.toNat ≠ 8191 ∧ c.toNat ≠ 256 := by
  rcases codeString_eq_some_iff.1 h with ⟨hlit, _⟩ | ⟨hlo, hget⟩
  · omega
  · have hlen := (List.getElem?_eq_some_iff.1 hget).1
    omega

/-- The table has the strings of the coder's codes: the phrase of a code and a byte is the code's string and the byte. -/
structure Coder.Spells (k : Coder) (T : List (List Byte)) : Prop where
  bounded : k.Bounded
  free : k.free = 257 + T.length
  nonempty : ∀ t ∈ T, t ≠ []
  phrase : ∀ c b d, k.find (c, b) = some d → ∃ v, codeString T c = some v ∧ codeString T d = some (v ++ [b])

theorem Coder.spells_restart (b : Byte) : (Coder.restart b).Spells [] where
  bounded := Coder.bounded_restart b
  free := rfl
  nonempty := by simp
  phrase := nofun

section
variable {k : Coder} {T : List (List Byte)} (h : k.Spells T)
include h

theorem Coder.Spells.length_le : T.length ≤ 7934 := by
  have hlen := h.bounded.free_le
  rw [h.free] at hlen
  omega

theorem Coder.Spells.string_ne_nil {c : Code} {w : List Byte} (hw : codeString T c = some w) : w ≠ [] := by
  rcases codeString_eq_some_iff.1 hw with ⟨_, rfl⟩ | ⟨_, hget⟩
  · exact List.cons_ne_nil _ _
  · exact h.nonempty w (List.mem_of_getElem? hget)

/-- The phrase that is learned has the next place of the table. -/
theorem Coder.Spells.learn (hroom : k.free < 8191) {c : Code} {w : List Byte} (hw : codeString T c = some w) (b : Byte) :
    (k.learn c b).Spells (T ++ [w ++ [b]]) where
  bounded := h.bounded.learn hroom c b
  free := by
    rw [List.length_append, List.length_singleton, ← Nat.add_assoc, ← h.free]
    rfl
  nonempty := by
    intro t ht
    rcases List.mem_append.1 ht with ht | ht
    · exact h.nonempty t ht
    · rw [List.mem_singleton.1 ht]
      exact List.append_ne_nil_of_right_ne_nil _ (List.cons_ne_nil _ _)
  phrase := by
    intro c' b' d hfind
    by_cases hx : (c', b') = (c, b)
    · obtain ⟨rfl, rfl⟩ := Prod.mk.inj hx
      rw [Coder.find_learn_same] at hfind
      refine ⟨w, codeString_append hw _, codeString_eq_some_iff.2 (.inr ?_)⟩
      rw [← Option.some.inj hfind, toNat_ofNat_free h.bounded, h.free, Nat.add_sub_cancel_left]
      exact ⟨Nat.le_add_right _ _, List.getElem?_concat_length ..⟩
    · rw [Coder.find_learn_other k hx] at hfind
      obtain ⟨v, hv, hd⟩ := h.phrase c' b' d hfind
      exact ⟨v, codeString_append hv _, codeString_append hd _⟩

end

/-! ### The decoder trails the coder by one phrase (R202) -/

/-- Where the decoder is when the code of `w` is the next to come: at the start of a dictionary, or with all of the
coder's table but its last string, which is the decoder's previous string and the first byte of `w`. -/
def Trails (x : Expander) (T : List (List Byte)) (w : List Byte) : Prop :=
  (x = ⟨[], none⟩ ∧ T = []) ∨ ∃ p, x.prev = some p ∧ p ≠ [] ∧ T = x.table ++ [p ++ w.take 1]

/-- More bytes of the pending phrase change nothing for the decoder. -/
theorem Trails.extend {x : Expander} {T : List (List Byte)} {w : List Byte} (h : Trails x T w) (hw : w ≠ [])
    (v : List Byte) : Trails x T (w ++ v) := by
  obtain ⟨a, l, rfl⟩ := List.exists_cons_of_ne_nil hw
  exact h

/-- The decoder knows the string of the next code, even of the one it has still to assign. -/
theorem Expander.string_of_codeString {x : Expander} {p w : List Byte} {c : Code} (hp : p ≠ [])
    (h : codeString (x.table ++ [p ++ w.take 1]) c = some w) : x.string reference p c = some w := by
  unfold Expander.string
  rcases codeString_eq_some_iff.1 h with ⟨hlit, rfl⟩ | ⟨hlo, hget⟩
  · exact if_pos hlit
  · have hlen := (List.getElem?_eq_some_iff.1 hget).1
    rw [List.length_append, List.length_singleton] at hlen
    rw [if_neg (by omega), reference_firstFree, if_neg (by omega)]
    by_cases hnew : c.toNat - 257 = x.table.length
    · rw [hnew, List.getElem?_concat_length, Option.some.injEq] at hget
      obtain ⟨a, l, rfl⟩ := List.exists_cons_of_ne_nil hp
      have htake : w.take 1 = [a] := by
        rw [← hget]
        rfl
      rw [htake] at hget
      rw [hnew, List.getElem?_eq_none le_rfl]
      simp only
      rw [if_pos (by omega)]
      exact congrArg some hget
    · rw [List.getElem?_append_left (by omega)] at hget
      rw [hget]

/-- The next code gives its string, and brings the decoder's table up to the coder's. -/
theorem expandCodes_cons {x : Expander} {T : List (List Byte)} {w : List Byte} {c : Code} (cs : List Code)
    (hT : T.length ≤ 7934) (hw : codeString T c = some w) (h : Trails x T w) :
    expandCodes reference (c :: cs) x = (expandCodes reference cs ⟨T, some w⟩).map (fun r => w ++ r) := by
  obtain ⟨heos, hclear⟩ := codeString_not_reserved hT hw
  rw [expandCodes, reference_eosCode, if_neg heos, reference_clearCode, if_neg hclear]
  rcases h with ⟨rfl, rfl⟩ | ⟨p, hprev, hp, rfl⟩
  · rcases codeString_eq_some_iff.1 hw with ⟨hlit, rfl⟩ | ⟨_, hget⟩
    · exact if_pos hlit
    · cases hget
  · rw [List.length_append, List.length_singleton] at hT
    have hroom : reference.firstFree + x.table.length < reference.maxCode := by
      rw [reference_firstFree, reference_maxCode]
      omega
    simp only [hprev, Expander.string_of_codeString hp hw, if_pos hroom]

/-- The codes of a string give the pending phrase and the string. -/
theorem expandCodes_codes {k : Coder} {x : Expander} {T : List (List Byte)} {c : Code} {w : List Byte} (bs : List Byte)
    (h : k.Spells T) (hc : k.cur = some c) (hw : codeString T c = some w) (hx : Trails x T w) :
    expandCodes reference (Coder.codes reference bs k) x = some (w ++ bs) := by
  induction bs generalizing k x T c w with
  | nil =>
    rw [Coder.codes, hc, Option.toList_some, List.singleton_append, expandCodes_cons _ h.length_le hw hx]
    rfl
  | cons b bs ih =>
    have hne := h.string_ne_nil hw
    rw [Coder.codes_cons]
    rcases Coder.feed_cases b k with ⟨hc', _⟩ | ⟨c', d, hc', hfind, e⟩ | ⟨c', hc', hfind, hroom, e⟩ |
      ⟨c', hc', hfind, _, e⟩ <;> rw [hc] at hc' <;> cases hc' <;> rw [e]
    · obtain ⟨v, hv, hd⟩ := h.phrase c b d hfind
      cases hw.symm.trans hv
      have hk : Coder.Spells { k with cur := some d } T :=
        ⟨h.bounded.setCur (h.bounded.find_lt _ d hfind), h.free, h.nonempty, h.phrase⟩
      rw [List.nil_append, ih hk rfl hd (hx.extend hne [b]), List.append_assoc, List.singleton_append]
    · rw [List.singleton_append, expandCodes_cons _ h.length_le hw hx,
        ih (h.learn hroom hw b) rfl (codeString_literal _ b) (.inr ⟨w, rfl, hne, rfl⟩)]
      rfl
    · have hclear : ∀ (cs : List Code) (y : Expander),
          expandCodes reference (256 :: cs) y = expandCodes reference cs ⟨[], none⟩ := fun _ _ => rfl
      rw [List.cons_append, List.singleton_append, expandCodes_cons _ h.length_le hw hx, hclear,
        ih (Coder.spells_restart b) rfl (codeString_literal _ b) (.inl ⟨rfl, rfl⟩)]
      rfl

/-- The decoder recovers every string from the coder's codes. -/
theorem expandCodes_initial (bs : List Byte) :
    expandCodes reference (Coder.codes reference bs (Coder.initial reference)) ⟨[], none⟩ = some bs := by
  cases bs with
  | nil => rfl
  | cons b bs => exact expandCodes_codes bs (Coder.spells_restart b) rfl (codeString_literal _ b) (.inl ⟨rfl, rfl⟩)

/-- Settles O35: the stream holds the abstract coder's codes, and the decoder trails the coder by one phrase. -/
theorem compressionRoundTrips : Obligations.CompressionRoundTrips := by
  intro s bs
  obtain ⟨t, z, hrun, hsink, hbits⟩ := compressedStreamIsThatOfTheAbstractCoder s bs
  refine ⟨t, z, hrun, hsink, ?_⟩
  rw [expandStream_of_packed (Coder.bounded_initial.codes_lt bs) hbits, expandCodes_initial]

end Sys2Proof.Machine

/-! Scope: the family of spec/43_session.md. The configuration commands share one law, `configures`; `START` and `STOP` are
compositions of the steps of the units; `POP` is read off what the queue, the refill and the delivery do, and the drain is
an induction over the bytes in the queue. -/

namespace Sys2Proof.Machine

open Sys2Proof.Claims

/-! ### The configuration commands (R230) -/

/-- An operand out of range is answered 0x3000, whatever `session` is (R262). -/
theorem configure_of_not_legal {legal : Bool} (t : State) {s : State} (hl : ¬ legal = true) :
    configure legal t s = .next { s with cResponses := s.cResponses ++ [0x3000] } := by
  rcases configure_cases legal t s with ⟨_, e⟩ | ⟨h, _, _⟩ | ⟨h, _, _⟩
  · rw [e, raiseError_eq, respError_invalidConfiguration, respond_c_eq]
  · exact absurd h hl
  · exact absurd h hl

/-- Outside `Idle` a legal operand is refused. -/
theorem configure_of_not_idle {legal : Bool} (t : State) {s : State} (hl : legal = true) (hi : s.session ≠ .idle) :
    configure legal t s = .next { s with cResponses := s.cResponses ++ [0x4000] } := by
  rcases configure_cases legal t s with ⟨h, _⟩ | ⟨_, h, _⟩ | ⟨_, _, e⟩
  · rw [h] at hl
    cases hl
  · exact absurd h hi
  · rw [e, raiseError_c_refused]

/-- A command of port C that is the common behaviour of R230 with the given range. Its register write `t` needs to be the
stated one for operands in range only. -/
theorem configures_of_configure {op : BitVec 8} {i : Imm → Instr} {lo hi : Nat} {write : Imm → State → State}
    (henc : ∀ n, encode (i n) = op ++ n ∧ (i n).port = .c)
    (hexec : ∀ n s, ∃ t, exec (i n) s = configure (inRange lo hi n) t s ∧ (n.toNat ≤ hi → t = write n s))
    (hresp : ∀ n s, (write n s).cResponses = s.cResponses) : configures op i lo hi write := by
  intro n s
  obtain ⟨hword, hport⟩ := henc n
  obtain ⟨t, e, hwrite⟩ := hexec n s
  rw [e]
  refine ⟨hport ▸ encodedAt_of_encode hword, fun hout => ?_, fun hin hbusy => ?_, fun hin hidle => ?_⟩
  · exact configure_of_not_legal t (mt (inRange_iff lo hi n).1 hout)
  · exact configure_of_not_idle t ((inRange_iff lo hi n).2 hin) hbusy
  · rw [configure_of_legal t ((inRange_iff lo hi n).2 hin) hidle, hwrite hin.2, hresp]

theorem imm_eq_zero_or_one {n : Imm} (h : n.toNat ≤ 1) : n = 0 ∨ n = 1 := by
  rcases Nat.le_one_iff_eq_zero_or_eq_one.1 h with h0 | h1
  · exact .inl (BitVec.eq_of_toNat_eq h0)
  · exact .inr (BitVec.eq_of_toNat_eq h1)

theorem modeOf_of_le_one {n : Imm} (h : n.toNat ≤ 1) : modeOf n = if n = 0 then .continuous else .transitionOnly := by
  rcases imm_eq_zero_or_one h with rfl | rfl <;> rfl

theorem enableOf_of_le_one {n : Imm} (h : n.toNat ≤ 1) : enableOf n = decide (n = 1) := by
  rcases imm_eq_zero_or_one h with rfl | rfl <;> rfl

/-- Settles O37: the common law, for each of the five registers. -/
theorem configurationCommandsValidateAndWrite : Obligations.ConfigurationCommandsValidateAndWrite := by
  refine ⟨configures_of_configure (fun _ => ⟨rfl, rfl⟩) (fun n s => ⟨_, rfl, fun _ => ?_⟩) (fun _ _ => rfl),
    configures_of_configure (fun _ => ⟨rfl, rfl⟩) (fun n s => ⟨_, rfl, fun _ => rfl⟩) (fun _ _ => rfl),
    configures_of_configure (fun _ => ⟨rfl, rfl⟩) (fun n s => ⟨_, rfl, fun _ => ?_⟩) (fun _ _ => rfl),
    configures_of_configure (fun _ => ⟨rfl, rfl⟩) (fun n s => ⟨_, rfl, fun hbit => ?_⟩) (fun _ _ => rfl),
    configures_of_configure (fun _ => ⟨rfl, rfl⟩) (fun n s => ⟨_, rfl, fun hbit => ?_⟩) (fun _ _ => rfl)⟩
  · rw [BitVec.ofNat_toNat]
  · rw [BitVec.ofNat_toNat]
  · rw [modeOf_of_le_one hbit]
  · rw [enableOf_of_le_one hbit]

/-- Settles O38: each register is wide enough for its range. -/
theorem configurationValuesAreHeldWhole : Obligations.ConfigurationValuesAreHeldWhole := by
  refine fun n s hi => ⟨fun hlo hhi => ?_, fun hlo hhi => ?_, fun hlo hhi => ?_⟩
  · have hfits : n.toNat < 2 ^ 4 := by omega
    exact ⟨_, exec_cfgch_of_legal hi hlo hhi, (BitVec.toNat_ofNat _ _).trans (Nat.mod_eq_of_lt hfits)⟩
  · exact ⟨_, exec_cfgrate_of_legal hi hlo hhi, rfl⟩
  · have hfits : n.toNat < 2 ^ 17 := by omega
    exact ⟨_, exec_cfgdur_of_legal hi hlo hhi, (BitVec.toNat_ofNat _ _).trans (Nat.mod_eq_of_lt hfits)⟩

/-! ### `START`, `STOP` and `SSTAT` (R232, R233, R236) -/

theorem runStart_of_idle (P : Params) {s : State} (h : s.session = .idle) :
    runStart P s = .next (startSession P s) := by
  rw [runStart, if_pos h]

theorem runStart_of_not_idle (P : Params) {s : State} (h : s.session ≠ .idle) :
    runStart P s = .next (raiseError .c .refused s) := by
  rw [runStart, if_neg h]

/-- Settles O40: the steps of `START` in the two compression settings; `CINIT` does not fail on this hardware. -/
theorem startBeginsSession : Obligations.StartBeginsSession := by
  refine fun s => ⟨fun h => ?_, fun h => ?_⟩
  · rw [← raiseError_c_refused]
    exact runStart_of_not_idle reference h
  · refine (runStart_of_idle reference h).trans (congrArg _ ?_)
    rw [← stackMaskOf_reference]
    rcases startSession_cases reference s with ⟨hc, _, e⟩ | ⟨_, hfail, _⟩ | ⟨hc, e⟩
    · rw [e, if_pos hc, respOk_eq]
      rfl
    · rw [reference_cmpInitOk] at hfail
      cases hfail
    · rw [e, if_neg (ne_true_of_eq_false hc), respOk_eq]
      rfl

/-- A run of `Enq`s does not read the answers, so an answer at port C may be given before it. -/
theorem respond_c_enqAll (P : Params) (r : RespWord) (vs : List Byte) (s : State) :
    respond .c r (enqAll P vs s) = enqAll P vs (respond .c r s) := by
  calc respond .c r (enqAll P vs s)
    _ = (respond .c r s).withQueueOf (enqAll P vs s) := by rw [enqAll_frame]; rfl
    _ = enqAll P vs ((respond .c r s).withQueueOf s) := (enqAll_withQueueOf P vs s _).symm

/-- In transition-only mode `FINAL` always records its synthetic sample (R170). -/
theorem finalStep_transitionOnly_eq {s : State} (hm : s.cfgMode = .transitionOnly) :
    finalStep reference s = (transitionBytes (s.interruptCount + 1) true (finalSample s), { s with
      interruptCount := s.interruptCount + 1
      previousSample := finalSample s
      firstSample := false }) := by
  have hdue : (s.firstSample || finalSample s != s.previousSample) = true := finalSample_due s
  have heffect : s.firstSample = true ∨ finalSample s ≠ s.previousSample := by simpa using hdue
  rw [finalStep_of_transitionOnly reference hm, encStep_transitionOnly_eq (finalSample s) hm, hdue, transitionEffect,
    if_pos heffect]

/-- `STOP` in `Active`: the bytes of `FINAL` are enqueued on the state it leaves, `Draining` and answered `Ok`. -/
theorem exec_stop_of_finalStep {s u : State} {out : List Byte} (h : s.session = .active)
    (hf : finalStep reference { s with session := .draining } = (out, u)) :
    exec .stop s = .next (enqAll reference out { u with cResponses := u.cResponses ++ [0x0000] }) := by
  change runStop reference s = _
  rw [runStop_active reference h, hf, respond_c_enqAll, respOk_eq, respond_c_eq]

/-- Settles O41: the refusal, and the two modes of `FINAL`. -/
theorem stopDrainsAndInjectsFinalSample : Obligations.StopDrainsAndInjectsFinalSample := by
  refine fun s => ⟨encodedAt_of_encode (i := .stop) rfl, fun h => ?_, fun h hm => ?_, fun h hm => ?_⟩
  · rw [← raiseError_c_refused]
    exact runStop_of_not_active reference h
  · exact exec_stop_of_finalStep h (finalStep_of_continuous reference hm)
  · exact exec_stop_of_finalStep h (finalStep_transitionOnly_eq hm)

/-- Settles O47: the number of each session state, answered as data. -/
theorem sstatReadsSession : Obligations.SstatReadsSession := by
  refine fun s => ⟨encodedAt_of_encode (i := .sstat) rfl, ?_⟩
  change Host.Outcome.next (respond .c (respSome s.session.code) s) = _
  rw [respond_c_eq, respSome_eq]
  cases s.session <;> rfl

/-! ### `POP` with compression off (R235) -/

section
variable {s : State} (hoff : s.cfgCompressionEnabled = false)
include hoff

theorem exec_pop_of_uncompressed : exec .pop s = .next (popQueue reference s) := by
  change runPop reference s = _
  rw [runPop, hoff, if_neg Bool.false_ne_true]

theorem exec_pop_of_queued (hc : s.count ≠ 0) : exec .pop s = .next { s with
    head := s.head + 1
    count := s.count - 1
    cResponses := s.cResponses ++ [0x0100 ||| (s.buf.read 0 s.head.toNat).zeroExtend 16] } := by
  rw [exec_pop_of_uncompressed hoff]
  rcases popQueue_cases reference s with ⟨h, _⟩ | ⟨_, e⟩
  · exact absurd h hc
  · rw [e, advance_reference, respSome_eq]
    rfl

theorem exec_pop_of_empty (hc : s.count = 0) : exec .pop s = .next { s with
    session := if s.session = .draining then .idle else s.session
    cResponses := s.cResponses ++ [0x0000] } := by
  rw [exec_pop_of_uncompressed hoff]
  rcases popQueue_cases reference s with ⟨_, e⟩ | ⟨h, _⟩
  · rw [e, respNone_eq]
    split <;> rfl
  · exact absurd hc h

end

/-- Settles O44: a queue with a byte, and an empty one. -/
theorem popDeliversQueueByte : Obligations.PopDeliversQueueByte :=
  fun _ hoff => ⟨exec_pop_of_queued hoff, exec_pop_of_empty hoff⟩

/-! ### The drain with compression off (R234) -/

/-- A queue that is not empty is its oldest byte and the queue without it, which meets the invariant (R140, R146). -/
theorem queue_takes {s : State} (h : QueueInv reference s) (hc : s.count ≠ 0) :
    queueBytes reference s =
      s.buf.read 0 s.head.toNat :: queueBytes reference { s with head := s.head + 1, count := s.count - 1 } ∧
    QueueInv reference { s with head := s.head + 1, count := s.count - 1 } := by
  obtain ⟨hbytes, hinv, _⟩ := deq_takes h hc
  rcases deq_cases reference s with ⟨h0, _⟩ | ⟨_, e⟩
  · exact absurd h0 hc
  · rw [e, advance_reference] at hbytes hinv
    exact ⟨hbytes, hinv⟩

theorem queueBytes_eq_nil_iff {s : State} : queueBytes reference s = [] ↔ s.count = 0 := by
  rw [← List.length_eq_zero_iff, queueBytes_length, ← BitVec.toNat_inj]
  rfl

/-- One `POP` for each byte in the queue, and one that closes the session. -/
theorem runCommands_pop_drains {vs : List Byte} {s : State} (h : QueueInv reference s)
    (hoff : s.cfgCompressionEnabled = false) (hd : s.session = .draining) (hq : queueBytes reference s = vs) :
    ∃ t, runCommands (List.replicate (vs.length + 1) .pop) s = .next t ∧
      t.cResponses = s.cResponses ++ vs.map (fun v => 0x0100 ||| v.zeroExtend 16) ++ [0x0000] ∧
      t.session = .idle ∧ t.count = 0 ∧ t.overflow = s.overflow := by
  induction vs generalizing s with
  | nil =>
    have hc := queueBytes_eq_nil_iff.1 hq
    refine ⟨_, runCommands_cons (exec_pop_of_empty hoff hc), ?_, if_pos hd, hc, rfl⟩
    rw [List.map_nil, List.append_nil]
  | cons v vs ih =>
    have hc : s.count ≠ 0 := fun h0 => by simp [queueBytes_eq_nil_iff.2 h0] at hq
    obtain ⟨hbytes, hinv⟩ := queue_takes h hc
    obtain ⟨rfl, hrest⟩ := List.cons.inj (hbytes.symm.trans hq)
    obtain ⟨t, hrun, hresp, hidle, hempty, hovf⟩ := ih (s := { s with
      head := s.head + 1
      count := s.count - 1
      cResponses := s.cResponses ++ [0x0100 ||| (s.buf.read 0 s.head.toNat).zeroExtend 16] }) hinv hoff hd hrest
    refine ⟨t, (runCommands_cons (exec_pop_of_queued hoff hc)).trans hrun, ?_, hidle, hempty, hovf⟩
    rw [hresp, List.map_cons, List.append_assoc s.cResponses, List.singleton_append]

/-- Settles O48: the drain of the bytes in the queue, `count` of them. -/
theorem uncompressedDrainDeliversEverything : Obligations.UncompressedDrainDeliversEverything := by
  intro s h hoff hd
  rw [← queueBytes_length reference s]
  exact runCommands_pop_drains h hoff hd rfl

/-! ### `POP` with compression on (R235) -/

theorem deliverSink_eq_delivered (s : State) : deliverSink s = delivered s := by
  unfold delivered
  rcases deliverSink_cases s with ⟨v, rest, hs, e⟩ | ⟨hs, hd, hr, e⟩ | ⟨hs, hopen, e⟩ <;> rw [e, respond_c_eq]
  · simp only [hs, respSome_eq]
  · simp only [hs, hd, hr, and_self, if_true, respNone_eq]
  · simp only [hs, if_neg hopen, respNone_eq]

/-- With compression on `POP` is its refill and its delivery. -/
theorem exec_pop_of_refill {s u : State} (hon : s.cfgCompressionEnabled = true)
    (h : refillSink reference s = .next u) : exec .pop s = .next (delivered u) := by
  change runPop reference s = _
  rw [runPop, if_pos hon, h, ← deliverSink_eq_delivered]
  rfl

section
variable (P : Params) {s : State}

theorem refillSink_of_not_due (h : s.sink ≠ [] ∨ s.cmpReady = false) : refillSink P s = .next s := by
  rcases refillSink_cases P s with ⟨_, e⟩ | ⟨hs, hr, _⟩ | ⟨hs, hr, _⟩ | ⟨_, _, _, _, e⟩
  · exact e
  · simp [hs, hr] at h
  · simp [hs, hr] at h
  · exact e

theorem refillSink_of_waiting (hc : s.count = 0) (hd : s.session ≠ .draining) : refillSink P s = .next s := by
  rcases refillSink_cases P s with ⟨_, e⟩ | ⟨_, _, h, _⟩ | ⟨_, _, _, h, _⟩ | ⟨_, _, _, _, e⟩
  · exact e
  · exact absurd hc h
  · exact absurd h hd
  · exact e

variable (hs : s.sink = []) (hr : s.cmpReady = true)
include hs hr

theorem refillSink_of_queued (hc : s.count ≠ 0) : refillSink P s =
    compressByte P (s.buf.read bufUnlisted s.head.toNat) { s with head := advance P s.head, count := s.count - 1 } := by
  rcases refillSink_cases P s with ⟨h, _⟩ | ⟨_, _, _, e⟩ | ⟨_, _, h, _⟩ | ⟨_, _, h, _⟩
  · simp [hs, hr] at h
  · exact e
  · exact absurd h hc
  · exact absurd h hc

theorem refillSink_of_drained (hc : s.count = 0) (hd : s.session = .draining) :
    refillSink P s = .next (flushCompressor P s) := by
  rcases refillSink_cases P s with ⟨h, _⟩ | ⟨_, _, h, _⟩ | ⟨_, _, _, _, e⟩ | ⟨_, _, _, h, _⟩
  · simp [hs, hr] at h
  · exact absurd hc h
  · exact e
  · exact absurd hd h

end

/-- A state is its answered form with the answer taken back. -/
theorem respond_c_undo {r : RespWord} {s u : State} (h : u.cResponses = s.cResponses) :
    { respond .c r u with cResponses := s.cResponses } = u := by
  rw [← h]
  rfl

/-- Settles O45: the four cases of the refill; under the invariants of R200 `CBYTE` completes. -/
theorem popDeliversCompressedByte : Obligations.PopDeliversCompressedByte := by
  intro s hon hinv _
  refine ⟨fun h => ?_, fun hs hr hc => ?_, fun hs hr hc hd => ?_, fun _ _ hc hd => ?_⟩
  · exact exec_pop_of_refill hon (refillSink_of_not_due reference h)
  · obtain ⟨u, hu⟩ := compressByte_completes (s := { s with head := s.head + 1, count := s.count - 1 })
      (s.buf.read 0 s.head.toNat) (hinv.of_frame rfl) hr
    have hrefill := refillSink_of_queued reference hs hr hc
    rw [advance_reference] at hrefill
    refine ⟨_, exec_cbyte_of_next hr hu, ?_⟩
    rw [respond_c_undo (samePorts_compressByte hu).cResponses]
    exact exec_pop_of_refill hon (hrefill.trans hu)
  · refine ⟨_, exec_cflush_of_ready hr, ?_⟩
    rw [respond_c_undo (samePorts_flushCompressor reference s).cResponses]
    exact exec_pop_of_refill hon (refillSink_of_drained reference hs hr hc hd)
  · exact exec_pop_of_refill hon (refillSink_of_waiting reference hc hd)

end Sys2Proof.Machine

/-! Scope: the family of spec/60_exceptions.md. What a command may write (R275) is one table, `State.withWritesOf`.
`Performs` says of each command that it keeps to the table and that, answered 0x3000 or 0x4000, it has changed nothing
(R262, R265). The failed initialisation (R263) and the idle block (R280) are read off the steps. -/

namespace Sys2Proof.Machine

/-! ### The idle block (R280) -/

theorem step_of_no_turn {s : State} (ht : s.turns = []) : step s = .next s := by
  simp [step, ht]

theorem step_of_no_cCmds {s : State} {rest : List Port} (ht : s.turns = .c :: rest) (hc : s.cCmds = []) :
    step s = .next { s with turns := rest } := by
  simp [step, stepAt, stepC, ht, hc]

theorem step_of_no_pCmds {s : State} {rest : List Port} (ht : s.turns = .p :: rest) (hp : s.pPending = [])
    (hc : s.pCmds = []) : step s = .next { s with turns := rest } := by
  simp [step, stepAt, stepP, ht, hp, hc]

/-- Settles O6: without a turn, and without work at either port. -/
theorem idleBlockHoldsItsState : Obligations.IdleBlockHoldsItsState :=
  ⟨fun _ => step_of_no_turn, fun _ _ => step_of_no_cCmds, fun _ _ => step_of_no_pCmds⟩

/-! ### The initialisation of the compressor (R263) -/

section
variable {P : Params} (s : State)

theorem runCinit_of_meetsR8 (hP : P.meetsR8 = true) :
    runCinit P s = .next (respond .c respOk (initCompressor P s)) := by
  have hok : P.cmpInitOk = true := hP
  rw [runCinit, if_pos hok]

theorem runCinit_of_not_meetsR8 (hP : P.meetsR8 = false) :
    runCinit P s = .next (raiseError .c .compressorInitFailure { s with cmpReady := false }) := by
  have hfails : ¬ P.cmpInitOk = true := ne_true_of_eq_false hP
  rw [runCinit, if_neg hfails]

/-- Unless `CINIT` is called for and fails, `START` answers `Ok` and the session is active (R232). -/
theorem startSession_begins (h : s.cfgCompressionEnabled = true → P.meetsR8 = true) :
    (startSession P s).session = .active ∧ (startSession P s).cResponses = s.cResponses ++ [0x0000] := by
  rcases startSession_cases P s with ⟨_, _, e⟩ | ⟨hon, hfails, _⟩ | ⟨_, e⟩
  · rw [e, respOk_eq]
    exact ⟨rfl, rfl⟩
  · exact absurd (h hon) (ne_true_of_eq_false hfails)
  · rw [e, respOk_eq]
    exact ⟨rfl, rfl⟩

/-- With compression on and parameters that break R8, `START` clears the queue and fails (R232, R263). -/
theorem startSession_fails (hP : P.meetsR8 = false) (hon : s.cfgCompressionEnabled = true) :
    startSession P s =
      raiseError .c .compressorInitFailure { clearQueue P s with sink := [], cmpReady := false } := by
  rcases startSession_cases P s with ⟨_, hok, _⟩ | ⟨_, _, e⟩ | ⟨hoff, _⟩
  · exact absurd hok (ne_true_of_eq_false hP)
  · exact e
  · exact absurd hon (ne_true_of_eq_false hoff)

end

/-- Settles O25: `CINIT` and `START` for parameters that meet R8 and for those that break it. -/
theorem initialisationFailsExactlyForBadParameters : Obligations.InitialisationFailsExactlyForBadParameters := by
  intro P s
  refine ⟨fun hP => ?_, fun hP => ?_, fun hP hidle => ?_, fun hP hidle hon => ?_, fun _ hidle hoff => ?_⟩
  · refine ⟨_, runCinit_of_meetsR8 s hP, rfl, ?_⟩
    rw [respOk_eq]
    rfl
  · refine ⟨_, runCinit_of_not_meetsR8 s hP, rfl, ?_⟩
    rw [raiseError_eq, respError_compressorInitFailure]
    rfl
  · exact ⟨_, runStart_of_idle P hidle, startSession_begins s fun _ => hP⟩
  · refine ⟨_, runStart_of_idle P hidle, ?_⟩
    rw [startSession_fails s hP hon, raiseError_eq, respError_compressorInitFailure]
    exact ⟨hidle, rfl, rfl, rfl, rfl, rfl, rfl⟩
  · refine ⟨_, runStart_of_idle P hidle, startSession_begins s fun hon => ?_⟩
    rw [hoff] at hon
    cases hon

/-! ### What a command may write (R275) -/

/-- `s` with the answers of both ports and the bytes that wait taken from `t`. -/
def State.withAnswersOf (s t : State) : State :=
  { s with pPending := t.pPending, pResponses := t.pResponses, cResponses := t.cResponses }

/-- `s` with what `Deq` writes taken from `t`. -/
def State.withFrontOf (s t : State) : State := { s with head := t.head, count := t.count }

/-- `s` with what the session-start reset of R141 writes taken from `t`. -/
def State.withClearedOf (s t : State) : State :=
  { s with
    head := t.head
    tail := t.tail
    count := t.count
    overflow := t.overflow
    stackedBits := t.stackedBits
    stackFill := t.stackFill
    stackMask := t.stackMask
    firstSample := t.firstSample
    previousSample := t.previousSample
    interruptCount := t.interruptCount }

/-- The table of R275: `s` with what the command may write, answers aside, taken from `t`. -/
def State.withWritesOf (s t : State) : Instr → State
  | .enq _ => s.withQueueOf t
  | .push _ => s.withEncoderOf t
  | .final => s.withEncoderOf t
  | .deq => s.withFrontOf t
  | .qempty _ => s
  | .qfull _ => s
  | .qovf _ => s
  | .qclear => s.withClearedOf t
  | .cinit => s.withCompressorOf t
  | .cbyte _ => s.withCompressorOf t
  | .cflush => s.withCompressorOf t
  | .cfgch _ => { s with cfgChannelCount := t.cfgChannelCount }
  | .cfgrate _ => { s with cfgSampleRateHz := t.cfgSampleRateHz }
  | .cfgdur _ => { s with cfgSessionDurationMs := t.cfgSessionDurationMs }
  | .cfgmode _ => { s with cfgMode := t.cfgMode }
  | .cfgcmp _ => { s with cfgCompressionEnabled := t.cfgCompressionEnabled }
  | .start => { (s.withClearedOf t).withCompressorOf t with session := t.session }
  | .stop => { (s.withQueueOf t).withEncoderOf t with session := t.session }
  | .pop => { s.withCompressorOf t with head := t.head, count := t.count, session := t.session }
  | .sstat => s

/-- Between `s` and `t` nothing has changed but what the command may write and the answers. -/
def WritesOwn (i : Instr) (s t : State) : Prop := t = (s.withWritesOf t i).withAnswersOf t

section
variable {i : Instr} {s t u : State}

/-- A change of the answers alone is within what every command may write. -/
theorem writesOwn_of_answers (h : t = s.withAnswersOf t) : WritesOwn i s t := by
  unfold WritesOwn
  rw [h]
  cases i <;> simp only [State.withWritesOf] <;> rfl

theorem writesOwn_respond (i : Instr) (port : Port) (r : RespWord) (s : State) : WritesOwn i s (respond port r s) :=
  writesOwn_of_answers (by cases port <;> rfl)

theorem WritesOwn.trans (h : WritesOwn i s t) (g : WritesOwn i t u) : WritesOwn i s u := by
  unfold WritesOwn at *
  rw [g, h]
  cases i <;> simp only [State.withWritesOf] <;> rfl

/-! ### What a rejection is (R262, R265) -/

/-- The answer at port C is `INVALID_CONFIGURATION` or `REFUSED`. -/
def Rejected (s t : State) : Prop :=
  t.cResponses = s.cResponses ++ [0x3000] ∨ t.cResponses = s.cResponses ++ [0x4000]

theorem not_rejected_of_no_answer (h : t.cResponses = s.cResponses) : ¬ Rejected s t := by
  simp [Rejected, h]

/-- The two words are those of the two statuses alone: a word with data has bit 8 set. -/
theorem responseWord_ne_rejection {st : Status} (d : Option Byte)
    (hst : st ≠ .invalidConfiguration ∧ st ≠ .refused) :
    responseWord st d ≠ 0x3000 ∧ responseWord st d ≠ 0x4000 := by
  cases d with
  | none => revert hst; cases st <;> decide
  | some v =>
    have hv := v.isLt
    have hword := responseWord_some_toNat st v
    constructor <;> intro h <;> simp only [h, BitVec.reduceToNat] at hword <;> omega

theorem not_rejected_of_status {st : Status} {d : Option Byte} (hst : st ≠ .invalidConfiguration ∧ st ≠ .refused)
    (h : t.cResponses = s.cResponses ++ [responseWord st d]) : ¬ Rejected s t := by
  simpa [Rejected, h] using responseWord_ne_rejection d hst

/-! ### What every command keeps to -/

/-- The command has kept to what it may write, and if it was rejected it has changed nothing but the answer. -/
structure Performs (i : Instr) (s t : State) : Prop where
  writes : WritesOwn i s t
  rejected : Rejected s t → t = { s with cResponses := t.cResponses }

/-- A command that writes nothing and answers, whatever the answer. -/
theorem performs_respond (i : Instr) (port : Port) (r : RespWord) (s : State) : Performs i s (respond port r s) where
  writes := writesOwn_respond i port r s
  rejected h := by
    cases port with
    | p => exact absurd h (not_rejected_of_no_answer rfl)
    | c => rfl

/-- A command that writes what it may and answers with a status that is no rejection. -/
theorem WritesOwn.performs {port : Port} {st : Status} {d : Option Byte} (h : WritesOwn i s u)
    (hc : u.cResponses = s.cResponses) (hst : st ≠ .invalidConfiguration ∧ st ≠ .refused) :
    Performs i s (respond port (responseWord st d) u) where
  writes := h.trans (writesOwn_respond i port _ u)
  rejected hr := by
    cases port with
    | p => exact absurd hr (not_rejected_of_no_answer hc)
    | c => exact absurd hr (not_rejected_of_status hst (congrArg (· ++ [responseWord st d]) hc))

theorem WritesOwn.performs_ok {port : Port} {d : Option Byte} (h : WritesOwn i s u)
    (hc : u.cResponses = s.cResponses) : Performs i s (respond port (responseWord .ok d) u) :=
  h.performs hc (by decide)

end

/-! ### The commands, one by one -/

section
variable {P : Params} {s t u : State}

theorem runEnq_performs {v : Byte} (h : runEnq P v s = .next t) : Performs (.enq v) s t := by
  unfold runEnq at h
  rcases enq_cases P v s with ⟨_, e⟩ | ⟨_, e⟩ <;> rw [e] at h <;> cases h
  · exact WritesOwn.performs rfl rfl (by decide)
  · exact WritesOwn.performs_ok rfl rfl

/-- A composite P command writes what its encoder step does; the bytes that wait belong to its answer (R81). -/
theorem beginEnqueues_performs {i : Instr} (out : List Byte) (h : WritesOwn i s u)
    (hc : u.cResponses = s.cResponses) : Performs i s (beginEnqueues out u) := by
  rcases beginEnqueues_cases out u with ⟨_, e⟩ | ⟨_, e⟩ <;> rw [e]
  · exact h.performs_ok hc
  · have hwait : WritesOwn i u { u with pPending := out } := writesOwn_of_answers rfl
    exact ⟨h.trans hwait, fun hr => absurd hr (not_rejected_of_no_answer hc)⟩

theorem writesOwn_push (raw : Byte) (s : State) : WritesOwn (.push raw) s (encStep P raw s).2 := by
  rw [encStep_frame]; rfl

theorem writesOwn_final (s : State) : WritesOwn .final s (finalStep P s).2 := by
  rw [finalStep_frame]; rfl

theorem runDeq_performs (h : runDeq P s = .next t) : Performs .deq s t := by
  unfold runDeq at h
  rcases deq_cases P s with ⟨_, e⟩ | ⟨_, e⟩ <;> rw [e] at h <;> cases h
  · exact performs_respond _ _ _ s
  · exact WritesOwn.performs_ok rfl rfl

theorem runCinit_performs (h : runCinit P s = .next t) : Performs .cinit s t := by
  unfold runCinit at h
  split at h <;> cases h
  · exact WritesOwn.performs_ok rfl rfl
  · exact WritesOwn.performs rfl rfl (by decide)

theorem runCbyte_performs {b : Byte} (h : runCbyte P b s = .next t) : Performs (.cbyte b) s t := by
  unfold runCbyte at h
  split at h
  · obtain ⟨u, hu, e⟩ := andThen_eq_next h
    cases e
    have hwrites : WritesOwn (.cbyte b) s u := by rw [(compressByte_frame hu).1]; rfl
    exact hwrites.performs_ok (samePorts_compressByte hu).cResponses
  · cases h; exact performs_respond _ _ _ s

theorem runCflush_performs (h : runCflush P s = .next t) : Performs .cflush s t := by
  unfold runCflush at h
  split at h <;> cases h
  · have hwrites : WritesOwn .cflush s (flushCompressor P s) := by rw [flushCompressor_frame]; rfl
    exact hwrites.performs_ok (samePorts_flushCompressor P s).cResponses
  · exact performs_respond _ _ _ s

/-- The two rejections of R230 change nothing; the register write `u` is to be the command's own. -/
theorem configure_performs {i : Instr} {legal : Bool} (h : configure legal u s = .next t) (hu : WritesOwn i s u)
    (hc : u.cResponses = s.cResponses) : Performs i s t := by
  rcases configure_cases legal u s with ⟨_, e⟩ | ⟨_, _, e⟩ | ⟨_, _, e⟩ <;> rw [e] at h <;> cases h
  · exact performs_respond _ _ _ s
  · exact hu.performs_ok hc
  · exact performs_respond _ _ _ s

theorem runStart_performs (h : runStart P s = .next t) : Performs .start s t := by
  unfold runStart at h
  split at h <;> cases h
  · rcases startSession_cases P s with ⟨_, _, e⟩ | ⟨_, _, e⟩ | ⟨_, e⟩ <;> rw [e]
    · exact WritesOwn.performs_ok rfl rfl
    · exact WritesOwn.performs rfl rfl (by decide)
    · exact WritesOwn.performs_ok rfl rfl
  · exact performs_respond _ _ _ s

theorem runStop_performs (h : runStop P s = .next t) : Performs .stop s t := by
  by_cases ha : s.session = .active
  · rw [runStop_active P ha] at h
    cases h
    refine WritesOwn.performs_ok ?_ ?_ <;> rw [enqAll_frame, finalStep_frame] <;> rfl
  · rw [runStop, if_neg ha] at h
    cases h
    exact performs_respond _ _ _ s

theorem refillSink_writesOwn (h : refillSink P s = .next u) : WritesOwn .pop s u := by
  rcases refillSink_cases P s with ⟨_, e⟩ | ⟨_, _, _, e⟩ | ⟨_, _, _, _, e⟩ | ⟨_, _, _, _, e⟩ <;> rw [e] at h
  · cases h; exact writesOwn_of_answers rfl
  · rw [(compressByte_frame h).1]; rfl
  · cases h; rw [flushCompressor_frame]; rfl
  · cases h; exact writesOwn_of_answers rfl

theorem deliverSink_performs (h : WritesOwn .pop s u) (hc : u.cResponses = s.cResponses) :
    Performs .pop s (deliverSink u) := by
  rcases deliverSink_cases u with ⟨v, rest, _, e⟩ | ⟨_, _, _, e⟩ | ⟨_, _, e⟩ <;> rw [e]
  · have hdeliver : WritesOwn .pop u { u with sink := rest } := rfl
    exact (h.trans hdeliver).performs_ok hc
  · have hclose : WritesOwn .pop u { u with session := .idle } := rfl
    exact (h.trans hclose).performs_ok hc
  · exact h.performs_ok hc

theorem popQueue_performs (P : Params) (s : State) : Performs .pop s (popQueue P s) := by
  rcases popQueue_cases P s with ⟨_, e⟩ | ⟨_, e⟩ <;> rw [e]
  · split
    · exact WritesOwn.performs_ok rfl rfl
    · exact performs_respond _ _ _ s
  · exact WritesOwn.performs_ok rfl rfl

theorem runPop_performs (h : runPop P s = .next t) : Performs .pop s t := by
  rcases runPop_eq_next h with ⟨_, u, hu, rfl⟩ | ⟨_, rfl⟩
  · exact deliverSink_performs (refillSink_writesOwn hu) (samePorts_refillSink hu).cResponses
  · exact popQueue_performs P s

end

/-- Every command that completes keeps to the table of R275, and a rejected one changes nothing. -/
theorem exec_performs {i : Instr} {s t : State} (h : exec i s = .next t) : Performs i s t := by
  cases i with
  | enq v => exact runEnq_performs h
  | push raw =>
    cases h
    exact beginEnqueues_performs _ (writesOwn_push raw s) (samePorts_encStep reference raw s).cResponses
  | final =>
    cases h
    exact beginEnqueues_performs _ (writesOwn_final s) (samePorts_finalStep reference s).cResponses
  | deq => exact runDeq_performs h
  | qempty port => cases h; exact performs_respond _ _ _ s
  | qfull port => cases h; exact performs_respond _ _ _ s
  | qovf port => cases h; exact performs_respond _ _ _ s
  | qclear => cases h; exact WritesOwn.performs_ok rfl rfl
  | cinit => exact runCinit_performs (P := reference) h
  | cbyte b => exact runCbyte_performs h
  | cflush => exact runCflush_performs (P := reference) h
  | cfgch n => exact configure_performs h rfl rfl
  | cfgrate n => exact configure_performs h rfl rfl
  | cfgdur n => exact configure_performs h rfl rfl
  | cfgmode n => exact configure_performs h rfl rfl
  | cfgcmp n => exact configure_performs h rfl rfl
  | start => exact runStart_performs (P := reference) h
  | stop => exact runStop_performs (P := reference) h
  | pop => exact runPop_performs (P := reference) h
  | sstat => cases h; exact performs_respond _ _ _ s

/-- Settles O52: a rejected command is one that has changed nothing but its answer. -/
theorem rejectedCommandsChangeNothing : Obligations.RejectedCommandsChangeNothing :=
  fun _ _ _ h => (exec_performs h).rejected

/-- Settles O50: each row of the table, against the commands that each part of the state admits. -/
theorem commandsWriteOnlyTheirOwnState : Obligations.CommandsWriteOnlyTheirOwnState := by
  intro i s t h
  rw [(exec_performs h).writes]
  cases i <;> simp [State.withAnswersOf, State.withWritesOf, State.withFrontOf, State.withClearedOf]

end Sys2Proof.Machine

/-! Scope: the family of spec/70_reset_and_hazards.md. The commands that R292 calls fully defined act on what can be
observed of the block alone, `Observations`: the answers and the observable state they leave are a function of the
observations before. Power-on fixes all of those, so what R290 leaves unspecified is not observed. -/

namespace Sys2Proof.Machine

/-! ### The power-on states (R290) -/

/-- Settles O54: each register, read off `State.reset`. -/
theorem resetHoldsThePowerOnValues : Obligations.ResetHoldsThePowerOnValues :=
  ⟨rfl, rfl, rfl, rfl, rfl, rfl, rfl, rfl, rfl, rfl, rfl, rfl⟩

theorem powerOn_reset (P : Params) : PowerOn P State.reset :=
  ⟨rfl, rfl, rfl, rfl, rfl, rfl, rfl, rfl, rfl, rfl, rfl, rfl, Memory.nil_wf _, Memory.nil_wf _, Memory.nil_wf _,
    rfl, rfl, rfl, rfl⟩

/-- At power-on the queue is empty, the accumulator too, and the compressor is not initialised. -/
theorem inv_of_powerOn {s : State} (h : PowerOn reference s) : Inv reference s := by
  obtain ⟨hhead, htail, hcount, -, -, hfill, -, -, -, hready, -, -, hbuf, hhash, hcode, hpend, -⟩ := h
  refine ⟨?_, ⟨hbuf, hhash, hcode⟩, ?_, compressorInv_of_not_ready hready⟩
  · rw [QueueInv, hhead, htail, hcount]
    decide
  · rw [EncoderInv, hfill, hpend]
    decide

/-- Settles O55: `State.reset` lists nothing in its memories; the invariant asks nothing else of what is left free. -/
theorem powerOnStatesMeetTheInvariant : Obligations.PowerOnStatesMeetTheInvariant :=
  ⟨powerOn_reset reference, fun _ => inv_of_powerOn⟩

/-! ### What is observed of the block (R292) -/

/-- The answers at the two ports and the state that R290 gives a value and R292 speaks of; of the memory `buf` the bytes
in the queue alone. -/
@[ext]
structure Observations where
  pResponses : List RespWord
  cResponses : List RespWord
  head : BitVec 12
  tail : BitVec 12
  count : BitVec 13
  overflow : Bool
  session : Session
  cmpReady : Bool
  sink : List Byte
  interruptCount : BitVec 32
  bytes : List Byte

/-- What is observed of a state. -/
def State.observe (s : State) : Observations where
  pResponses := s.pResponses
  cResponses := s.cResponses
  head := s.head
  tail := s.tail
  count := s.count
  overflow := s.overflow
  session := s.session
  cmpReady := s.cmpReady
  sink := s.sink
  interruptCount := s.interruptCount
  bytes := queueBytes reference s

/-- All observations are fixed at power-on. -/
theorem observe_of_powerOn {s : State} (h : PowerOn reference s) : s.observe = State.reset.observe := by
  obtain ⟨hhead, htail, hcount, hovf, -, -, -, hic, -, hready, hsession, hsink, -, -, -, -, hp, hc, -⟩ := h
  have hbytes : queueBytes reference s = [] := List.eq_nil_of_length_eq_zero (by rw [queueBytes_length, hcount]; rfl)
  rw [State.observe, hhead, htail, hcount, hovf, hic, hready, hsession, hsink, hp, hc, hbytes]
  rfl

/-! ### The commands on the observations -/

namespace Observations

/-- One response word more at a port. -/
def answer (port : Port) (r : RespWord) (o : Observations) : Observations :=
  match port with
  | .p => { o with pResponses := o.pResponses ++ [r] }
  | .c => { o with cResponses := o.cResponses ++ [r] }

/-- `ENQ v` (spec/40_queue.md R145). -/
def enq (v : Byte) (o : Observations) : Observations :=
  if o.count.toNat = 4096 then { o with overflow := true }.answer .p (respError .queueOverflow)
  else { o with tail := o.tail + 1, count := o.count + 1, bytes := o.bytes ++ [v] }.answer .p respOk

/-- `DEQ` (R146). -/
def deq (o : Observations) : Observations :=
  match o.bytes with
  | [] => o.answer .c respNone
  | v :: vs => { o with head := o.head + 1, count := o.count - 1, bytes := vs }.answer .c (respSome v)

/-- A configuration command (spec/43_session.md R230): the register it writes is not observed. -/
def configure (legal : Bool) (o : Observations) : Observations :=
  if legal = false then o.answer .c (respError .invalidConfiguration)
  else if o.session = .idle then o.answer .c respOk
  else o.answer .c (respError .refused)

end Observations

theorem observe_respond (port : Port) (r : RespWord) (s : State) :
    (respond port r s).observe = s.observe.answer port r := by
  cases port <;> rfl

/-- The command, issued while the compressor is not initialised, completes with answers and observable state that are a
function of the observations before. -/
def ActsOnObservations (i : Instr) : Prop :=
  ∃ f : Observations → Observations, ∀ s, QueueInv reference s → s.cmpReady = false →
    ∃ t, exec i s = .next t ∧ t.observe = f s.observe

/-- A command that only answers, with a word read off the observations. -/
theorem actsOnObservations_of_read {i : Instr} (port : Port) (word : Observations → RespWord)
    (h : ∀ s, exec i s = .next (respond port (word s.observe) s)) : ActsOnObservations i :=
  ⟨fun o => o.answer port (word o), fun s _ _ => ⟨_, h s, observe_respond port _ s⟩⟩

theorem exec_enq_observe {s : State} (h : QueueInv reference s) (v : Byte) :
    ∃ t, exec (.enq v) s = .next t ∧ t.observe = s.observe.enq v := by
  rcases enq_cases reference v s with ⟨hfull, _⟩ | ⟨hroom, e⟩
  · refine ⟨_, exec_enq_of_full hfull, ?_⟩
    have hcount : s.observe.count.toNat = 4096 := hfull
    rw [Observations.enq, if_pos hcount]
    rfl
  · have hbytes := (enq_appends v h hroom).1
    rw [e, advance_reference] at hbytes
    have hcount : s.observe.count.toNat ≠ 4096 := hroom
    refine ⟨_, exec_enq_of_room hroom, ?_⟩
    rw [Observations.enq, if_neg hcount]
    exact Observations.ext rfl rfl rfl rfl rfl rfl rfl rfl rfl rfl hbytes

theorem exec_deq_observe {s : State} (h : QueueInv reference s) :
    ∃ t, exec .deq s = .next t ∧ t.observe = s.observe.deq := by
  rcases deq_cases reference s with ⟨hempty, _⟩ | ⟨hne, e⟩
  · have hbytes : s.observe.bytes = [] := List.eq_nil_of_length_eq_zero (by simp [State.observe, hempty])
    refine ⟨_, exec_deq_of_empty hempty, ?_⟩
    rw [Observations.deq, hbytes]
    rfl
  · have htake := (deq_takes h hne).1
    rw [e, advance_reference] at htake
    have hbytes : s.observe.bytes = _ :: _ := htake
    refine ⟨_, exec_deq_of_ne hne, ?_⟩
    rw [Observations.deq, hbytes, ← respSome_eq]
    rfl

/-- A configuration command, whose register write leads to `u` and is not observed. -/
theorem configure_observe (legal : Bool) {s u : State} (hu : u.observe = s.observe) :
    ∃ t, configure legal u s = .next t ∧ t.observe = s.observe.configure legal := by
  rcases configure_cases legal u s with ⟨hl, e⟩ | ⟨hl, hidle, e⟩ | ⟨hl, hbusy, e⟩ <;>
    refine ⟨_, e, ?_⟩ <;> subst hl
  · rfl
  · have hi : s.observe.session = .idle := hidle
    rw [observe_respond, hu, Observations.configure, if_neg Bool.true_eq_false.mp, if_pos hi]
  · have hb : s.observe.session ≠ .idle := hbusy
    rw [raiseError_eq, observe_respond, Observations.configure, if_neg Bool.true_eq_false.mp, if_neg hb]

/-- Every command that R292 calls fully defined acts on the observations alone. -/
theorem exec_actsOnObservations {i : Instr} (hpush : ∀ v, i ≠ .push v)
    (hi : i ∉ ([.final, .qclear, .start, .stop, .pop] : List Instr)) : ActsOnObservations i := by
  cases i with
  | enq v => exact ⟨.enq v, fun _ hq _ => exec_enq_observe hq v⟩
  | push raw => exact absurd rfl (hpush raw)
  | deq => exact ⟨.deq, fun _ hq _ => exec_deq_observe hq⟩
  | qempty port => exact actsOnObservations_of_read port (fun o => respBool (o.count == 0)) fun _ => rfl
  | qfull port => exact actsOnObservations_of_read port (fun o => respBool (o.count.toNat == 4096)) fun _ => rfl
  | qovf port => exact actsOnObservations_of_read port (fun o => respBool o.overflow) fun _ => rfl
  | cinit => exact ⟨fun o => { o with cmpReady := true }.answer .c respOk, fun s _ _ => ⟨_, exec_cinit s, rfl⟩⟩
  | cbyte b => exact ⟨.answer .c (respError .refused), fun _ _ hr => ⟨_, runCbyte_of_not_ready reference b hr, rfl⟩⟩
  | cflush => exact ⟨.answer .c (respError .refused), fun _ _ hr => ⟨_, runCflush_of_not_ready reference hr, rfl⟩⟩
  | cfgch n => exact ⟨.configure (channelCountLegal reference n), fun _ _ _ => configure_observe _ rfl⟩
  | cfgrate n => exact ⟨.configure (sampleRateLegal reference n), fun _ _ _ => configure_observe _ rfl⟩
  | cfgdur n => exact ⟨.configure (durationLegal reference n), fun _ _ _ => configure_observe _ rfl⟩
  | cfgmode n => exact ⟨.configure (oneBitLegal n), fun _ _ _ => configure_observe _ rfl⟩
  | cfgcmp n => exact ⟨.configure (oneBitLegal n), fun _ _ _ => configure_observe _ rfl⟩
  | sstat => exact actsOnObservations_of_read .c (fun o => respSome o.session.code) fun _ => rfl
  | final | qclear | start | stop | pop => exact absurd (by decide) hi

/-- After such a command, issued at power-on, all power-on states give the same observations. -/
theorem ActsOnObservations.after_powerOn {i : Instr} (hi : ActsOnObservations i) :
    ∃ o, ∀ s t, PowerOn reference s → exec i s = .next t → t.observe = o := by
  obtain ⟨f, hf⟩ := hi
  refine ⟨f State.reset.observe, fun s t hs h => ?_⟩
  obtain ⟨hqueue, -⟩ := inv_of_powerOn hs
  have hstart := observe_of_powerOn hs
  have hready : s.cmpReady = false := congrArg Observations.cmpReady hstart
  obtain ⟨u, e, hu⟩ := hf s hqueue hready
  rw [e] at h
  cases h
  rw [hu, hstart]

/-- Settles O58: the two runs start from the same observations, so they end with the same ones. -/
theorem unspecifiedPowerOnValuesAreNotObserved : Obligations.UnspecifiedPowerOnValuesAreNotObserved := by
  intro i s s' t t' hs hs' hpush hi h h'
  obtain ⟨o, ho⟩ := (exec_actsOnObservations hpush hi).after_powerOn
  have hsame : t.observe = t'.observe := (ho s t hs h).trans (ho s' t' hs' h').symm
  simpa only [State.observe, Observations.mk.injEq] using hsame

end Sys2Proof.Machine
